-- ==== Sys2Proof/Word.lean ====
section
/-! DEFINITION. The word types of V2T-CORE and their plainest arithmetic (spec/00_scope.md R13). -/

namespace Sys2Proof

/-- A byte of the output port, or the DATA field of a beat. -/
abbrev Byte := BitVec 8

/-- What the input port carries in one transfer, F-BEAT (30_encoding.md R90). -/
abbrev BeatWord := BitVec 10

/-- The content of the OP register, F-OP (30_encoding.md R110). -/
abbrev OpCode := BitVec 4

/-- A status register (10_state.md R40). -/
abbrev StatusWord := BitVec 32

/-- The id of a Huffman tree node: 0..6 a leaf, 7..12 an internal node (10_state.md R36, R37). -/
abbrev NodeId := BitVec 4

/-- A symbol or a rank-symbol, 0..6 (00_scope.md section 7). -/
abbrev Sym := Fin 7

/-- `trunc(x)` rounds a rational toward zero (00_scope.md R13). -/
def truncRat (x : Rat) : Int := x.num.tdiv x.den

/-- `bitlength(n)` is the least `b` with `n < 2^b` (00_scope.md R13). -/
def bitLength (n : Nat) : Nat := if n = 0 then 0 else n.log2 + 1

end Sys2Proof
end

