-- ==== Sys2Proof/Config.lean ====
section
/-! DEFINITION. The static parameters of an instance (spec/00_scope.md R5 to R9). State carries them in
a field that nothing writes (log 1). -/

namespace Sys2Proof

/-- RANK_TIE: which of two symbols with equal transition counts gets the smaller rank (R9). -/
inductive RankTie where
  | highFirst
  | lowFirst
deriving DecidableEq, Repr

/-- NUMERICS: the number system of the Disperser's samples (R7). -/
inductive NumberSystem where
  /-- NUM_EXACT (40_disperser.md R121). -/
  | exact
  /-- NUM_FX(FRAC_K, ACC_BITS) (40_disperser.md R122). -/
  | fx (fracK accBits : Nat)
deriving DecidableEq, Repr

/-- The parameters of one instance: frame size, reference table, number system, tie rule. -/
structure Config where
  w : Nat
  h : Nat
  ref : Vector Rat 7
  numerics : NumberSystem
  rankTie : RankTie
deriving DecidableEq, Repr

/-- NINT, the number of internal nodes and so of tree bytes (R8; 93_implementation_defined.md I9). -/
def Config.nint : Nat := 6

/-- NPIX, the number of cells of a frame (R5). -/
def Config.npix (c : Config) : Nat := c.w * c.h

/-- CNT_BITS (R8). -/
def Config.cntBits (c : Config) : Nat := bitLength c.npix

/-- POS_BITS (R8). -/
def Config.posBits (c : Config) : Nat := max c.cntBits 3

/-- UNIT, the sample units of one level under NUM_FX (R8). -/
def fxUnit (fracK : Nat) : Int := 255 * 2 ^ fracK

/-- The stand-in reference table REF_T of 95_test_vectors.md section 2; nobody claims it is the real one. -/
def Config.standInRef : Vector Rat 7 := #v[0, 6/5, 21/10, 33/10, 21/5, 27/5, 6]

/-- The instance that `State.reset` is an instance of. NUMERICS and RANK_TIE are the spec's defaults
(R7, R9); W, H and REF are OPEN in the spec: DESIGN CHOICE, unsafe (log 2). -/
def Config.default : Config where
  w := 2
  h := 2
  ref := Config.standInRef
  numerics := .fx 8 32
  rankTie := .highFirst

end Sys2Proof
end

