-- ==== Sys2Proof/Machine/Numerics.lean ====
section
/-! DEFINITION. The Disperser's number system: the record of primitives of spec/40_disperser.md R120 and its two
instances NUM_EXACT (R121) and NUM_FX (R122). -/

namespace Sys2Proof.Machine

/-- NUMERICS: the six primitives over a sample type (R120). `none` is an overflow (R130). -/
structure Numerics (Sample : Type) where
  /-- OFBYTE: the sample of an 8-bit input, `v * 6 / 255` of a level. -/
  ofByte : Byte → Sample
  /-- REFV: the reference value of a level. -/
  refv : Sym → Sample
  /-- LEVEL: the discrete level of a sample. -/
  level : Sample → Sym
  /-- ERR: the quantization error of a sample against a level. -/
  err : Sample → Sym → Option Sample
  /-- SHARE: the share of an error for a weight in sixteenths. -/
  share : Sample → Nat → Sample
  /-- ADD: the sum of two samples. -/
  add : Sample → Sample → Option Sample

/-- LEVEL under NUM_EXACT: clamp to [0, 6] and truncate toward zero (R121, R124). -/
def levelExact (x : Rat) : Sym := Fin.ofNat 7 (truncRat (min (max x 0) 6)).toNat

/-- NUM_EXACT, rational arithmetic (R121). -/
def numExact (ref : Vector Rat 7) : Numerics Rat where
  ofByte v := (v.toNat : Rat) * 6 / 255
  refv l := ref[l]
  level := levelExact
  err x l := some (x - ref[l])
  share e w := e * (w : Rat) / 16
  add a b := some (a + b)

/-- The signed range of ACC_BITS bits (R122). -/
def fxInRange (accBits : Nat) (x : Int) : Bool :=
  decide (-(2 ^ (accBits - 1) : Int) ≤ x) && decide (x < (2 ^ (accBits - 1) : Int))

/-- A result of ERR or ADD under NUM_FX: an overflow where it is outside the range (R122, R130). -/
def fxCheck (accBits : Nat) (x : Int) : Option Int := if fxInRange accBits x then some x else none

/-- REFQ[l], the integer `REF[l] * UNIT` (R122; that it is an integer is a build constraint). -/
def refq (ref : Vector Rat 7) (fracK : Nat) (l : Sym) : Int := (ref[l] * (fxUnit fracK : Rat)).floor

/-- LEVEL under NUM_FX: `min(max(x, 0), 6 * UNIT) div UNIT` (R122). -/
def levelFx (fracK : Nat) (x : Int) : Sym :=
  Fin.ofNat 7 (min (max x 0) (6 * fxUnit fracK) / fxUnit fracK).toNat

/-- SHARE under NUM_FX: the exact product divided by 16 toward minus infinity (R122). -/
def shareFx (e : Int) (w : Nat) : Int := (e * (w : Int)) / 16

/-- NUM_FX(FRAC_K, ACC_BITS), fixed point in units of 1/UNIT (R122). -/
def numFx (fracK accBits : Nat) (ref : Vector Rat 7) : Numerics Int where
  ofByte v := 6 * (v.toNat : Int) * 2 ^ fracK
  refv l := refq ref fracK l
  level := levelFx fracK
  err x l := fxCheck accBits (x - refq ref fracK l)
  share := shareFx
  add a b := fxCheck accBits (a + b)

end Sys2Proof.Machine
end

