-- ==== Sys2Proof/Syntax.lean ====
section
/-! DEFINITION. The operations of the sequencer, the rows of spec/opcode_table.json, and the beat of the
input port. -/

namespace Sys2Proof

/-- The type of the OP register: exactly the twelve values of 30_encoding.md R110, so that a reserved
code cannot be written down (R111). The element an operation works on is POS, which is state. -/
inductive Instr where
  /-- 0x0, load sample (44_sequencer_io.md R202). -/
  | lds
  /-- 0x1, quantize and diffuse (40_disperser.md R125). -/
  | qdf
  /-- 0x2, transition count (41_transition_modeler.md R141). -/
  | tcn
  /-- 0x3, rank row (41_transition_modeler.md R143). -/
  | rnk
  /-- 0x4, remap to rank-symbol (41_transition_modeler.md R146). -/
  | rmp
  /-- 0x5, Huffman seed (42_huffman_coder.md R161). -/
  | hsd
  /-- 0x6, Huffman merge (42_huffman_coder.md R163). -/
  | hmg
  /-- 0x7, emit rank word (43_bitpacker_serializer.md R181). -/
  | erk
  /-- 0x8, emit tree node (43_bitpacker_serializer.md R183). -/
  | etn
  /-- 0x9, put codeword (43_bitpacker_serializer.md R186). -/
  | pcw
  /-- 0xA, flush and end frame (43_bitpacker_serializer.md R188). -/
  | fls
  /-- 0xF, faulted: a state of OP, not an operation (60_exceptions.md R226). -/
  | flt
deriving DecidableEq, Repr

/-- The mnemonics of 30_encoding.md R110, for traces (R112). -/
def Instr.mnemonic : Instr → String
  | .lds => "LDS"
  | .qdf => "QDF"
  | .tcn => "TCN"
  | .rnk => "RNK"
  | .rmp => "RMP"
  | .hsd => "HSD"
  | .hmg => "HMG"
  | .erk => "ERK"
  | .etn => "ETN"
  | .pcw => "PCW"
  | .fls => "FLS"
  | .flt => "FLT"

/-- The fields of an input beat (30_encoding.md R90). -/
structure Beat where
  data : Byte
  eol : Bool
  eof : Bool
deriving DecidableEq, Repr

end Sys2Proof
end

