-- ==== Sys2Proof/Machine/State.lean ====
section
/-! DEFINITION. Every piece of state the spec gives the machine (spec/10_state.md R20 to R39), as plain data,
and the state after reset (R45, spec/70_reset_and_hazards.md R251). -/

namespace Sys2Proof.Machine

/-- The cause of a fault (60_exceptions.md R220); the codes 3..7 are reserved and cannot be written down. -/
inductive Cause where
  /-- 0 NONE. -/
  | none
  /-- 1 DIM_MISMATCH, raised by LDS. -/
  | dimMismatch
  /-- 2 ACC_OVERFLOW, raised by QDF under NUM_FX. -/
  | accOverflow
deriving DecidableEq, Repr

/-- G, the working copy of the Intensity Grid: a list of SAMPLEs in raster order, of the sample type of the
instance's number system (10_state.md R30, 40_disperser.md R120). -/
inductive Grid where
  /-- Under NUM_EXACT a sample is a rational (40_disperser.md R121). -/
  | exact (cells : List Rat)
  /-- Under NUM_FX a sample is a signed integer of ACC_BITS bits (40_disperser.md R122). -/
  | fx (cells : List Int)
deriving DecidableEq, Repr

/-- An entry of the Huffman working list (10_state.md R36). -/
structure HEntry where
  cnt : Nat
  mem : BitVec 7
  nid : NodeId
deriving DecidableEq, Repr

/-- An internal node of the Huffman tree (10_state.md R37). -/
structure TreeNode where
  left : NodeId
  right : NodeId
deriving DecidableEq, Repr

/-- A codeword: its first character is bit `len - 1` of `bits` (10_state.md R38). -/
structure Codeword where
  len : BitVec 3
  bits : BitVec 6
deriving DecidableEq, Repr

/-- The buffers that are read or written by element index (10_state.md section 5). -/
inductive Buffer where
  | g | q | t | rk | rs | hl | tree
deriving DecidableEq, Repr

/-- Why the machine stops. The spec's own faults are not here: taking one is a next state
(`raiseFault`). Every constructor is an access that the spec gives no meaning because no run makes it
(10_state.md R46, 60_exceptions.md R220); all are safe. -/
inductive Fault where
  /-- An element outside a buffer's index space (20_memory.md R60); raised by any operation whose POS, or
  by HMG whose HLEN or NNODE, names no element. Safe (log 5). -/
  | noElement (buffer : Buffer)
  /-- G holds samples of the other number system than the instance's; raised by LDS and QDF. Safe (log 6). -/
  | gridKind
  /-- A row of RK in which some rank is held by no symbol; raised by ERK. Safe (log 7). -/
  | rowNotPermutation
deriving DecidableEq, Repr

/-- Why an instruction has no meaning. -/
inductive Refusal where
  /-- An arm of `exec` without a meaning; no arm of this model raises it. Safe. -/
  | notModelled (mnemonic : String)
deriving DecidableEq, Repr

/-- The state of the core (10_state.md R20), with the queue IN and the sequence OUT (R39), the sink's
readiness (44_sequencer_io.md R213; the model's own field, log 9) and the static parameters (00_scope.md
R5 to R9, log 1). -/
structure State where
  /-- W, H, REF, NUMERICS, RANK_TIE: written by nothing. -/
  cfg : Config
  /-- OP (R21). -/
  op : Instr
  /-- POS (R22). -/
  pos : Nat
  /-- PREV (R24). -/
  prev : Sym
  /-- HLEN (R25). -/
  hlen : BitVec 3
  /-- NNODE (R25). -/
  nnode : BitVec 4
  /-- BACC (R26). -/
  bacc : BitVec 7
  /-- BCNT (R26). -/
  bcnt : BitVec 3
  /-- FRAME_IDX (R27). -/
  frameIdx : BitVec 32
  /-- FAULT (R28). -/
  fault : Bool
  /-- CAUSE (R28). -/
  cause : Cause
  /-- FAULT_INFO (R28). -/
  faultInfo : BitVec 32
  /-- G (R30). -/
  g : Grid
  /-- Q (R31). -/
  q : List Sym
  /-- T, previous symbol first (R32). -/
  t : Vector (Vector Nat 7) 7
  /-- RK, previous symbol first (R33). -/
  rk : Vector (Vector Sym 7) 7
  /-- RS (R34). -/
  rs : List Sym
  /-- HIST (R35). -/
  hist : Vector Nat 7
  /-- HL (R36). -/
  hl : Vector HEntry 7
  /-- TREE; element `k` is node `7 + k` (R37). -/
  tree : Vector TreeNode 6
  /-- CW (R38). -/
  cw : Vector Codeword 7
  /-- IN, the oldest beat first (R39). -/
  inq : List BeatWord
  /-- OUT, the oldest byte first (R39). -/
  out : List Byte
  /-- How many bytes the sink takes now; `none`: as many as are offered (log 9). -/
  sinkRoom : Option Nat
deriving DecidableEq, Repr

/-- A grid of `n` zero samples for an instance. -/
def Grid.zeros (c : Config) (n : Nat) : Grid :=
  match c.numerics with
  | .exact => .exact (List.replicate n 0)
  | .fx _ _ => .fx (List.replicate n 0)

/-- The state after reset of the instance `c`: the scalar registers as R45 says; the buffers, which R45
leaves unspecified, at values this model names (zeros, and identity rows in RK so that R33's invariant
holds; DESIGN CHOICE, log 3); nothing offered in IN, nothing yet in OUT, a sink that always accepts
(DESIGN CHOICE, log 4 and 9). -/
def State.resetWith (c : Config) : State where
  cfg := c
  op := .lds
  pos := 0
  prev := 0
  hlen := 0
  nnode := 0
  bacc := 0
  bcnt := 0
  frameIdx := 0
  fault := false
  cause := .none
  faultInfo := 0
  g := Grid.zeros c c.npix
  q := List.replicate c.npix 0
  t := Vector.replicate 7 (Vector.replicate 7 0)
  rk := Vector.replicate 7 (Vector.ofFn id)
  rs := List.replicate c.npix 0
  hist := Vector.replicate 7 0
  hl := Vector.replicate 7 { cnt := 0, mem := 0, nid := 0 }
  tree := Vector.replicate 6 { left := 0, right := 0 }
  cw := Vector.replicate 7 { len := 0, bits := 0 }
  inq := []
  out := []
  sinkRoom := none

/-- The machine right after reset, for the instance `Config.default` (log 2). -/
def State.reset : State := State.resetWith Config.default

end Sys2Proof.Machine
end

