-- ==== Sys2Proof/Machine/Operands.lean ====
section
/-! DEFINITION. What the operations work on: raster indices and the flags expected at them, the
diffusion targets of a cell, the grid G under either number system (spec/20_memory.md R61, spec/40_disperser.md
R125 and R126, spec/44_sequencer_io.md R202). -/

namespace Sys2Proof.Machine

/-- The row of a cell, `n div W` (00_scope.md R15). -/
def rowOf (c : Config) (n : Nat) : Nat := n / c.w

/-- The column of a cell, `n mod W` (00_scope.md R15). -/
def colOf (c : Config) (n : Nat) : Nat := n % c.w

/-- The EOL flag that LDS expects at cell `n` (44_sequencer_io.md R202). -/
def eolExpected (c : Config) (n : Nat) : Bool := decide (n % c.w = c.w - 1)

/-- The EOF flag that LDS expects at cell `n` (44_sequencer_io.md R202). -/
def eofExpected (c : Config) (n : Nat) : Bool := decide (n = c.npix - 1)

/-- The flags of a beat are those expected at cell `n` (30_encoding.md R90). -/
def beatOkAt (c : Config) (n : Nat) (b : Beat) : Bool :=
  decide (b.eol = eolExpected c n) && decide (b.eof = eofExpected c n)

/-- The diffusion targets of cell `n` that exist, each with its weight in sixteenths: right 7, below 5,
below-left 3, below-right 1; tested on row and column (R126, R128). -/
def diffusionTargets (c : Config) (n : Nat) : List (Nat × Nat) :=
  (if colOf c n + 1 < c.w then [(n + 1, 7)] else []) ++
  (if rowOf c n + 1 < c.h then [(n + c.w, 5)] else []) ++
  (if rowOf c n + 1 < c.h ∧ 1 ≤ colOf c n then [(n + c.w - 1, 3)] else []) ++
  (if rowOf c n + 1 < c.h ∧ colOf c n + 1 < c.w then [(n + c.w + 1, 1)] else [])

/-- Why an operation on the grid has no result. -/
inductive GridStop where
  /-- ERR or an ADD left the range: the spec's ACC_OVERFLOW (R130). -/
  | overflow
  /-- One of the model's own stops. -/
  | stop (f : Fault)
deriving DecidableEq, Repr

/-- Adds to each target its share of the error `e` (R125). -/
def spread {Sample : Type} (num : Numerics Sample) (e : Sample) :
    List (Nat × Nat) → List Sample → Except GridStop (List Sample)
  | [], cells => .ok cells
  | (target, weight) :: rest, cells =>
    match cells[target]? with
    | none => .error (.stop (.noElement .g))
    | some y =>
      match num.add y (num.share e weight) with
      | none => .error .overflow
      | some z => spread num e rest (cells.set target z)

/-- The level of cell `n` and the grid with the error of that cell diffused. The error is that of the
working value as read, not of the clamped value (R125, R127). -/
def quantizeCell {Sample : Type} (num : Numerics Sample) (c : Config) (n : Nat) (cells : List Sample) :
    Except GridStop (Sym × List Sample) :=
  match cells[n]? with
  | none => .error (.stop (.noElement .g))
  | some x =>
    match num.err x (num.level x) with
    | none => .error .overflow
    | some e =>
      match spread num e (diffusionTargets c n) cells with
      | .error r => .error r
      | .ok cells' => .ok (num.level x, cells')

/-- `quantizeCell` in the instance's number system. -/
def gridQuantize (c : Config) (n : Nat) (g : Grid) : Except GridStop (Sym × Grid) :=
  match c.numerics, g with
  | .exact, .exact cells =>
    match quantizeCell (numExact c.ref) c n cells with
    | .error r => .error r
    | .ok (l, cells') => .ok (l, .exact cells')
  | .fx fracK accBits, .fx cells =>
    match quantizeCell (numFx fracK accBits c.ref) c n cells with
    | .error r => .error r
    | .ok (l, cells') => .ok (l, .fx cells')
  | .exact, .fx _ => .error (.stop .gridKind)
  | .fx _ _, .exact _ => .error (.stop .gridKind)

/-- `G[n] <- OFBYTE(v)` in the instance's number system (44_sequencer_io.md R202). -/
def gridLoad (c : Config) (n : Nat) (v : Byte) (g : Grid) : Except Fault Grid :=
  match c.numerics, g with
  | .exact, .exact cells =>
    if n < cells.length then .ok (.exact (cells.set n ((numExact c.ref).ofByte v)))
    else .error (.noElement .g)
  | .fx fracK accBits, .fx cells =>
    if n < cells.length then .ok (.fx (cells.set n ((numFx fracK accBits c.ref).ofByte v)))
    else .error (.noElement .g)
  | .exact, .fx _ => .error .gridKind
  | .fx _ _, .exact _ => .error .gridKind

/-- G has the instance's sample type and exactly NPIX elements (10_state.md R30). -/
def Grid.fits (c : Config) (g : Grid) : Bool :=
  match c.numerics, g with
  | .exact, .exact cells => decide (cells.length = c.npix)
  | .fx _ _, .fx cells => decide (cells.length = c.npix)
  | .exact, .fx _ => false
  | .fx _ _, .exact _ => false

/-- Under NUM_FX every sample is in the ACC_BITS-bit signed range (40_disperser.md R122). -/
def Grid.inRange (c : Config) (g : Grid) : Bool :=
  match c.numerics, g with
  | .fx _ accBits, .fx cells => cells.all (fxInRange accBits)
  | _, _ => true

/-- The memory of the block is well formed: each per-cell buffer holds exactly NPIX elements, and G those of
the instance's sample type. Equal contents are then equal lists (log 11). -/
def Memory.wf (s : State) : Bool :=
  s.g.fits s.cfg && decide (s.q.length = s.cfg.npix) && decide (s.rs.length = s.cfg.npix)

end Sys2Proof.Machine
end

