-- ==== Sys2Proof/Decode.lean ====
section
/-! DEFINITION. Every bit-level encoding of spec/30_encoding.md: operation codes, beats, and the three
fields of a record, each with its decoder (total, rejecting by name) and its encoder. -/

namespace Sys2Proof

/-- Why a word is no operation code. -/
inductive DecodeError where
  /-- Codes 0xB to 0xE, which OP never holds (R111). -/
  | reservedCode (code : OpCode)
deriving DecidableEq, Repr

/-- The operation a content of the OP register names (R110). -/
def decode (code : OpCode) : Except DecodeError Instr :=
  match code.toNat with
  | 0 => .ok .lds
  | 1 => .ok .qdf
  | 2 => .ok .tcn
  | 3 => .ok .rnk
  | 4 => .ok .rmp
  | 5 => .ok .hsd
  | 6 => .ok .hmg
  | 7 => .ok .erk
  | 8 => .ok .etn
  | 9 => .ok .pcw
  | 10 => .ok .fls
  | 15 => .ok .flt
  | _ => .error (.reservedCode code)

/-- The code of an operation (R110). -/
def encode : Instr → OpCode
  | .lds => 0x0
  | .qdf => 0x1
  | .tcn => 0x2
  | .rnk => 0x3
  | .rmp => 0x4
  | .hsd => 0x5
  | .hmg => 0x6
  | .erk => 0x7
  | .etn => 0x8
  | .pcw => 0x9
  | .fls => 0xA
  | .flt => 0xF

/-- The operation the decoder reads from a row of spec/opcode_table.json. The word is laid into OP, which
is four bits wide, so its low four bits are the code and no bit above them is the block's (log 16). -/
def decodeTableWord (_nbits w : Nat) : Option Instr := (decode (BitVec.ofNat 4 w)).toOption

/-- F-BEAT: DATA in bits 7..0, EOL in bit 8, EOF in bit 9 (R90); every word is a beat (R91). -/
def decodeBeat (w : BeatWord) : Beat where
  data := w.extractLsb' 0 8
  eol := w.getLsbD 8
  eof := w.getLsbD 9

/-- F-BEAT, `EOF EOL DATA[7:0]` from the most significant bit (R90). -/
def encodeBeat (b : Beat) : BeatWord := BitVec.ofBool b.eof ++ BitVec.ofBool b.eol ++ b.data

/-- F-RANKW, high byte first: a permutation index zero-extended to 16 bits (R101, 20_memory.md R63). -/
def encodeRankWord (code : Nat) : List Byte := [BitVec.ofNat 8 (code / 256), BitVec.ofNat 8 (code % 256)]

/-- F-NODE, `LEFT[3:0] RIGHT[3:0]` (R102). -/
def encodeNode (left right : NodeId) : Byte := left ++ right

/-- Why a stream is no record: the values that the block never produces (R106). -/
inductive RecordError where
  /-- The stream ends inside the record. -/
  | truncated
  /-- A rank word above 5039: a nonzero bit in [15:13], or CODE in 5040..8191. -/
  | reservedRankWord
  /-- A tree byte whose child id is not below its node's id. -/
  | childNotEarlier
  /-- An id of 0..11 that is a child twice. -/
  | childTwice
  /-- A nonzero padding bit. -/
  | nonzeroPadding
deriving DecidableEq, Repr

/-- Reads a rank word, refusing the reserved values (R101, R106). -/
def decodeRankWord (hi lo : Byte) : Except RecordError Nat :=
  let code := hi.toNat * 256 + lo.toNat
  if code < 5040 then .ok code else .error .reservedRankWord

/-- Reads the tree byte of internal node `k`: both children are below `k` (R102, R106). -/
def decodeNode (k : Nat) (b : Byte) : Except RecordError (NodeId × NodeId) :=
  let left : NodeId := b.extractLsb' 4 4
  let right : NodeId := b.extractLsb' 0 4
  if left.toNat < k ∧ right.toNat < k then .ok (left, right) else .error .childNotEarlier

end Sys2Proof
end

