-- ==== Sys2Proof/Machine/Ops.lean ====
section
/-! DEFINITION. The operations that the meanings share: taking the fault (spec/60_exceptions.md R225) and leaving it
(reset, spec/70_reset_and_hazards.md R250), the advance of (OP, POS) (spec/44_sequencer_io.md R201), and the two
streams `take()` and `emit(b)` (spec/00_scope.md R14). -/

namespace Sys2Proof

/-- The largest index of an operation (44_sequencer_io.md R201). -/
def Instr.lastIndex (c : Config) : Instr → Nat
  | .lds => c.npix - 1
  | .qdf => c.npix - 1
  | .tcn => c.npix - 1
  | .rnk => 6
  | .rmp => c.npix - 1
  | .hsd => 0
  | .hmg => 5
  | .erk => 6
  | .etn => Config.nint - 1
  | .pcw => c.npix - 1
  | .fls => 0
  | .flt => 0

/-- The operation that follows an operation's last index (44_sequencer_io.md R201); FLT is left by nothing. -/
def Instr.successor : Instr → Instr
  | .lds => .qdf
  | .qdf => .tcn
  | .tcn => .rnk
  | .rnk => .rmp
  | .rmp => .hsd
  | .hsd => .hmg
  | .hmg => .erk
  | .erk => .etn
  | .etn => .pcw
  | .pcw => .fls
  | .fls => .lds
  | .flt => .flt

end Sys2Proof

namespace Sys2Proof.Machine

/-- What a step or a meaning answers. -/
abbrev Result := Host.Outcome State Fault Refusal

/-- `raise Fault(cause, info)`: the fault registers and OP are written, all else keeps its value
(60_exceptions.md R225). -/
def raiseFault (cause : Cause) (info : Nat) (s : State) : State :=
  { s with fault := true, cause := cause, faultInfo := BitVec.ofNat 32 info, op := .flt }

/-- The reset event, the only way out of FLT: the core's state becomes the reset state, IN and OUT are not
touched, nor is what the sink is ready for (70_reset_and_hazards.md R250, R251, 60_exceptions.md R232). -/
def assertReset (s : State) : State :=
  { State.resetWith s.cfg with inq := s.inq, out := s.out, sinkRoom := s.sinkRoom }

/-- `(OP, POS) <- (i, 0)`. -/
def enter (i : Instr) (s : State) : State := { s with op := i, pos := 0 }

/-- The last line of an indexed operation: `POS <- POS + 1`, or the next operation at 0 (R201). -/
def advance (i : Instr) (s : State) : State :=
  if s.pos = i.lastIndex s.cfg then enter i.successor s else { s with pos := s.pos + 1 }

/-- `take()`: the oldest beat of IN, and the state without it; none while IN is empty (00_scope.md R14). -/
def takeBeat (s : State) : Option (Beat × State) :=
  match s.inq with
  | [] => none
  | w :: rest => some (decodeBeat w, { s with inq := rest })

/-- The sink can take `n` more bytes (44_sequencer_io.md R213). -/
def sinkAccepts (n : Nat) (s : State) : Bool :=
  match s.sinkRoom with
  | none => true
  | some k => decide (n ≤ k)

/-- `emit(b)` for each byte of a list, in order (00_scope.md R14). -/
def emit (bytes : List Byte) (s : State) : State :=
  { s with out := s.out ++ bytes, sinkRoom := s.sinkRoom.map (· - bytes.length) }

/-- An operation that emits `bytes` and then does the rest: it waits, with the state unchanged, until the
sink can take every byte it emits (44_sequencer_io.md R213). -/
def emitThen (bytes : List Byte) (s : State) (rest : State → State) : Result :=
  if sinkAccepts bytes.length s then .next (rest (emit bytes s)) else .next s

end Sys2Proof.Machine
end

