-- ==== Sys2Proof/Machine/Disperser.lean ====
section
/-! DEFINITION. LDS (spec/44_sequencer_io.md R202) and QDF (spec/40_disperser.md R125): the samples come in and are
dithered to levels. -/

namespace Sys2Proof.Machine

/-- LDS: take a beat, compare its flags with those expected at POS, store the rescaled sample (R202). It is
not enabled while IN is empty: the state does not change (R200). A beat with a wrong flag stays taken and
raises DIM_MISMATCH (R202, 60_exceptions.md R221). -/
def execLds (s : State) : Result :=
  match takeBeat s with
  | none => .next s
  | some (beat, s1) =>
    if beatOkAt s1.cfg s1.pos beat then
      match gridLoad s1.cfg s1.pos beat.data s1.g with
      | .ok g' => .next (advance .lds { s1 with g := g' })
      | .error f => .fault f
    else .next (raiseFault .dimMismatch s1.pos s1)

/-- QDF: the level of cell POS into Q, its error into the cells not yet visited; an overflow raises
ACC_OVERFLOW and nothing is written (R125, R130). -/
def execQdf (s : State) : Result :=
  match gridQuantize s.cfg s.pos s.g with
  | .ok (level, g') =>
    if s.pos < s.q.length then .next (advance .qdf { s with g := g', q := s.q.set s.pos level })
    else .fault (.noElement .q)
  | .error (.stop f) => .fault f
  | .error .overflow => .next (raiseFault .accOverflow s.pos s)

end Sys2Proof.Machine
end

