-- ==== Sys2Proof/Machine/Huffman.lean ====
section
/-! DEFINITION. The Huffman Coder (spec/42_huffman_coder.md): HSD (R161) and HMG (R163). -/

namespace Sys2Proof.Machine

/-- The position of seed `i` in the list: how many seeds have a larger count, or the same count and a
smaller id (R161). At most six do, so no bit is lost. -/
def seedPosition (hist : Vector Nat 7) (i : Sym) : Sym :=
  Fin.ofNat 7 ((List.finRange 7).countP fun j =>
    decide (hist[i] < hist[j]) || (decide (j < i) && decide (hist[j] = hist[i])))

/-- The seed entry of rank-symbol `i` (R161). -/
def seedEntry (hist : Vector Nat 7) (i : Sym) : HEntry where
  cnt := hist[i]
  mem := BitVec.ofNat 7 (2 ^ i.val)
  nid := BitVec.ofNat 4 i.val

/-- HL with the seven seeds written to their positions, in ascending id order (R161). -/
def seedList (hist : Vector Nat 7) (hl : Vector HEntry 7) : Vector HEntry 7 :=
  (List.finRange 7).foldl (fun l i => l.set (seedPosition hist i) (seedEntry hist i)) hl

/-- What HSD writes but for (OP, POS): the seeds, the empty codewords, HLEN and NNODE (R161). -/
def seedHuffman (s : State) : State :=
  { s with
    hl := seedList s.hist s.hl
    cw := Vector.replicate 7 { len := 0, bits := 0 }
    hlen := 7
    nnode := 7 }

/-- HSD: seed the working list (R161). -/
def execHsd (s : State) : Result := .next (enter .hmg (seedHuffman s))

/-- Prepend a bit to a codeword: `len + 1`, and `bits + b * 2^len` with the length before (R163, R165). -/
def prependBit (b : Bool) (c : Codeword) : Codeword where
  len := c.len + 1
  bits := if b then c.bits + BitVec.ofNat 6 (2 ^ c.len.toNat) else c.bits

/-- The codeword of rank-symbol `m` after a merge: '0' prepended if it is a member of the left entry, '1' if
of the right (R163). -/
def mergeCodeword (left right : HEntry) (m : Sym) (c : Codeword) : Codeword :=
  let c1 := if left.mem.getLsbD m.val then prependBit false c else c
  if right.mem.getLsbD m.val then prependBit true c1 else c1

/-- The merged entry (R163). -/
def mergeEntry (left right : HEntry) (nid : NodeId) : HEntry where
  cnt := left.cnt + right.cnt
  mem := left.mem ||| right.mem
  nid := nid

/-- The first position among the first `n` of the list whose count is at most `cnt`, or `n` (R163, R169). -/
def insertPosition (hl : Vector HEntry 7) (n cnt : Nat) : Nat :=
  (hl.toList.take n).findIdx fun e => decide (e.cnt ≤ cnt)

/-- The list with `e` at position `j` and the entries from `j` to `n - 1` shifted back by one; slots above `n`
keep what they held (R163; log 13). -/
def insertEntry (hl : Vector HEntry 7) (n j : Nat) (e : HEntry) : Vector HEntry 7 :=
  Vector.ofFn fun q : Fin 7 =>
    if q.val < j then hl[q]
    else if q.val = j then e
    else if q.val ≤ n then hl[q.val - 1]
    else hl[q]

/-- HMG: merge the last entry of the list (the left child) and the one before it (the right child) into
node NNODE, and insert the merged entry by the scan from the front (R163, R164, R169). -/
def execHmg (s : State) : Result :=
  if hLen : 2 ≤ s.hlen.toNat then
    if hNode : 7 ≤ s.nnode.toNat ∧ s.nnode.toNat - 7 < 6 then
      let left := s.hl[s.hlen.toNat - 1]
      let right := s.hl[s.hlen.toNat - 2]
      let n := s.hlen.toNat - 2
      let merged := mergeEntry left right s.nnode
      let j := insertPosition s.hl n merged.cnt
      .next (advance .hmg
        { s with
          tree := s.tree.set (s.nnode.toNat - 7) { left := left.nid, right := right.nid } hNode.2
          cw := Vector.ofFn fun m : Fin 7 => mergeCodeword left right m s.cw[m]
          hl := insertEntry s.hl n j merged
          hlen := BitVec.ofNat 3 (n + 1)
          nnode := s.nnode + 1 })
    else .fault (.noElement .tree)
  else .fault (.noElement .hl)

end Sys2Proof.Machine
end

