-- ==== Sys2Proof/Machine/Serializer.lean ====
section
/-! DEFINITION. The Bit Packer and Frame Serializer (spec/43_bitpacker_serializer.md): ERK (R181), ETN (R183), PCW
(R186), FLS (R188). -/

namespace Sys2Proof.Machine

/-- PERMIDX for the rank positions `ranks` still to come: the digit of a rank is the index of its symbol in
the pool, times the product of the pool sizes so far (R180). `none`: a rank that no symbol of the pool holds. -/
def permIdxFrom (row : Vector Sym 7) : List Sym → List Sym → Nat → Option Nat
  | [], _, _ => some 0
  | k :: ranks, pool, base =>
    match pool.findIdx? fun s => decide (row[s] = k) with
    | none => none
    | some d => (permIdxFrom row ranks (pool.eraseIdx d) (base * pool.length)).map (d * base + ·)

/-- PERMIDX, the permutation index of a row (R180). -/
def permIdx (row : Vector Sym 7) : Option Nat := permIdxFrom row (List.finRange 7) (List.finRange 7) 1

/-- The two bytes of the rank word of row POS (R181). -/
def rankBytes (s : State) : Except Fault (List Byte) :=
  if h : s.pos < 7 then
    match permIdx s.rk[s.pos] with
    | none => .error .rowNotPermutation
    | some code => .ok (encodeRankWord code)
  else .error (.noElement .rk)

/-- ERK: emit the rank word of row POS, high byte first (R181). -/
def execErk (s : State) : Result :=
  match rankBytes s with
  | .error f => .fault f
  | .ok bytes => emitThen bytes s (advance .erk)

/-- The byte of internal node 7 + POS (R183). -/
def nodeBytes (s : State) : Except Fault (List Byte) :=
  if h : s.pos < 6 then .ok [encodeNode s.tree[s.pos].left s.tree[s.pos].right]
  else .error (.noElement .tree)

/-- ETN: emit the byte of internal node 7 + POS (R183). -/
def execEtn (s : State) : Result :=
  match nodeBytes s with
  | .error f => .fault f
  | .ok bytes => emitThen bytes s (advance .etn)

/-- What PCW makes of the accumulator and a codeword: the bytes to emit, the new BACC and BCNT. -/
structure Packed where
  bytes : List Byte
  bacc : BitVec 7
  bcnt : BitVec 3
deriving DecidableEq, Repr

/-- The accumulator with a codeword behind it; with eight bits or more, the eight oldest go out (R186). -/
def packCodeword (bacc : BitVec 7) (bcnt : BitVec 3) (c : Codeword) : Packed :=
  let acc := bacc.toNat * 2 ^ c.len.toNat + c.bits.toNat
  let m := bcnt.toNat + c.len.toNat
  if 8 ≤ m then
    { bytes := [BitVec.ofNat 8 (acc / 2 ^ (m - 8))]
      bacc := BitVec.ofNat 7 (acc % 2 ^ (m - 8))
      bcnt := BitVec.ofNat 3 (m - 8) }
  else { bytes := [], bacc := BitVec.ofNat 7 acc, bcnt := BitVec.ofNat 3 m }

/-- The codeword of cell POS packed behind the accumulator, which is empty at POS 0 (R186,
70_reset_and_hazards.md R253). -/
def packCell (s : State) : Except Fault Packed :=
  match s.rs[s.pos]? with
  | none => .error (.noElement .rs)
  | some k =>
    if s.pos = 0 then .ok (packCodeword 0 0 s.cw[k]) else .ok (packCodeword s.bacc s.bcnt s.cw[k])

/-- PCW: put the codeword of cell POS (R186). -/
def execPcw (s : State) : Result :=
  match packCell s with
  | .error f => .fault f
  | .ok p => emitThen p.bytes s fun u => advance .pcw { u with bacc := p.bacc, bcnt := p.bcnt }

/-- The bytes that FLS emits: if the accumulator holds bits, one byte of those bits and zero bits behind
them, else none (R188). -/
def flushBytes (bacc : BitVec 7) (bcnt : BitVec 3) : List Byte :=
  if 0 < bcnt.toNat then [BitVec.ofNat 8 (bacc.toNat * 2 ^ (8 - bcnt.toNat) % 256)] else []

/-- FLS: flush the accumulator, count the record, be ready for the next frame (R188). -/
def execFls (s : State) : Result :=
  emitThen (flushBytes s.bacc s.bcnt) s fun u =>
    enter .lds { u with bacc := 0, bcnt := 0, frameIdx := u.frameIdx + 1 }

end Sys2Proof.Machine
end

