-- ==== Sys2Proof/Machine/Sequencer.lean ====
section
/-! DEFINITION. The faulted state FLT (spec/60_exceptions.md R226), which operation the sequencer performs next
(spec/44_sequencer_io.md R200), and the operations put where it looks for them. -/

namespace Sys2Proof.Machine

/-- FLT: no step is enabled; no register changes, no beat is taken, no byte is emitted (R226, R200). -/
def execFlt (s : State) : Result := .next s

/-- The operation the core performs: the one OP names, or none while FAULT is set (R200, R206). -/
def fetch (s : State) : Option Instr := if s.fault then none else some s.op

/-- The bytes that the operation at (OP, POS) appends to OUT when it is performed (R200, R213). -/
def offeredBytes (s : State) : List Byte :=
  match s.op with
  | .erk => (rankBytes s).toOption.getD []
  | .etn => (nodeBytes s).toOption.getD []
  | .pcw => ((packCell s).toOption.map (·.bytes)).getD []
  | .fls => flushBytes s.bacc s.bcnt
  | .lds => []
  | .qdf => []
  | .tcn => []
  | .rnk => []
  | .rmp => []
  | .hsd => []
  | .hmg => []
  | .flt => []

/-- A step is enabled: FAULT is 0, an LDS has a beat to take, and the sink accepts what is emitted (R200). -/
def enabled (s : State) : Bool :=
  !s.fault && decide (s.op ≠ .flt) && !(decide (s.op = .lds) && s.inq.isEmpty) &&
  sinkAccepts (offeredBytes s).length s

/-- The beat that LDS expects at cell `n`, with DATA 0 (30_encoding.md R90). -/
def expectedBeat (c : Config) (n : Nat) : Beat where
  data := 0
  eol := eolExpected c n
  eof := eofExpected c n

/-- `s` with OP naming `i`, and with what the sequencer needs in order to perform `i` next: FAULT clear, POS in
the operation's index range, a beat in IN for LDS, a seeded list for HMG, a sink that takes the bytes (log 17). -/
def placeOperation (i : Instr) (s : State) : State :=
  let s1 := { s with op := i, fault := false, pos := if s.pos ≤ i.lastIndex s.cfg then s.pos else 0 }
  match i with
  | .lds =>
    if s1.inq.isEmpty then { s1 with inq := [encodeBeat (expectedBeat s1.cfg s1.pos)] } else s1
  | .hmg => if s1.hlen.toNat < 2 then seedHuffman s1 else s1
  | .flt => s1
  | .qdf => s1
  | .tcn => s1
  | .rnk => s1
  | .rmp => s1
  | .hsd => s1
  | .erk => if sinkAccepts 2 s1 then s1 else { s1 with sinkRoom := none }
  | .etn => if sinkAccepts 1 s1 then s1 else { s1 with sinkRoom := none }
  | .pcw => if sinkAccepts 1 s1 then s1 else { s1 with sinkRoom := none }
  | .fls => if sinkAccepts 1 s1 then s1 else { s1 with sinkRoom := none }

end Sys2Proof.Machine
end

