-- ==== Sys2Proof/Machine/Transition.lean ====
section
/-! DEFINITION. The Transition Modeler (spec/41_transition_modeler.md): TCN (R141), RNK (R143), RMP (R146). -/

namespace Sys2Proof.Machine

/-- `T[prev][s] <- T[prev][s] + 1` (R141). -/
def bumpTransition (t : Vector (Vector Nat 7) 7) (prev s : Sym) : Vector (Vector Nat 7) 7 :=
  t.set prev (t[prev].set s (t[prev][s] + 1))

/-- The first lines of TCN: at POS 0, T and PREV are cleared (R141, 70_reset_and_hazards.md R253). -/
def startCount (s : State) : State :=
  if s.pos = 0 then { s with t := Vector.replicate 7 (Vector.replicate 7 0), prev := 0 } else s

/-- TCN: count the transition from PREV to the symbol of cell POS (R141). -/
def execTcn (s : State) : Result :=
  match s.q[s.pos]? with
  | none => .fault (.noElement .q)
  | some sym =>
    let s1 := startCount s
    .next (advance .tcn { s1 with t := bumpTransition s1.t s1.prev sym, prev := sym })

/-- Symbol `t` stands strictly ahead of symbol `s` in a row of counts: it has the larger count, or the same
count and RANK_TIE favours it (R144). -/
def ranksAhead (tie : RankTie) (cnt : Vector Nat 7) (s t : Sym) : Bool :=
  decide (cnt[s] < cnt[t]) ||
  (decide (cnt[t] = cnt[s]) &&
    match tie with
    | .highFirst => decide (s < t)
    | .lowFirst => decide (t < s))

/-- RANK: how many symbols stand ahead of `s` (R144). At most six do, so no bit is lost. -/
def rankOf (tie : RankTie) (cnt : Vector Nat 7) (s : Sym) : Sym :=
  Fin.ofNat 7 ((List.finRange 7).countP (ranksAhead tie cnt s))

/-- The rank row of a row of counts (R143). -/
def rankRow (tie : RankTie) (cnt : Vector Nat 7) : Vector Sym 7 := Vector.ofFn (rankOf tie cnt)

/-- RNK: row POS of RK from row POS of T (R143). -/
def execRnk (s : State) : Result :=
  if h : s.pos < 7 then
    .next (advance .rnk { s with rk := s.rk.set s.pos (rankRow s.cfg.rankTie s.t[s.pos]) })
  else .fault (.noElement .t)

/-- The first lines of RMP: at POS 0, HIST and PREV are cleared (R146, 70_reset_and_hazards.md R253). -/
def startRemap (s : State) : State :=
  if s.pos = 0 then { s with hist := Vector.replicate 7 0, prev := 0 } else s

/-- RMP: the rank of cell POS's symbol after PREV into RS and HIST; PREV becomes the symbol, not the rank
(R146). -/
def execRmp (s : State) : Result :=
  match s.q[s.pos]? with
  | none => .fault (.noElement .q)
  | some sym =>
    let s1 := startRemap s
    let k := s1.rk[s1.prev][sym]
    if s1.pos < s1.rs.length then
      .next (advance .rmp
        { s1 with rs := s1.rs.set s1.pos k, hist := s1.hist.set k (s1.hist[k] + 1), prev := sym })
    else .fault (.noElement .rs)

end Sys2Proof.Machine
end

