-- ==== Sys2Proof/Machine/Dispatch.lean ====
section
/-! DEFINITION. The meaning of every operation, by name (spec/30_encoding.md R110). -/

namespace Sys2Proof.Machine

def exec (i : Instr) (s : State) : Host.Outcome State Fault Refusal :=
  match i with
  | .lds => Sys2Proof.Machine.execLds s
  | .qdf => Sys2Proof.Machine.execQdf s
  | .tcn => Sys2Proof.Machine.execTcn s
  | .rnk => Sys2Proof.Machine.execRnk s
  | .rmp => Sys2Proof.Machine.execRmp s
  | .hsd => Sys2Proof.Machine.execHsd s
  | .hmg => Sys2Proof.Machine.execHmg s
  | .erk => Sys2Proof.Machine.execErk s
  | .etn => Sys2Proof.Machine.execEtn s
  | .pcw => Sys2Proof.Machine.execPcw s
  | .fls => Sys2Proof.Machine.execFls s
  | .flt => Sys2Proof.Machine.execFlt s

end Sys2Proof.Machine
end

