-- ==== Sys2Proof/Machine/Step.lean ====
section
/-! DEFINITION. One step of the core (spec/44_sequencer_io.md R200), and a word placed where the step takes its next
operation from. -/

namespace Sys2Proof.Machine

/-- The core performs the operation OP names; while FAULT is set it has no step and its state does not change
(R200). An operation that waits (for a beat, or for the sink) leaves the state unchanged by its meaning. -/
def step (s : State) : Host.Outcome State Fault Refusal :=
  match Sys2Proof.Machine.fetch s with
  | none => .next s
  | some i => exec i s

/-- `s` with the operation that the word `w` names in OP, ready to be performed; `s` itself where the decoder
refuses the word (log 17). -/
def State.withFetchWord (s : State) (nbits w : Nat) : State :=
  match Sys2Proof.decodeTableWord nbits w with
  | none => s
  | some i => Sys2Proof.Machine.placeOperation i s

end Sys2Proof.Machine
end

