-- ==== Sys2Proof/Machine/Flags.lean ====
section
/-! DEFINITION. Everything the host sees: BUSY and the status registers S0 to S4 (spec/10_state.md R29, R40 to
R44), the pins (spec/44_sequencer_io.md R210, spec/60_exceptions.md R231), the observation (spec/00_scope.md R11), and
the events of the source, the sink and the end of a run (spec/44_sequencer_io.md R212 to R216). The block has no
arithmetic flags (spec/10_state.md R28). -/

namespace Sys2Proof.Machine

/-- The code of a cause (60_exceptions.md R220). -/
def Cause.code : Cause → BitVec 3
  | .none => 0
  | .dimMismatch => 1
  | .accOverflow => 2

/-- BUSY: a frame is partly loaded or being processed (10_state.md R29). -/
def busy (s : State) : Bool := !s.fault && !(decide (s.op = .lds) && decide (s.pos = 0))

/-- S0 STATUS, `{0[20:0], CAUSE[2:0], 0[1:0], FAULT, BUSY, OP[3:0]}` (R41). -/
def statusS0 (s : State) : StatusWord :=
  0#21 ++ s.cause.code ++ 0#2 ++ BitVec.ofBool s.fault ++ BitVec.ofBool (busy s) ++ encode s.op

/-- S1 FRAME_IDX (R42). -/
def statusS1 (s : State) : StatusWord := s.frameIdx

/-- S2 CFG_W, the low 32 bits of W (R43). -/
def statusS2 (s : State) : StatusWord := BitVec.ofNat 32 s.cfg.w

/-- S3 CFG_H, the low 32 bits of H (R43). -/
def statusS3 (s : State) : StatusWord := BitVec.ofNat 32 s.cfg.h

/-- S4 FAULT_INFO (R44). -/
def statusS4 (s : State) : StatusWord := s.faultInfo

/-- A read of status register `n` by number; it has no side effect (R40). -/
def statusRead (s : State) (n : Fin 5) : StatusWord :=
  match n with
  | 0 => statusS0 s
  | 1 => statusS1 s
  | 2 => statusS2 s
  | 3 => statusS3 s
  | 4 => statusS4 s

/-- A write to a status register changes nothing (R40). -/
def statusWrite (s : State) (_n : Fin 5) (_v : StatusWord) : State := s

/-- The observation of a state: the bytes of OUT and the status registers (00_scope.md R11). -/
def observe (s : State) : List Byte × Vector StatusWord 5 := (s.out, Vector.ofFn (statusRead s))

/-- The pin `fault`, a level equal to FAULT (60_exceptions.md R231). -/
def pinFault (s : State) : Bool := s.fault

/-- The pin `in_ready` (44_sequencer_io.md R211). -/
def pinInReady (s : State) : Bool := decide (s.op = .lds) && !s.fault

/-- The pin `out_valid`: the core offers a byte (44_sequencer_io.md R210, R213). -/
def pinOutValid (s : State) : Bool := !s.fault && !(offeredBytes s).isEmpty

/-- The pin `out_data`: the byte offered, if one is (44_sequencer_io.md R210). -/
def pinOutData (s : State) : Option Byte := if s.fault then none else (offeredBytes s).head?

/-- The source's event: it appends beats to IN, at any time (44_sequencer_io.md R211, R212). -/
def offerBeats (beats : List BeatWord) (s : State) : State := { s with inq := s.inq ++ beats }

/-- The sink's event: from now on it takes `room` bytes, or any number (44_sequencer_io.md R214; log 9). -/
def sinkOffers (room : Option Nat) (s : State) : State := { s with sinkRoom := room }

/-- The idle state (44_sequencer_io.md R206). -/
def idle (s : State) : Bool := decide (s.op = .lds) && decide (s.pos = 0) && !s.fault

/-- How a run ends (44_sequencer_io.md R216). -/
inductive RunEnd where
  /-- Every supplied frame was encoded. -/
  | idle
  /-- The input ended in mid-frame. -/
  | starved
  /-- OP is FLT. -/
  | faulted
deriving DecidableEq, Repr

/-- The end a run has reached, if it has: no step is enabled, and not because the sink delays (R216). -/
def runEnd (s : State) : Option RunEnd :=
  if s.op = .flt then some .faulted
  else if s.op = .lds ∧ s.inq = [] ∧ s.fault = false then
    if s.pos = 0 then some .idle else some .starved
  else none

end Sys2Proof.Machine
end

