-- ==== Sys2Proof/Machine/Reference.lean ====
section
/-! DEFINITION. The functions that the spec gives as the effect of whole stages, in the document's own form (lists,
strings of bits, closed forms): DISPERSE (spec/40_disperser.md R131), MARKOV (spec/41_transition_modeler.md R149), HUFF
(spec/42_huffman_coder.md R172), SERIALIZE (spec/43_bitpacker_serializer.md R190), ENCODE (spec/44_sequencer_io.md
R204); and the inverse procedures of R182, R187 and spec/95_test_vectors.md section 6. The machine does not use them:
claims compare the two. -/

namespace Sys2Proof.Machine

/-- `beats(grid)` of a frame given in raster order (30_encoding.md R90, R112). -/
def beatsOf (c : Config) (frame : List Byte) : List BeatWord :=
  frame.mapIdx fun n v => encodeBeat { data := v, eol := eolExpected c n, eof := eofExpected c n }

/-- The grid after the last LDS of a frame (R123, R131). -/
def loadedGrid (c : Config) (frame : List Byte) : Grid :=
  match c.numerics with
  | .exact => .exact (frame.map (numExact c.ref).ofByte)
  | .fx fracK accBits => .fx (frame.map (numFx fracK accBits c.ref).ofByte)

/-- The levels of `k` cells from cell `n` on, or the first overflow and its cell (R131). -/
def quantizeFrom (c : Config) : Nat → Nat → Grid → Except (GridStop × Nat) (List Sym)
  | 0, _, _ => .ok []
  | k + 1, n, g =>
    match gridQuantize c n g with
    | .error e => .error (e, n)
    | .ok (level, g') => (quantizeFrom c k (n + 1) g').map (level :: ·)

/-- DISPERSE (R131). -/
def disperse (c : Config) (frame : List Byte) : Except (GridStop × Nat) (List Sym) :=
  quantizeFrom c c.npix 0 (loadedGrid c frame)

/-- The pairs (predecessor, symbol) of a raster scan; before the first cell stands symbol 0 (R142). -/
def transitions (q : List Sym) : List (Sym × Sym) := (0 :: q).zip q

/-- The Transition Matrix of a Quantized Frame (R142). -/
def transitionMatrix (q : List Sym) : Vector (Vector Nat 7) 7 :=
  Vector.ofFn fun i => Vector.ofFn fun j => (transitions q).count (i, j)

/-- The Rank Matrix of a Transition Matrix (R143, R149). -/
def rankMatrix (tie : RankTie) (t : Vector (Vector Nat 7) 7) : Vector (Vector Sym 7) 7 :=
  t.map (rankRow tie)

/-- The Rank-Symbol Frame of a Quantized Frame (R149). -/
def remap (rk : Vector (Vector Sym 7) 7) (q : List Sym) : List Sym :=
  (transitions q).map fun p => rk[p.1][p.2]

/-- The Histogram of a Rank-Symbol Frame (R149). -/
def histogramOf (rs : List Sym) : Vector Nat 7 := Vector.ofFn fun k => rs.count k

/-- A codeword as the document writes it, first character first (10_state.md R38). -/
def Codeword.toBits (c : Codeword) : List Bool :=
  (List.range c.len.toNat).map fun i => c.bits.getLsbD (c.len.toNat - 1 - i)

/-- An entry of the list of R172: count, members, node id. -/
structure RefEntry where
  count : Nat
  members : List Sym
  id : Nat
deriving DecidableEq, Repr

/-- The seeds, sorted by descending count, stable (R172). -/
def refSeeds (hist : Vector Nat 7) : List RefEntry :=
  ((List.finRange 7).insertionSort fun i j => hist[j] ≤ hist[i]).map fun i =>
    { count := hist[i], members := [i], id := i.val }

/-- Insert before the first entry whose count is at most the new one's, else at the end (R169, R172). -/
def refInsert (e : RefEntry) : List RefEntry → List RefEntry
  | [] => [e]
  | x :: rest => if x.count ≤ e.count then e :: x :: rest else x :: refInsert e rest

/-- Prepend a bit to the code strings of the members of an entry (R172). -/
def refPrepend (b : Bool) (members : List Sym) (code : Vector (List Bool) 7) : Vector (List Bool) 7 :=
  Vector.ofFn fun m : Fin 7 => if m ∈ members then b :: code[m] else code[m]

/-- The result of HUFF: a code string for each rank-symbol, and the (left, right) pairs in id order. -/
structure RefTree where
  code : Vector (List Bool) 7
  nodes : List (Nat × Nat)
deriving DecidableEq, Repr

/-- The loop of R172; the first argument bounds the number of merges. -/
def huffLoop : Nat → List RefEntry → Nat → RefTree → RefTree
  | 0, _, _, acc => acc
  | fuel + 1, list, id, acc =>
    match list.reverse with
    | left :: right :: rest =>
      let merged : RefEntry :=
        { count := left.count + right.count, members := left.members ++ right.members, id := id }
      huffLoop fuel (refInsert merged rest.reverse) (id + 1)
        { code := refPrepend true right.members (refPrepend false left.members acc.code)
          nodes := acc.nodes ++ [(left.id, right.id)] }
    | _ => acc

/-- HUFF (R172); seven seeds take six merges (R162). -/
def huff (hist : Vector Nat 7) : RefTree :=
  huffLoop 6 (refSeeds hist) 7 { code := Vector.replicate 7 [], nodes := [] }

/-- The place value of the digit of a rank: 1, 7, 42, 210, 840, 2520, 5040 (30_encoding.md R105). -/
def placeValue (k : Sym) : Nat := (#v[1, 7, 42, 210, 840, 2520, 5040] : Vector Nat 7)[k]

/-- The closed form of PERMIDX: the digit of the rank of `s` is how many smaller symbols have a larger rank
(R180). -/
def permIdxClosed (row : Vector Sym 7) : Nat :=
  ((List.finRange 7).map fun s =>
    ((List.finRange 7).countP fun t => decide (t < s) && decide (row[s] < row[t])) * placeValue row[s]).sum

/-- PERMROW from rank `k` on: the symbols of `ranks` are taken out of the pool one by one (R182). -/
def permRowFrom : List Sym → List Sym → Nat → Vector Sym 7 → Vector Sym 7
  | [], _, _, row => row
  | k :: ranks, pool, code, row =>
    match pool[code % pool.length]? with
    | none => row
    | some s => permRowFrom ranks (pool.eraseIdx (code % pool.length)) (code / pool.length) (row.set s k)

/-- PERMROW, the inverse of PERMIDX (R182). -/
def permRow (code : Nat) : Vector Sym 7 :=
  permRowFrom (List.finRange 7) (List.finRange 7) code (Vector.replicate 7 0)

/-- Eight bits as a byte, the first in bit 7 (20_memory.md R64). -/
def byteOfBits (bits : List Bool) : Byte :=
  BitVec.ofNat 8 (bits.foldl (fun acc b => 2 * acc + b.toNat) 0)

/-- The bits of a byte, bit 7 first (20_memory.md R64). -/
def bitsOfByte (b : Byte) : List Bool := (List.range 8).map fun i => b.getLsbD (7 - i)

/-- The bit string of a frame before padding (R185). -/
def frameBits (code : Vector (List Bool) 7) (rs : List Sym) : List Bool := rs.flatMap fun k => code[k]

/-- A bit string padded with '0' until its length is a multiple of 8 (R185). -/
def padBits (bits : List Bool) : List Bool := bits ++ List.replicate ((8 - bits.length % 8) % 8) false

/-- `bytes_msb_first` of a bit string whose length is a multiple of 8 (R185, R190). -/
def bytesMsbFirst (bits : List Bool) : List Byte :=
  (List.range (bits.length / 8)).map fun k => byteOfBits ((bits.drop (8 * k)).take 8)

/-- SERIALIZE (R190). -/
def serialize (rk : Vector (Vector Sym 7) 7) (tree : RefTree) (rs : List Sym) : List Byte :=
  (rk.toList.flatMap fun row => encodeRankWord (permIdxClosed row)) ++
  (tree.nodes.map fun n => BitVec.ofNat 8 (n.1 * 16 + n.2)) ++
  bytesMsbFirst (padBits (frameBits tree.code rs))

/-- The record of a Quantized Frame: `ENCODEQ` (30_encoding.md R113). -/
def encodeLevels (tie : RankTie) (q : List Sym) : List Byte :=
  let rk := rankMatrix tie (transitionMatrix q)
  let rs := remap rk q
  serialize rk (huff (histogramOf rs)) rs

/-- ENCODE (R204). -/
def encodeFrame (c : Config) (frame : List Byte) : Except (GridStop × Nat) (List Byte) :=
  (disperse c frame).map (encodeLevels c.rankTie)

/-- Reads `want` codewords by the walk of R187: down the tree from node 12, 0 to the left and 1 to the right,
until a leaf. -/
def walkBits (tree : Vector TreeNode 6) : Nat → List Bool → Nat → Except RecordError (List Sym × List Bool)
  | 0, bits, _ => .ok ([], bits)
  | _ + 1, [], _ => .error .truncated
  | want + 1, b :: bits, node =>
    let n := (tree.toList.getD (node - 7) { left := 0, right := 0 })
    let child := if b then n.right.toNat else n.left.toNat
    if h : child < 7 then
      match walkBits tree want bits 12 with
      | .error e => .error e
      | .ok (syms, rest) => .ok (⟨child, h⟩ :: syms, rest)
    else walkBits tree (want + 1) bits child
termination_by structural _ bits => bits

/-- Undoes the remap with a running previous symbol (41_transition_modeler.md R149). -/
def unremap (rk : Vector (Vector Sym 7) 7) : Sym → List Sym → List Sym
  | _, [] => []
  | prev, k :: rest =>
    let s := ((List.finRange 7).find? fun s => decide (rk[prev][s] = k)).getD 0
    s :: unremap rk s rest

/-- Reads the rank words of a record (95_test_vectors.md section 6). -/
def readRanks : Nat → List Byte → Except RecordError (List (Vector Sym 7) × List Byte)
  | 0, bytes => .ok ([], bytes)
  | n + 1, hi :: lo :: bytes =>
    match decodeRankWord hi lo with
    | .error e => .error e
    | .ok code =>
      match readRanks n bytes with
      | .error e => .error e
      | .ok (rows, rest) => .ok (permRow code :: rows, rest)
  | _ + 1, _ => .error .truncated

/-- Reads the tree bytes of nodes `k`, `k + 1`, … (95_test_vectors.md section 6). -/
def readNodes : Nat → Nat → List Byte → Except RecordError (List TreeNode × List Byte)
  | 0, _, bytes => .ok ([], bytes)
  | n + 1, k, b :: bytes =>
    match decodeNode k b with
    | .error e => .error e
    | .ok (left, right) =>
      match readNodes n (k + 1) bytes with
      | .error e => .error e
      | .ok (nodes, rest) => .ok ({ left := left, right := right } :: nodes, rest)
  | _ + 1, _, _ => .error .truncated

/-- Reads one record of `npix` cells and answers its Quantized Frame and the bytes behind it; it refuses the
values that the block never produces (30_encoding.md R104, R106, 95_test_vectors.md section 6). -/
def readRecord (npix : Nat) (bytes : List Byte) : Except RecordError (List Sym × List Byte) :=
  match readRanks 7 bytes with
  | .error e => .error e
  | .ok (rows, afterRanks) =>
    match readNodes 6 7 afterRanks with
    | .error e => .error e
    | .ok (nodes, packed) =>
      if ¬ (nodes.flatMap fun n => [n.left, n.right]).Nodup then .error .childTwice
      else
        let tree := Vector.ofFn fun k : Fin 6 => nodes.getD k { left := 0, right := 0 }
        match walkBits tree npix (packed.flatMap bitsOfByte) 12 with
        | .error e => .error e
        | .ok (rs, rest) =>
          if (rest.take (rest.length % 8)).any id then .error .nonzeroPadding
          else
            let rk := Vector.ofFn fun i : Fin 7 => rows.getD i (Vector.replicate 7 0)
            .ok (unremap rk 0 rs, packed.drop (packed.length - rest.length / 8))

end Sys2Proof.Machine
end

