-- ==== Sys2Proof/WellFormed.lean ====
section
/-! DEFINITION. Which parameter values an instance may have (spec/70_reset_and_hazards.md R254) and which
`OP@POS` pairs exist (spec/10_state.md R22, spec/30_encoding.md R110). -/

namespace Sys2Proof

/-- `REF[l] * UNIT`, the rational that REFQ[l] must be equal to (40_disperser.md R122). -/
def Config.scaledRef (c : Config) (fracK : Nat) (l : Sym) : Rat := c.ref[l] * (fxUnit fracK : Rat)

/-- The build constraints on the number system: under NUM_FX, `ACC_BITS >= FRAC_K + 13` and every
`REF[l] * UNIT` is an integer within the ACC_BITS-bit signed range (40_disperser.md R122). -/
def Config.numericsOk (c : Config) : Bool :=
  match c.numerics with
  | .exact => true
  | .fx fracK accBits =>
    decide (fracK + 13 ≤ accBits) &&
    (List.finRange 7).all fun l =>
      decide ((c.scaledRef fracK l).den = 1) &&
      decide (-(2 ^ (accBits - 1) : Int) ≤ (c.scaledRef fracK l).num) &&
      decide ((c.scaledRef fracK l).num < (2 ^ (accBits - 1) : Int))

/-- The parameter space of an instance (00_scope.md R5, 70_reset_and_hazards.md R254). -/
def Config.wf (c : Config) : Bool := decide (1 ≤ c.w) && decide (1 ≤ c.h) && c.numericsOk

/-- How often an operation runs in one frame (30_encoding.md R110); FLT is no operation and has no runs. -/
def Instr.runs (c : Config) : Instr → Nat
  | .lds => c.npix
  | .qdf => c.npix
  | .tcn => c.npix
  | .rnk => 7
  | .rmp => c.npix
  | .hsd => 1
  | .hmg => 6
  | .erk => 7
  | .etn => Config.nint
  | .pcw => c.npix
  | .fls => 1
  | .flt => 0

/-- `OP@POS` is an operation of the block: POS is in the operation's index range (10_state.md R22). In
FLT, POS is frozen at the faulting index, that of an LDS or a QDF (44_sequencer_io.md R201). -/
def Instr.wfAt (c : Config) (i : Instr) (pos : Nat) : Bool :=
  match i with
  | .flt => decide (pos < c.npix)
  | i => decide (pos < i.runs c)

end Sys2Proof
end

