-- ==== Sys2Proof/Safety.lean ====
section
/-! DEFINITION. The terms that claims use: where an error goes in the picture, what the accumulator holds, and the
invariants that a run keeps. -/

namespace Sys2Proof

/-- Operation `i` comes at or after operation `a` in the order of a frame (44_sequencer_io.md R201). -/
def Instr.atOrAfter (a i : Instr) : Bool :=
  decide ((encode a).toNat ≤ (encode i).toNat) && decide (i ≠ .flt)

end Sys2Proof

namespace Sys2Proof.Machine

/-- The weight in sixteenths with which the error of cell `n` reaches cell `k`, told by their rows and columns
(40_disperser.md R126, R128, 20_memory.md R61). -/
def weightTo (c : Config) (n k : Nat) : Nat :=
  if k / c.w = n / c.w ∧ k % c.w = n % c.w + 1 then 7
  else if k / c.w = n / c.w + 1 ∧ k % c.w = n % c.w then 5
  else if k / c.w = n / c.w + 1 ∧ k % c.w + 1 = n % c.w then 3
  else if k / c.w = n / c.w + 1 ∧ k % c.w = n % c.w + 1 then 1
  else 0

/-- A value of ACC_BITS signed bits (40_disperser.md R122). -/
abbrev FitsAcc (accBits : Nat) (x : Int) : Prop :=
  -(2 ^ (accBits - 1) : Int) ≤ x ∧ x < (2 ^ (accBits - 1) : Int)

/-- The flags of a beat word are those of cell `n`: EOL on the last cell of a row, EOF on the last cell of the
frame (30_encoding.md R90, 44_sequencer_io.md R202). -/
abbrev FlagsRight (c : Config) (n : Nat) (w : BeatWord) : Prop :=
  (w.getLsbD 8 = true ↔ n % c.w = c.w - 1) ∧ (w.getLsbD 9 = true ↔ n = c.npix - 1)

/-- A row holds every rank (10_state.md R33); over seven symbols it is then a permutation. -/
abbrev IsPermutation (row : Vector Sym 7) : Prop := ∀ k : Sym, ∃ s : Sym, row[s] = k

/-- The bits that the accumulator holds, the oldest first (10_state.md R26). -/
def accBits (bacc : BitVec 7) (bcnt : BitVec 3) : List Bool :=
  (List.range bcnt.toNat).map fun i => bacc.getLsbD (bcnt.toNat - 1 - i)

/-- The code strings of CW. -/
def codeOf (s : State) : Vector (List Bool) 7 := s.cw.map Codeword.toBits

/-- A tree node as the pair of its child ids. -/
def TreeNode.pair (n : TreeNode) : Nat × Nat := (n.left.toNat, n.right.toNat)

/-- Where (OP, POS) goes when the operation there is performed and raises nothing (44_sequencer_io.md R201). -/
def nextPoint (s : State) : Instr × Nat :=
  if s.pos + 1 < s.op.runs s.cfg then (s.op, s.pos + 1) else (s.op.successor, 0)

/-- What holds of every state of a run whatever the frames are: the parameters are in their space, the buffers
have their shape and the samples their range, (OP, POS) names an operation, the rows of RK are permutations,
HLEN and NNODE count the merges, and the fault registers agree with OP. -/
structure ShapeInv (s : State) : Prop where
  config : s.cfg.wf = true
  memory : Memory.wf s = true
  samples : s.g.inRange s.cfg = true
  point : s.op.wfAt s.cfg s.pos = true
  ranks : ∀ i : Sym, IsPermutation s.rk[i]
  merges : s.op = .hmg → s.hlen.toNat = 7 - s.pos ∧ s.nnode.toNat = 7 + s.pos
  faulted : s.fault = true ↔ s.op = .flt
  causes : s.cause = .none ↔ s.fault = false
  info : s.faultInfo = if s.fault then BitVec.ofNat 32 s.pos else 0

/-- The Transition Modeler's progress: each of T, RK, RS and HIST is, as far as its loop has come, what MARKOV
makes of Q (41_transition_modeler.md R142, R147, R149). -/
structure MarkovInv (s : State) : Prop where
  counting : s.op = .tcn → 0 < s.pos →
    s.t = transitionMatrix (s.q.take s.pos) ∧ s.prev = (s.q.take s.pos).getLastD 0
  counted : Instr.atOrAfter .rnk s.op = true → s.t = transitionMatrix s.q
  ranking : s.op = .rnk → ∀ i : Sym, i.val < s.pos → s.rk[i] = rankRow s.cfg.rankTie s.t[i]
  ranked : Instr.atOrAfter .rmp s.op = true → s.rk = rankMatrix s.cfg.rankTie s.t
  remapping : s.op = .rmp → 0 < s.pos →
    s.rs.take s.pos = remap s.rk (s.q.take s.pos) ∧ s.prev = (s.q.take s.pos).getLastD 0 ∧
      s.hist = histogramOf (s.rs.take s.pos)
  remapped : Instr.atOrAfter .hsd s.op = true → s.rs = remap s.rk s.q ∧ s.hist = histogramOf s.rs

/-- The valid part of HL as the list of R172. -/
def listed (s : State) : List RefEntry :=
  (s.hl.toList.take s.hlen.toNat).map fun e =>
    { count := e.cnt, members := (List.finRange 7).filter (fun m => e.mem.getLsbD m.val), id := e.nid.toNat }

/-- What holds between two merges (42_huffman_coder.md R163, R166, R169): the member sets partition 0..6, a
codeword is no longer than the merges done, the list is in descending order, and the rest of the loop of R172
leads to HUFF of HIST. -/
structure Merging (s : State) : Prop where
  partition : ∀ m : Sym, ∃ q : Sym, q.val < s.hlen.toNat ∧ s.hl[q].mem.getLsbD m.val = true ∧
    ∀ p : Sym, p.val < s.hlen.toNat → s.hl[p].mem.getLsbD m.val = true → p = q
  short : ∀ m : Sym, s.cw[m].len.toNat ≤ s.pos
  descending : ∀ p q : Sym, p < q → q.val < s.hlen.toNat → s.hl[q].cnt ≤ s.hl[p].cnt
  remaining : huffLoop (6 - s.pos) (listed s) (7 + s.pos)
      { code := codeOf s, nodes := (s.tree.toList.take s.pos).map TreeNode.pair } = huff s.hist

/-- The Huffman Coder's progress (42_huffman_coder.md R172): codewords are in their normal form, and after the
sixth merge CW and TREE are HUFF of HIST. -/
structure HuffmanInv (s : State) : Prop where
  normal : ∀ m : Sym, s.cw[m].len.toNat ≤ 6 ∧ s.cw[m].bits.toNat < 2 ^ s.cw[m].len.toNat
  merging : s.op = .hmg → Merging s
  built : Instr.atOrAfter .erk s.op = true →
    codeOf s = (huff s.hist).code ∧ s.tree.toList.map TreeNode.pair = (huff s.hist).nodes

/-- The rank words of the first `n` rows of RK. -/
def rankField (s : State) (n : Nat) : List Byte :=
  (s.rk.toList.take n).flatMap fun row => encodeRankWord (permIdxClosed row)

/-- The tree bytes of the first `n` internal nodes. -/
def treeField (s : State) (n : Nat) : List Byte :=
  (s.tree.toList.take n).map fun node => encodeNode node.left node.right

/-- The record's progress (30_encoding.md R100, 43_bitpacker_serializer.md R186): OUT ends in the fields that
are emitted so far, and the packed bytes with the bits of the accumulator behind them are the codewords of the
cells done. -/
structure RecordInv (s : State) : Prop where
  accumulator : s.bacc.toNat < 2 ^ s.bcnt.toNat
  ranks : s.op = .erk → ∃ earlier, s.out = earlier ++ rankField s s.pos
  tree : s.op = .etn → ∃ earlier, s.out = earlier ++ rankField s 7 ++ treeField s s.pos
  packing : s.op = .pcw → ∃ earlier packed, s.out = earlier ++ rankField s 7 ++ treeField s 6 ++ packed ∧
    packed.flatMap bitsOfByte ++ (if s.pos = 0 then [] else accBits s.bacc s.bcnt) =
      frameBits (codeOf s) (s.rs.take s.pos)
  packed : s.op = .fls → ∃ earlier packed, s.out = earlier ++ rankField s 7 ++ treeField s 6 ++ packed ∧
    packed.flatMap bitsOfByte ++ accBits s.bacc s.bcnt = frameBits (codeOf s) s.rs

end Sys2Proof.Machine
end

