-- ==== Sys2Proof/Certificates/Slice0/Obligations.lean ====
section
/-! DEFINITION. The statements for the provers. A statement's frame is an equation `t = { s with … }` whose right side
takes from `t` only the fields that may change: every other field of State is unchanged. -/

open Sys2Proof Sys2Proof.Machine

/-! ### Encodings -/

/-- 30_encoding.md R110, R111: words of the table decode to their operations, and the reserved codes are refused. -/
def Obligations.OperationCodesDecode : Prop :=
  decode 0b0000#4 = .ok .lds ∧ decode 0b0001#4 = .ok .qdf ∧ decode 0b0010#4 = .ok .tcn ∧
  decode 0b0011#4 = .ok .rnk ∧ decode 0b0100#4 = .ok .rmp ∧ decode 0b0101#4 = .ok .hsd ∧
  decode 0b0110#4 = .ok .hmg ∧ decode 0b0111#4 = .ok .erk ∧ decode 0b1000#4 = .ok .etn ∧
  decode 0b1001#4 = .ok .pcw ∧ decode 0b1010#4 = .ok .fls ∧ decode 0b1111#4 = .ok .flt ∧
  decode 0b1011#4 = .error (.reservedCode 0b1011#4) ∧ decode 0b1100#4 = .error (.reservedCode 0b1100#4) ∧
  decode 0b1101#4 = .error (.reservedCode 0b1101#4) ∧ decode 0b1110#4 = .error (.reservedCode 0b1110#4)

/-- 30_encoding.md R110: decoding and encoding an operation are inverse, in both directions. -/
def Obligations.OperationDecodeEncode : Prop :=
  (∀ i : Instr, decode (encode i) = .ok i) ∧
  (∀ (c : OpCode) (i : Instr), decode c = .ok i → encode i = c)

/-- 30_encoding.md R90, R91: the beat format loses no bit in either direction. -/
def Obligations.BeatDecodeEncode : Prop :=
  (∀ b : Beat, decodeBeat (encodeBeat b) = b) ∧ (∀ w : BeatWord, encodeBeat (decodeBeat w) = w)

/-- 43_bitpacker_serializer.md R182: PERMIDX and PERMROW are inverse, on all 5040 rows and all 5040 codes, and
PERMIDX is its closed form (R180). -/
def Obligations.PermutationIndexRoundTrip : Prop :=
  (∀ row : Vector Sym 7, IsPermutation row →
    permIdx row = some (permIdxClosed row) ∧ permIdxClosed row ≤ 5039 ∧ permRow (permIdxClosed row) = row) ∧
  (∀ code : Nat, code ≤ 5039 →
    IsPermutation (permRow code) ∧ permIdx (permRow code) = some code)

/-- 30_encoding.md R101, R102: a rank word and a tree byte are read back from their bytes. -/
def Obligations.RecordFieldsReadBack : Prop :=
  (∀ code : Nat, code ≤ 5039 → ∃ hi lo : Byte, encodeRankWord code = [hi, lo] ∧ hi.toNat ≤ 0x13 ∧
    decodeRankWord hi lo = .ok code) ∧
  (∀ (k : Nat) (left right : NodeId), left.toNat < k → right.toNat < k →
    decodeNode k (encodeNode left right) = .ok (left, right))

/-- 30_encoding.md R104: the reader gets from a record exactly the Quantized Frame it was made from, and finds the
byte behind it, whatever follows. The reader is the model's own: the block never decodes (log 14). -/
def Obligations.RecordReadsBack : Prop :=
  ∀ (tie : RankTie) (q : List Sym) (following : List Byte), 0 < q.length →
    readRecord q.length (encodeLevels tie q ++ following) = .ok (q, following)

/-! ### The step, reset, status -/

/-- 44_sequencer_io.md R200: a step performs the operation OP names, and none while FAULT is 1. The last clause is
about the model's own placing of an operation's word (log 17): the word placed is the one decoded and performed. -/
def Obligations.StepPerformsTheNamedOperation : Prop :=
  (∀ s : State, s.fault = false → step s = exec s.op s) ∧
  (∀ s : State, s.fault = true → step s = .next s) ∧
  (∀ (i : Instr) (s : State), (s.withFetchWord 8 (encode i).toNat).op = i ∧
    step (s.withFetchWord 8 (encode i).toNat) = exec i (s.withFetchWord 8 (encode i).toNat))

/-- 44_sequencer_io.md R200: a step that is not enabled leaves the state as it is. -/
def Obligations.NotEnabledStepChangesNothing : Prop :=
  ∀ s : State, enabled s = false → step s = .next s

/-- 44_sequencer_io.md R201: an enabled step is performed, and (OP, POS) moves by the table or, in an LDS or QDF,
goes to FLT with POS frozen. -/
def Obligations.EnabledStepFollowsTheTable : Prop :=
  ∀ s : State, ShapeInv s → enabled s = true →
    ∃ t, step s = .next t ∧
      ((t.fault = false ∧ (t.op, t.pos) = nextPoint s) ∨
       (t.fault = true ∧ t.op = .flt ∧ t.pos = s.pos ∧ (s.op = .lds ∨ s.op = .qdf)))

/-- 70_reset_and_hazards.md R250, R251: what the reset event leaves, from whatever state; IN and OUT stay. -/
def Obligations.ResetEventGivesTheResetState : Prop :=
  ∀ s : State,
    let t := assertReset s
    t.op = .lds ∧ t.pos = 0 ∧ t.prev = 0 ∧ t.hlen = 0 ∧ t.nnode = 0 ∧ t.bacc = 0 ∧ t.bcnt = 0 ∧
    t.frameIdx = 0 ∧ t.fault = false ∧ t.cause = .none ∧ t.faultInfo = 0 ∧ busy t = false ∧
    statusS0 t = 0 ∧ statusS1 t = 0 ∧ statusS2 t = BitVec.ofNat 32 s.cfg.w ∧
    statusS3 t = BitVec.ofNat 32 s.cfg.h ∧ statusS4 t = 0 ∧
    pinFault t = false ∧ pinInReady t = true ∧ pinOutValid t = false ∧
    t.inq = s.inq ∧ t.out = s.out ∧ t.cfg = s.cfg

/-- 10_state.md R29: BUSY, and where it is read. -/
def Obligations.BusyWhileAFrameIsInProgress : Prop :=
  ∀ s : State, (busy s = true ↔ s.fault = false ∧ (s.op, s.pos) ≠ (.lds, 0)) ∧
    (statusS0 s).getLsbD 4 = busy s

/-- 10_state.md R41: every field of S0, its reserved bits, and the legal values of OP and CAUSE. -/
def Obligations.StatusWordMirrorsTheState : Prop :=
  ∀ s : State,
    (statusS0 s).extractLsb' 0 4 = encode s.op ∧
    (statusS0 s).getLsbD 4 = busy s ∧
    (statusS0 s).getLsbD 5 = s.fault ∧
    (statusS0 s).extractLsb' 6 2 = 0 ∧
    (statusS0 s).extractLsb' 8 3 = s.cause.code ∧
    (statusS0 s).extractLsb' 11 21 = 0 ∧
    ((encode s.op).toNat ≤ 10 ∨ (encode s.op).toNat = 15) ∧
    s.cause.code.toNat ≤ 2

/-- 10_state.md R42 to R44: the other status registers mirror FRAME_IDX, W, H and FAULT_INFO, and a step leaves W
and H as they are. -/
def Obligations.OtherStatusRegistersMirrorTheState : Prop :=
  ∀ s : State, statusRead s 1 = s.frameIdx ∧ statusRead s 2 = BitVec.ofNat 32 s.cfg.w ∧
    statusRead s 3 = BitVec.ofNat 32 s.cfg.h ∧ statusRead s 4 = s.faultInfo ∧
    (∀ t, step s = .next t → statusRead t 2 = statusRead s 2 ∧ statusRead t 3 = statusRead s 3)

/-! ### LDS and QDF -/

/-- 44_sequencer_io.md R202: a beat with the flags expected at POS is stored rescaled, and the block is busy from
then on; a beat with another flag is consumed and raises DIM_MISMATCH; while IN is empty nothing happens. -/
def Obligations.LdsLoadsTheSampleOrFaults : Prop :=
  (∀ (s : State) (w : BeatWord) (rest : List BeatWord), s.inq = w :: rest → Memory.wf s = true →
    s.pos < s.cfg.npix →
    (FlagsRight s.cfg s.pos w → ∃ t, exec .lds s = .next t ∧ t.inq = rest ∧
      (match s.cfg.numerics, s.g, t.g with
        | .exact, .exact old, .exact new =>
          new = old.set s.pos (((w.extractLsb' 0 8).toNat : Rat) * 6 / 255)
        | .fx fracK _, .fx old, .fx new =>
          new = old.set s.pos (6 * ((w.extractLsb' 0 8).toNat : Int) * 2 ^ fracK)
        | _, _, _ => False) ∧
      (t.op, t.pos) = (if s.pos = s.cfg.npix - 1 then (.qdf, 0) else (s.op, s.pos + 1)) ∧
      (s.fault = false → busy t = true) ∧
      t = { s with inq := t.inq, g := t.g, op := t.op, pos := t.pos }) ∧
    (¬ FlagsRight s.cfg s.pos w →
      exec .lds s = .next { s with
        inq := rest, fault := true, cause := .dimMismatch, faultInfo := BitVec.ofNat 32 s.pos, op := .flt })) ∧
  (∀ s : State, s.inq = [] → exec .lds s = .next s)

/-- 44_sequencer_io.md R203: with IN empty in mid-frame the block waits, busy and without a fault. -/
def Obligations.LdsWaitsForABeat : Prop :=
  ∀ s : State, s.op = .lds → s.inq = [] → s.fault = false →
    (∀ k : Nat, Sys2Proof.core.run k s = .next s) ∧ pinInReady s = true ∧
    (s.cause = .none → 0 < s.pos → statusS0 s = 0x10#32)

/-- 40_disperser.md R125 to R128 under NUM_FX: the level of the cell, and the share of its error in every cell of
the grid by row and column; the error is that of the unclamped value. -/
def Obligations.QdfDiffusesErrorFixedPoint : Prop :=
  ∀ (s : State) (fracK accBits : Nat) (cells : List Int) (x e : Int) (level : Sym),
    1 ≤ s.cfg.w → s.cfg.numerics = .fx fracK accBits → s.g = .fx cells →
    cells.length = s.cfg.npix → s.q.length = s.cfg.npix → cells[s.pos]? = some x →
    (level.val : Int) = min (max x 0) (6 * fxUnit fracK) / fxUnit fracK →
    e = x - (s.cfg.ref[level] * (fxUnit fracK : Rat)).floor → FitsAcc accBits e →
    (∀ (k : Nat) (y : Int), cells[k]? = some y → weightTo s.cfg s.pos k ≠ 0 →
      FitsAcc accBits (y + (e * (weightTo s.cfg s.pos k : Int)) / 16)) →
    ∃ t, exec .qdf s = .next t ∧
      t.g = .fx (cells.mapIdx fun k y => y + (e * (weightTo s.cfg s.pos k : Int)) / 16) ∧
      t.q = s.q.set s.pos level ∧
      (t.op, t.pos) = (if s.pos = s.cfg.npix - 1 then (.tcn, 0) else (s.op, s.pos + 1)) ∧
      t = { s with g := t.g, q := t.q, op := t.op, pos := t.pos }

/-- 40_disperser.md R125 to R128 under NUM_EXACT: as under NUM_FX, in rationals, and nothing overflows. -/
def Obligations.QdfDiffusesErrorExact : Prop :=
  ∀ (s : State) (cells : List Rat) (x : Rat) (level : Sym),
    1 ≤ s.cfg.w → s.cfg.numerics = .exact → s.g = .exact cells →
    cells.length = s.cfg.npix → s.q.length = s.cfg.npix → cells[s.pos]? = some x →
    (level.val : Int) = truncRat (min (max x 0) 6) →
    ∃ t, exec .qdf s = .next t ∧
      t.g = .exact (cells.mapIdx fun k y =>
        y + (x - s.cfg.ref[level]) * (weightTo s.cfg s.pos k : Rat) / 16) ∧
      t.q = s.q.set s.pos level ∧
      (t.op, t.pos) = (if s.pos = s.cfg.npix - 1 then (.tcn, 0) else (s.op, s.pos + 1)) ∧
      t = { s with g := t.g, q := t.q, op := t.op, pos := t.pos }

/-- 40_disperser.md R130: under NUM_FX an error or a sum outside the range raises ACC_OVERFLOW and nothing is
written; under NUM_EXACT no QDF raises anything. -/
def Obligations.QdfOverflowFaults : Prop :=
  (∀ (s : State) (fracK accBits : Nat) (cells : List Int) (x e : Int) (level : Sym),
    1 ≤ s.cfg.w → s.cfg.numerics = .fx fracK accBits → s.g = .fx cells →
    cells.length = s.cfg.npix → cells[s.pos]? = some x →
    (level.val : Int) = min (max x 0) (6 * fxUnit fracK) / fxUnit fracK →
    e = x - (s.cfg.ref[level] * (fxUnit fracK : Rat)).floor →
    (¬ FitsAcc accBits e ∨ ∃ (k : Nat) (y : Int), cells[k]? = some y ∧ weightTo s.cfg s.pos k ≠ 0 ∧
      ¬ FitsAcc accBits (y + (e * (weightTo s.cfg s.pos k : Int)) / 16)) →
    exec .qdf s = .next { s with
      fault := true, cause := .accOverflow, faultInfo := BitVec.ofNat 32 s.pos, op := .flt }) ∧
  (∀ s t : State, s.cfg.numerics = .exact → exec .qdf s = .next t →
    t.fault = s.fault ∧ t.cause = s.cause ∧ t.faultInfo = s.faultInfo)

/-- 40_disperser.md R124: the level thresholds, that clamping and truncating commute, and the level of an
undiffused input. -/
def Obligations.LevelThresholds : Prop :=
  (∀ x : Rat, (levelExact x = 0 ↔ x < 1) ∧ (levelExact x = 6 ↔ 6 ≤ x) ∧
    (∀ l : Sym, 1 ≤ l.val → l.val ≤ 5 → (levelExact x = l ↔ (l.val : Rat) ≤ x ∧ x < (l.val : Rat) + 1)) ∧
    ((levelExact x).val : Int) = min (max (truncRat x) 0) 6) ∧
  (∀ (fracK : Nat) (x : Int), (levelFx fracK x = 0 ↔ x < fxUnit fracK) ∧
    (levelFx fracK x = 6 ↔ 6 * fxUnit fracK ≤ x) ∧
    (∀ l : Sym, 1 ≤ l.val → l.val ≤ 5 →
      (levelFx fracK x = l ↔ (l.val : Int) * fxUnit fracK ≤ x ∧ x < ((l.val : Int) + 1) * fxUnit fracK))) ∧
  (∀ v : Byte, (levelExact ((v.toNat : Rat) * 6 / 255)).val = 6 * v.toNat / 255 ∧
    ∀ fracK : Nat, (levelFx fracK (6 * (v.toNat : Int) * 2 ^ fracK)).val = 6 * v.toNat / 255)

/-- 40_disperser.md R126, R129: the diffusion targets are exactly the cells of the frame that a weight reaches,
all of them later in raster order. -/
def Obligations.DiffusionTargetsAreTheUnvisitedNeighbours : Prop :=
  ∀ (c : Config) (n k weight : Nat), 1 ≤ c.w → n < c.npix →
    ((k, weight) ∈ diffusionTargets c n ↔ k < c.npix ∧ weight = weightTo c n k ∧ weight ≠ 0) ∧
    ((k, weight) ∈ diffusionTargets c n → n < k)

/-- 40_disperser.md R128: what the four shares of one error sum to. -/
def Obligations.SharesOfOneError : Prop :=
  (∀ (ref : Vector Rat 7) (e : Rat), (numExact ref).share e 7 + (numExact ref).share e 5 +
    (numExact ref).share e 3 + (numExact ref).share e 1 = e) ∧
  (∀ e : Int, e - 3 ≤ shareFx e 7 + shareFx e 5 + shareFx e 3 + shareFx e 1 ∧
    shareFx e 7 + shareFx e 5 + shareFx e 3 + shareFx e 1 ≤ e)

/-! ### The Transition Modeler -/

/-- 41_transition_modeler.md R141: TCN. At POS 0 the counts and PREV before it are zero. -/
def Obligations.TcnCountsOneTransition : Prop :=
  ∀ (s : State) (x : Sym), s.q[s.pos]? = some x →
    ∃ t, exec .tcn s = .next t ∧ t.prev = x ∧
      (∀ i j : Sym, t.t[i][j] = (if s.pos = 0 then 0 else s.t[i][j]) +
        (if i = (if s.pos = 0 then 0 else s.prev) ∧ j = x then 1 else 0)) ∧
      (t.op, t.pos) = (if s.pos = s.cfg.npix - 1 then (.rnk, 0) else (s.op, s.pos + 1)) ∧
      t = { s with t := t.t, prev := t.prev, op := t.op, pos := t.pos }

/-- 41_transition_modeler.md R143, R144: RNK gives each symbol the number of symbols ahead of it. -/
def Obligations.RnkRanksOneRow : Prop :=
  ∀ (s : State) (h : s.pos < 7),
    ∃ t, exec .rnk s = .next t ∧
      (∀ x : Sym, (t.rk[s.pos][x]).val =
        (Finset.univ.filter fun y : Sym => s.t[s.pos][x] < s.t[s.pos][y]).card +
        (Finset.univ.filter fun y : Sym => s.t[s.pos][y] = s.t[s.pos][x] ∧
          (if s.cfg.rankTie = .highFirst then x < y else y < x)).card) ∧
      (∀ i : Sym, i.val ≠ s.pos → t.rk[i] = s.rk[i]) ∧
      (t.op, t.pos) = (if s.pos = 6 then (.rmp, 0) else (s.op, s.pos + 1)) ∧
      t = { s with rk := t.rk, op := t.op, pos := t.pos }

/-- 41_transition_modeler.md R145: every row of counts ranks to a permutation, under either tie rule, and so does
every row that RNK writes; rank 0 is a largest count, rank 6 a smallest; an all-zero row is as stated. -/
def Obligations.RankRowsArePermutations : Prop :=
  (∀ (tie : RankTie) (cnt : Vector Nat 7), IsPermutation (rankRow tie cnt) ∧
    (∀ x y : Sym, (rankRow tie cnt)[x] = 0 → cnt[y] ≤ cnt[x]) ∧
    (∀ x y : Sym, (rankRow tie cnt)[x] = 6 → cnt[x] ≤ cnt[y])) ∧
  (∀ (s t : State) (h : s.pos < 7), exec .rnk s = .next t → IsPermutation t.rk[s.pos]) ∧
  rankRow .highFirst (Vector.replicate 7 0) = #v[6, 5, 4, 3, 2, 1, 0] ∧
  rankRow .lowFirst (Vector.replicate 7 0) = #v[0, 1, 2, 3, 4, 5, 6]

/-- 41_transition_modeler.md R146: RMP. At POS 0 the counts and PREV before it are zero; PREV becomes the symbol,
not the rank. -/
def Obligations.RmpRemapsOneCell : Prop :=
  ∀ (s : State) (x k : Sym), s.q[s.pos]? = some x → s.pos < s.rs.length →
    k = s.rk[(if s.pos = 0 then 0 else s.prev : Sym)][x] →
    ∃ t, exec .rmp s = .next t ∧ t.prev = x ∧ t.rs = s.rs.set s.pos k ∧
      (∀ j : Sym, t.hist[j] = (if s.pos = 0 then 0 else s.hist[j]) + (if j = k then 1 else 0)) ∧
      (t.op, t.pos) = (if s.pos = s.cfg.npix - 1 then (.hsd, 0) else (s.op, s.pos + 1)) ∧
      t = { s with rs := t.rs, hist := t.hist, prev := t.prev, op := t.op, pos := t.pos }

/-- 41_transition_modeler.md R142, R147: the sums that hold once a frame is counted and remapped. -/
def Obligations.HistogramConservation : Prop :=
  ∀ s : State, ShapeInv s → MarkovInv s →
    (Instr.atOrAfter .rnk s.op = true →
      (∑ i : Sym, ∑ j : Sym, s.t[i][j]) = s.cfg.npix ∧ ∀ i j : Sym, s.t[i][j] ≤ s.cfg.npix) ∧
    (Instr.atOrAfter .hsd s.op = true →
      (∑ k : Sym, s.hist[k]) = s.cfg.npix ∧ (∀ k : Sym, s.hist[k] ≤ s.cfg.npix) ∧
      (∀ k : Sym, s.hist[k] = ∑ i : Sym, ∑ j : Sym, if s.rk[i][j] = k then s.t[i][j] else 0) ∧
      s.cfg.npix ≤ 7 * s.hist[(0 : Sym)])

/-! ### The Huffman Coder -/

/-- 42_huffman_coder.md R161: HSD puts every seed at its place, empties the codewords and sets HLEN and NNODE. -/
def Obligations.HsdSeedsTheList : Prop :=
  ∀ s : State, ∃ t, exec .hsd s = .next t ∧
    (∀ i : Sym, ∃ p : Sym,
      p.val = (Finset.univ.filter fun j : Sym => s.hist[i] < s.hist[j]).card +
        (Finset.univ.filter fun j : Sym => j < i ∧ s.hist[j] = s.hist[i]).card ∧
      t.hl[p] = { cnt := s.hist[i], mem := BitVec.ofNat 7 (2 ^ i.val), nid := BitVec.ofNat 4 i.val }) ∧
    (∀ m : Sym, t.cw[m] = { len := 0, bits := 0 }) ∧ t.hlen = 7 ∧ t.nnode = 7 ∧
    t.op = .hmg ∧ t.pos = 0 ∧
    t = { s with hl := t.hl, cw := t.cw, hlen := t.hlen, nnode := t.nnode, op := t.op, pos := t.pos }

/-- 42_huffman_coder.md R163 to R165, R169: HMG takes the last two entries of the list, the last one as the left
child; the merged entry stands before the first entry of the rest whose count is at most its own. -/
def Obligations.HmgMergesTheLastTwo : Prop :=
  ∀ (s : State) (rest : List HEntry) (left right : HEntry),
    s.hl.toList.take s.hlen.toNat = rest ++ [right, left] → 7 ≤ s.nnode.toNat → s.nnode.toNat ≤ 12 →
    ∃ (t : State) (before after : List HEntry), exec .hmg s = .next t ∧
      rest = before ++ after ∧
      (∀ e ∈ before, left.cnt + right.cnt < e.cnt) ∧
      (∀ e ∈ after.head?, e.cnt ≤ left.cnt + right.cnt) ∧
      t.hl.toList.take t.hlen.toNat = before ++
        { cnt := left.cnt + right.cnt, mem := left.mem ||| right.mem, nid := s.nnode } :: after ∧
      t.hlen.toNat + 1 = s.hlen.toNat ∧ t.nnode = s.nnode + 1 ∧
      (∀ k : Fin 6, t.tree[k] =
        if k.val + 7 = s.nnode.toNat then { left := left.nid, right := right.nid } else s.tree[k]) ∧
      (∀ m : Sym,
        (left.mem.getLsbD m.val = true → right.mem.getLsbD m.val = false →
          t.cw[m] = { len := s.cw[m].len + 1, bits := s.cw[m].bits }) ∧
        (left.mem.getLsbD m.val = false → right.mem.getLsbD m.val = true →
          t.cw[m] = { len := s.cw[m].len + 1,
                      bits := s.cw[m].bits + BitVec.ofNat 6 (2 ^ s.cw[m].len.toNat) }) ∧
        (left.mem.getLsbD m.val = false → right.mem.getLsbD m.val = false → t.cw[m] = s.cw[m])) ∧
      (t.op, t.pos) = (if s.pos = 5 then (.erk, 0) else (s.op, s.pos + 1)) ∧
      t = { s with hl := t.hl, tree := t.tree, cw := t.cw, hlen := t.hlen, nnode := t.nnode,
                   op := t.op, pos := t.pos }

/-- 42_huffman_coder.md R172: HSD and six HMGs leave in CW and TREE what HUFF makes of the Histogram. -/
def Obligations.HuffmanStageIsHuff : Prop :=
  ∀ s : State, s.op = .hsd → s.pos = 0 → s.fault = false →
    ∃ t : State, Sys2Proof.core.run 7 s = .next t ∧ t.op = .erk ∧ t.pos = 0 ∧
      codeOf t = (huff s.hist).code ∧ t.tree.toList.map TreeNode.pair = (huff s.hist).nodes ∧
      t = { s with hl := t.hl, tree := t.tree, cw := t.cw, hlen := t.hlen, nnode := t.nnode,
                   op := t.op, pos := t.pos }

/-- 42_huffman_coder.md R166: the tree that the stage leaves: children come before their node, every id of 0..11 is
a child exactly once, and the last entry of the list is the root with all members and the whole count. -/
def Obligations.HuffmanTreeLaws : Prop :=
  ∀ s t : State, s.op = .hsd → s.pos = 0 → s.fault = false → Sys2Proof.core.run 7 s = .next t →
    (∀ k : Fin 6, t.tree[k].left.toNat < k.val + 7 ∧ t.tree[k].right.toNat < k.val + 7) ∧
    (∀ c : NodeId, c.toNat ≤ 11 →
      (t.tree.toList.flatMap fun n => [n.left, n.right]).count c = 1) ∧
    t.hlen = 1 ∧ t.hl[(0 : Sym)].nid = 12 ∧ t.hl[(0 : Sym)].mem = 0b1111111#7 ∧
    t.hl[(0 : Sym)].cnt = ∑ k : Sym, s.hist[k]

/-- 42_huffman_coder.md R168: the codewords that the stage leaves have 1 to 6 bits, are prefix-free, fill the Kraft
sum over all seven symbols (and not over those that occur, where some count is zero), cost what R168 (e)
says, and reach length 6 for the Histogram of R168 (d). -/
def Obligations.CodewordLaws : Prop :=
  ∀ s t : State, s.op = .hsd → s.pos = 0 → s.fault = false → Sys2Proof.core.run 7 s = .next t →
    (∀ m : Sym, 1 ≤ t.cw[m].len.toNat ∧ t.cw[m].len.toNat ≤ 6) ∧
    (∀ m k : Sym, m ≠ k → ¬ (t.cw[m].toBits <+: t.cw[k].toBits)) ∧
    (∑ m : Sym, (1 / 2 ^ t.cw[m].len.toNat : Rat)) = 1 ∧
    ((∃ m : Sym, s.hist[m] = 0) →
      (∑ m ∈ Finset.univ.filter fun m : Sym => s.hist[m] ≠ 0, (1 / 2 ^ t.cw[m].len.toNat : Rat)) < 1) ∧
    (s.hist = histogramOf s.rs →
      (frameBits (codeOf t) s.rs).length = ∑ m : Sym, s.hist[m] * t.cw[m].len.toNat ∧
      s.rs.length ≤ (frameBits (codeOf t) s.rs).length ∧
      (frameBits (codeOf t) s.rs).length ≤ 6 * s.rs.length) ∧
    (s.hist = #v[5, 3, 2, 1, 1, 0, 0] → ∃ m : Sym, t.cw[m].len = 6)

/-- 42_huffman_coder.md R170, 95_test_vectors.md H-d: the tree and all seven codewords of the degenerate histograms,
for any count: one nonzero count at each position, and seven equal counts. A name `w…` spells its bits. -/
def Obligations.DegenerateHistograms : Prop :=
  let w1 : List Bool := [true]
  let w001 : List Bool := [false, false, true]
  let w000 : List Bool := [false, false, false]
  let w0111 : List Bool := [false, true, true, true]
  let w0110 : List Bool := [false, true, true, false]
  let w0101 : List Bool := [false, true, false, true]
  let w0100 : List Bool := [false, true, false, false]
  (∀ c : Nat, 1 ≤ c →
    huff #v[c, 0, 0, 0, 0, 0, 0] =
      ⟨#v[w1, w001, w000, w0111, w0110, w0101, w0100], [(6, 5), (4, 3), (2, 1), (7, 8), (9, 10), (11, 0)]⟩ ∧
    huff #v[0, c, 0, 0, 0, 0, 0] =
      ⟨#v[w001, w1, w000, w0111, w0110, w0101, w0100], [(6, 5), (4, 3), (2, 0), (7, 8), (9, 10), (11, 1)]⟩ ∧
    huff #v[0, 0, c, 0, 0, 0, 0] =
      ⟨#v[w001, w000, w1, w0111, w0110, w0101, w0100], [(6, 5), (4, 3), (1, 0), (7, 8), (9, 10), (11, 2)]⟩ ∧
    huff #v[0, 0, 0, c, 0, 0, 0] =
      ⟨#v[w001, w000, w0111, w1, w0110, w0101, w0100], [(6, 5), (4, 2), (1, 0), (7, 8), (9, 10), (11, 3)]⟩ ∧
    huff #v[0, 0, 0, 0, c, 0, 0] =
      ⟨#v[w001, w000, w0111, w0110, w1, w0101, w0100], [(6, 5), (3, 2), (1, 0), (7, 8), (9, 10), (11, 4)]⟩ ∧
    huff #v[0, 0, 0, 0, 0, c, 0] =
      ⟨#v[w001, w000, w0111, w0110, w0101, w1, w0100], [(6, 4), (3, 2), (1, 0), (7, 8), (9, 10), (11, 5)]⟩ ∧
    huff #v[0, 0, 0, 0, 0, 0, c] =
      ⟨#v[w001, w000, w0111, w0110, w0101, w0100, w1], [(5, 4), (3, 2), (1, 0), (7, 8), (9, 10), (11, 6)]⟩) ∧
  (∀ c : Nat, huff (Vector.replicate 7 c) =
    ⟨#v[[false, false], [true, true, true], [true, true, false],
        [true, false, true], [true, false, false], [false, true, true], [false, true, false]],
      [(6, 5), (4, 3), (2, 1), (0, 7), (8, 9), (10, 11)]⟩)

/-! ### The Bit Packer and Frame Serializer -/

/-- 43_bitpacker_serializer.md R181, 20_memory.md R63: ERK emits the index of a permutation row, high byte
first. That the sink's room is a number that emitting lowers is the model's choice (log 9). -/
def Obligations.ErkEmitsTheRankWord : Prop :=
  ∀ (s : State) (h : s.pos < 7), IsPermutation s.rk[s.pos] → sinkAccepts 2 s = true →
    permIdxClosed s.rk[s.pos] ≤ 5039 ∧
    ∃ t, exec .erk s = .next t ∧
      t.out = s.out ++ [BitVec.ofNat 8 (permIdxClosed s.rk[s.pos] / 256),
                        BitVec.ofNat 8 (permIdxClosed s.rk[s.pos] % 256)] ∧
      t.sinkRoom = s.sinkRoom.map (· - 2) ∧
      (t.op, t.pos) = (if s.pos = 6 then (.etn, 0) else (s.op, s.pos + 1)) ∧
      t = { s with out := t.out, sinkRoom := t.sinkRoom, op := t.op, pos := t.pos }

/-- 43_bitpacker_serializer.md R183, 20_memory.md R65: ETN emits `left * 16 + right`. That the sink's
room is a number that emitting lowers is the model's choice (log 9). -/
def Obligations.EtnEmitsTheTreeByte : Prop :=
  ∀ (s : State) (h : s.pos < 6), sinkAccepts 1 s = true →
    ∃ (t : State) (b : Byte), exec .etn s = .next t ∧
      b.toNat = s.tree[s.pos].left.toNat * 16 + s.tree[s.pos].right.toNat ∧
      t.out = s.out ++ [b] ∧ t.sinkRoom = s.sinkRoom.map (· - 1) ∧
      (t.op, t.pos) = (if s.pos = 5 then (.pcw, 0) else (s.op, s.pos + 1)) ∧
      t = { s with out := t.out, sinkRoom := t.sinkRoom, op := t.op, pos := t.pos }

/-- 43_bitpacker_serializer.md R186: PCW, in numbers. The accumulator before it is empty at POS 0. That the sink's
room is a number that emitting lowers is the model's choice (log 9). -/
def Obligations.PcwPutsOneCodeword : Prop :=
  ∀ (s : State) (k : Sym) (bacc bcnt len bits : Nat), s.rs[s.pos]? = some k →
    bacc = (if s.pos = 0 then 0 else s.bacc.toNat) → bcnt = (if s.pos = 0 then 0 else s.bcnt.toNat) →
    len = s.cw[k].len.toNat → bits = s.cw[k].bits.toNat →
    bacc < 2 ^ bcnt → len ≤ 6 → bits < 2 ^ len → (8 ≤ bcnt + len → sinkAccepts 1 s = true) →
    ∃ t, exec .pcw s = .next t ∧
      (8 ≤ bcnt + len →
        t.out = s.out ++ [BitVec.ofNat 8 ((bacc * 2 ^ len + bits) / 2 ^ (bcnt + len - 8))] ∧
        (bacc * 2 ^ len + bits) / 2 ^ (bcnt + len - 8) < 256 ∧
        t.bacc.toNat = (bacc * 2 ^ len + bits) % 2 ^ (bcnt + len - 8) ∧
        t.bcnt.toNat = bcnt + len - 8 ∧ t.sinkRoom = s.sinkRoom.map (· - 1)) ∧
      (bcnt + len < 8 →
        t.out = s.out ∧ t.bacc.toNat = bacc * 2 ^ len + bits ∧ t.bcnt.toNat = bcnt + len ∧
        t.sinkRoom = s.sinkRoom) ∧
      (t.op, t.pos) = (if s.pos = s.cfg.npix - 1 then (.fls, 0) else (s.op, s.pos + 1)) ∧
      t = { s with out := t.out, sinkRoom := t.sinkRoom, bacc := t.bacc, bcnt := t.bcnt,
                   op := t.op, pos := t.pos }

/-- 43_bitpacker_serializer.md R185: PCW as bit strings: what was held and the codeword behind it are what goes
out and what is held, no bit lost, moved or invented. -/
def Obligations.PcwKeepsTheBitString : Prop :=
  ∀ (s : State) (k : Sym), s.rs[s.pos]? = some k → 0 < s.pos → s.bacc.toNat < 2 ^ s.bcnt.toNat →
    s.cw[k].len.toNat ≤ 6 → s.cw[k].bits.toNat < 2 ^ s.cw[k].len.toNat →
    (8 ≤ s.bcnt.toNat + s.cw[k].len.toNat → sinkAccepts 1 s = true) →
    ∃ (t : State) (packed : List Byte), exec .pcw s = .next t ∧ t.out = s.out ++ packed ∧ packed.length ≤ 1 ∧
      packed.flatMap bitsOfByte ++ accBits t.bacc t.bcnt = accBits s.bacc s.bcnt ++ s.cw[k].toBits ∧
      t.bacc.toNat < 2 ^ t.bcnt.toNat

/-- 43_bitpacker_serializer.md R188: FLS emits the bits left, padded with zeros to a byte, empties the accumulator,
counts the record and returns to idle. That the sink's room is a number that emitting lowers is the model's choice
(log 9). -/
def Obligations.FlsEndsTheFrame : Prop :=
  ∀ s : State, s.bacc.toNat < 2 ^ s.bcnt.toNat → (0 < s.bcnt.toNat → sinkAccepts 1 s = true) →
    ∃ (t : State) (last : List Byte), exec .fls s = .next t ∧ t.out = s.out ++ last ∧
      (s.bcnt = 0 → last = []) ∧
      (0 < s.bcnt.toNat → last = [BitVec.ofNat 8 (s.bacc.toNat * 2 ^ (8 - s.bcnt.toNat) % 256)]) ∧
      last.flatMap bitsOfByte = padBits (accBits s.bacc s.bcnt) ∧
      t.sinkRoom = s.sinkRoom.map (· - last.length) ∧
      t.bacc = 0 ∧ t.bcnt = 0 ∧ t.frameIdx.toNat = (s.frameIdx.toNat + 1) % 2 ^ 32 ∧
      t.op = .lds ∧ t.pos = 0 ∧ busy t = false ∧
      t = { s with out := t.out, sinkRoom := t.sinkRoom, bacc := t.bacc, bcnt := t.bcnt,
                   frameIdx := t.frameIdx, op := t.op, pos := t.pos }

/-! ### Faults -/

/-- 60_exceptions.md R226: FLT completes as a state that nothing leaves but reset: no step is enabled, no beat is
taken, no byte emitted, no register changed. -/
def Obligations.FltIsLeftOnlyByReset : Prop :=
  ∀ s : State, s.op = .flt →
    exec .flt s = .next s ∧ enabled s = false ∧ pinInReady s = false ∧
    (∀ k : Nat, Sys2Proof.core.run k s = .next s) ∧ enabled (assertReset s) = !s.inq.isEmpty

/-- 60_exceptions.md R225, R229: whenever a step raises a fault, the fault registers and OP are all it writes,
FAULT_INFO is POS, and but for the beat an LDS took nothing else changes. -/
def Obligations.FaultEntryIsPrecise : Prop :=
  ∀ s t : State, s.fault = false → step s = .next t → t.fault = true →
    (t.cause = .dimMismatch ∧ s.op = .lds ∧ (∃ w, s.inq = w :: t.inq ∧ ¬ FlagsRight s.cfg s.pos w) ∨
     t.cause = .accOverflow ∧ s.op = .qdf ∧ t.inq = s.inq) ∧
    t = { s with fault := true, cause := t.cause, faultInfo := BitVec.ofNat 32 s.pos, op := .flt, inq := t.inq }

/-- 44_sequencer_io.md R203: a frame whose flags first go wrong at beat `n` faults there, with `n` as its context,
the beat consumed, and nothing of it in OUT. -/
def Obligations.MalformedFrameFaultsAtTheBeat : Prop :=
  ∀ (s : State) (good : List BeatWord) (w : BeatWord) (rest : List BeatWord),
    ShapeInv s → idle s = true → s.inq = good ++ w :: rest → good.length < s.cfg.npix →
    (∀ (k : Nat) (h : k < good.length), FlagsRight s.cfg k good[k]) →
    ¬ FlagsRight s.cfg good.length w →
    ∃ t : State, Sys2Proof.core.run (good.length + 1) s = .next t ∧ t.fault = true ∧ t.op = .flt ∧
      t.cause = .dimMismatch ∧ t.faultInfo = BitVec.ofNat 32 good.length ∧ t.pos = good.length ∧
      t.frameIdx = s.frameIdx ∧ t.inq = rest ∧ t.out = s.out

/-- 60_exceptions.md R222: a frame that DISPERSE says overflows at cell `n` faults there, and nothing of it is in
OUT. -/
def Obligations.OverflowingFrameFaultsAtTheCell : Prop :=
  ∀ (s : State) (frame : List Byte) (rest : List BeatWord) (n : Nat),
    ShapeInv s → idle s = true → frame.length = s.cfg.npix → s.inq = beatsOf s.cfg frame ++ rest →
    disperse s.cfg frame = .error (.overflow, n) →
    ∃ t : State, Sys2Proof.core.run (s.cfg.npix + n + 1) s = .next t ∧ t.fault = true ∧ t.op = .flt ∧
      t.cause = .accOverflow ∧ t.faultInfo = BitVec.ofNat 32 n ∧ t.pos = n ∧
      t.frameIdx = s.frameIdx ∧ t.inq = rest ∧ t.out = s.out

/-! ### The streams -/

/-- 20_memory.md R69, R74, 70_reset_and_hazards.md R255: OUT is only appended to, by the four emitting operations
and at most two bytes at a time; IN only loses its oldest beat, to an LDS; FRAME_IDX moves only by FLS, by one;
no step changes a parameter. -/
def Obligations.StreamsAndParameters : Prop :=
  ∀ s t : State, step s = .next t →
    (∃ bytes : List Byte, t.out = s.out ++ bytes ∧ bytes.length ≤ 2 ∧
      (bytes ≠ [] → s.op = .erk ∨ s.op = .etn ∨ s.op = .pcw ∨ s.op = .fls)) ∧
    (t.inq = s.inq ∨ s.op = .lds ∧ ∃ w, s.inq = w :: t.inq) ∧
    (t.frameIdx = s.frameIdx ∨ s.op = .fls ∧ t.frameIdx = s.frameIdx + 1) ∧
    t.cfg = s.cfg

/-- 44_sequencer_io.md R211: beats that the source offers while the core has a step to take are held in order and
change nothing else about the step. That offering is an event outside the step is the model's choice (log 10). -/
def Obligations.OfferedBeatsAreHeld : Prop :=
  ∀ (s t : State) (beats : List BeatWord), (s.op ≠ .lds ∨ s.inq ≠ [] ∨ s.fault = true) → step s = .next t →
    step (offerBeats beats s) = .next (offerBeats beats t)

/-- 44_sequencer_io.md R213: an operation that emits waits, with the whole state unchanged, while the sink does not
take every byte of it, and performs the same once it does. That the sink's readiness is a number of bytes is the
model's choice (log 9). -/
def Obligations.BackPressureOnlyDelays : Prop :=
  ∀ s t : State, s.sinkRoom = none → step s = .next t →
    ∀ room : Nat,
      (room < (offeredBytes s).length → s.fault = false →
        step (sinkOffers (some room) s) = .next (sinkOffers (some room) s)) ∧
      ((offeredBytes s).length ≤ room →
        ∃ u, step (sinkOffers (some room) s) = .next u ∧ sinkOffers none u = t)

/-! ### Invariants and the whole frame -/

/-- The state after reset of any instance satisfies every invariant; the values its buffers hold are the model's
choice (log 3). -/
def Obligations.ResetMeetsTheInvariants : Prop :=
  (∀ c : Config, c.wf = true → ShapeInv (State.resetWith c) ∧ MarkovInv (State.resetWith c) ∧
    HuffmanInv (State.resetWith c) ∧ RecordInv (State.resetWith c)) ∧
  ShapeInv State.reset

/-- 10_state.md R46, 60_exceptions.md R220: from every state of the right shape a step answers a next state, never
one of the model's own stops, and it is of the right shape again. So is the state after the reset event; the
clauses on RK's rows and on G's samples rest there on the values the model chose for the buffers (log 3). -/
def Obligations.StepKeepsTheShape : Prop :=
  ∀ s : State, ShapeInv s →
    (∃ t, step s = .next t ∧ ShapeInv t) ∧ ShapeInv (assertReset s)

/-- 41_transition_modeler.md R142, R149: every step keeps T, RK, RS and HIST at what MARKOV makes of Q. -/
def Obligations.StepKeepsMarkov : Prop :=
  ∀ s t : State, ShapeInv s → MarkovInv s → step s = .next t → MarkovInv t

/-- 42_huffman_coder.md R166, R169, R172: every step keeps the forest a partition in descending order on the way to
HUFF of HIST. -/
def Obligations.StepKeepsHuffman : Prop :=
  ∀ s t : State, ShapeInv s → HuffmanInv s → step s = .next t → HuffmanInv t

/-- 10_state.md R26, 43_bitpacker_serializer.md R186, R190: every step keeps OUT and the accumulator together at the
part of the record that is due. -/
def Obligations.StepKeepsTheRecord : Prop :=
  ∀ s t : State, ShapeInv s → HuffmanInv s → RecordInv s → step s = .next t → RecordInv t

/-- 44_sequencer_io.md R204, 70_reset_and_hazards.md R263: from idle, a well-formed frame that does not overflow is
encoded in `5 * NPIX + 28` steps: its record, which depends on the samples and the parameters alone, is appended
to OUT, its beats are consumed, and the block is idle again. -/
def Obligations.FrameEncodesToItsRecord : Prop :=
  ∀ (s : State) (frame : List Byte) (rest : List BeatWord) (record : List Byte),
    ShapeInv s → idle s = true → s.sinkRoom = none → frame.length = s.cfg.npix →
    s.inq = beatsOf s.cfg frame ++ rest → encodeFrame s.cfg frame = .ok record →
    ∃ t : State, Sys2Proof.core.run (5 * s.cfg.npix + 28) s = .next t ∧ ShapeInv t ∧ idle t = true ∧
      t.out = s.out ++ record ∧ t.inq = rest ∧ t.frameIdx = s.frameIdx + 1 ∧ t.sinkRoom = none ∧
      t.cfg = s.cfg

/-- 44_sequencer_io.md R205: OUT after several frames is the concatenation of their records in input order. -/
def Obligations.RunConcatenatesRecords : Prop :=
  ∀ (s : State) (frames records : List (List Byte)) (rest : List BeatWord),
    ShapeInv s → idle s = true → s.sinkRoom = none → (∀ f ∈ frames, f.length = s.cfg.npix) →
    s.inq = frames.flatMap (beatsOf s.cfg) ++ rest →
    frames.map (encodeFrame s.cfg) = records.map Except.ok →
    ∃ t : State, Sys2Proof.core.run (frames.length * (5 * s.cfg.npix + 28)) s = .next t ∧ idle t = true ∧
      t.out = s.out ++ records.flatten ∧ t.inq = rest ∧
      t.frameIdx = s.frameIdx + BitVec.ofNat 32 frames.length

/-- 10_state.md R47: what earlier frames left behind does not show: two idle states with the same parameters and
the same beats waiting go through the same operations and emit the same bytes, whatever their buffers,
accumulators and records so far. -/
def Obligations.FramesAreIndependent : Prop :=
  ∀ (s u t v : State) (k : Nat), ShapeInv s → ShapeInv u → idle s = true → idle u = true →
    s.cfg = u.cfg → s.inq = u.inq → s.sinkRoom = none → u.sinkRoom = none →
    Sys2Proof.core.run k s = .next t → Sys2Proof.core.run k u = .next v →
    t.op = v.op ∧ t.pos = v.pos ∧ t.fault = v.fault ∧ t.cause = v.cause ∧ t.faultInfo = v.faultInfo ∧
    t.inq = v.inq ∧ t.frameIdx - s.frameIdx = v.frameIdx - u.frameIdx ∧
    ∃ bytes : List Byte, t.out = s.out ++ bytes ∧ v.out = u.out ++ bytes
end

