-- ==== Sys2Proof/Laws/State.lean ====
section
/-! SUPPORT. What each shared update of State leaves in each field, so that no later proof unfolds the update. -/

namespace Sys2Proof.Machine

/-! ### raiseFault -/

@[simp] theorem raiseFault_cfg (cause : Cause) (info : Nat) (s : State) : (raiseFault cause info s).cfg = s.cfg := rfl

@[simp] theorem raiseFault_op (cause : Cause) (info : Nat) (s : State) : (raiseFault cause info s).op = .flt := rfl

@[simp] theorem raiseFault_pos (cause : Cause) (info : Nat) (s : State) : (raiseFault cause info s).pos = s.pos := rfl

@[simp] theorem raiseFault_prev (cause : Cause) (info : Nat) (s : State) : (raiseFault cause info s).prev = s.prev := rfl

@[simp] theorem raiseFault_hlen (cause : Cause) (info : Nat) (s : State) : (raiseFault cause info s).hlen = s.hlen := rfl

@[simp] theorem raiseFault_nnode (cause : Cause) (info : Nat) (s : State) : (raiseFault cause info s).nnode = s.nnode := rfl

@[simp] theorem raiseFault_bacc (cause : Cause) (info : Nat) (s : State) : (raiseFault cause info s).bacc = s.bacc := rfl

@[simp] theorem raiseFault_bcnt (cause : Cause) (info : Nat) (s : State) : (raiseFault cause info s).bcnt = s.bcnt := rfl

@[simp] theorem raiseFault_frameIdx (cause : Cause) (info : Nat) (s : State) : (raiseFault cause info s).frameIdx = s.frameIdx := rfl

@[simp] theorem raiseFault_fault (cause : Cause) (info : Nat) (s : State) : (raiseFault cause info s).fault = true := rfl

@[simp] theorem raiseFault_cause (cause : Cause) (info : Nat) (s : State) : (raiseFault cause info s).cause = cause := rfl

@[simp] theorem raiseFault_faultInfo (cause : Cause) (info : Nat) (s : State) : (raiseFault cause info s).faultInfo = BitVec.ofNat 32 info := rfl

@[simp] theorem raiseFault_g (cause : Cause) (info : Nat) (s : State) : (raiseFault cause info s).g = s.g := rfl

@[simp] theorem raiseFault_q (cause : Cause) (info : Nat) (s : State) : (raiseFault cause info s).q = s.q := rfl

@[simp] theorem raiseFault_t (cause : Cause) (info : Nat) (s : State) : (raiseFault cause info s).t = s.t := rfl

@[simp] theorem raiseFault_rk (cause : Cause) (info : Nat) (s : State) : (raiseFault cause info s).rk = s.rk := rfl

@[simp] theorem raiseFault_rs (cause : Cause) (info : Nat) (s : State) : (raiseFault cause info s).rs = s.rs := rfl

@[simp] theorem raiseFault_hist (cause : Cause) (info : Nat) (s : State) : (raiseFault cause info s).hist = s.hist := rfl

@[simp] theorem raiseFault_hl (cause : Cause) (info : Nat) (s : State) : (raiseFault cause info s).hl = s.hl := rfl

@[simp] theorem raiseFault_tree (cause : Cause) (info : Nat) (s : State) : (raiseFault cause info s).tree = s.tree := rfl

@[simp] theorem raiseFault_cw (cause : Cause) (info : Nat) (s : State) : (raiseFault cause info s).cw = s.cw := rfl

@[simp] theorem raiseFault_inq (cause : Cause) (info : Nat) (s : State) : (raiseFault cause info s).inq = s.inq := rfl

@[simp] theorem raiseFault_out (cause : Cause) (info : Nat) (s : State) : (raiseFault cause info s).out = s.out := rfl

@[simp] theorem raiseFault_sinkRoom (cause : Cause) (info : Nat) (s : State) : (raiseFault cause info s).sinkRoom = s.sinkRoom := rfl

/-! ### enter -/

@[simp] theorem enter_cfg (i : Instr) (s : State) : (enter i s).cfg = s.cfg := rfl

@[simp] theorem enter_op (i : Instr) (s : State) : (enter i s).op = i := rfl

@[simp] theorem enter_pos (i : Instr) (s : State) : (enter i s).pos = 0 := rfl

@[simp] theorem enter_prev (i : Instr) (s : State) : (enter i s).prev = s.prev := rfl

@[simp] theorem enter_hlen (i : Instr) (s : State) : (enter i s).hlen = s.hlen := rfl

@[simp] theorem enter_nnode (i : Instr) (s : State) : (enter i s).nnode = s.nnode := rfl

@[simp] theorem enter_bacc (i : Instr) (s : State) : (enter i s).bacc = s.bacc := rfl

@[simp] theorem enter_bcnt (i : Instr) (s : State) : (enter i s).bcnt = s.bcnt := rfl

@[simp] theorem enter_frameIdx (i : Instr) (s : State) : (enter i s).frameIdx = s.frameIdx := rfl

@[simp] theorem enter_fault (i : Instr) (s : State) : (enter i s).fault = s.fault := rfl

@[simp] theorem enter_cause (i : Instr) (s : State) : (enter i s).cause = s.cause := rfl

@[simp] theorem enter_faultInfo (i : Instr) (s : State) : (enter i s).faultInfo = s.faultInfo := rfl

@[simp] theorem enter_g (i : Instr) (s : State) : (enter i s).g = s.g := rfl

@[simp] theorem enter_q (i : Instr) (s : State) : (enter i s).q = s.q := rfl

@[simp] theorem enter_t (i : Instr) (s : State) : (enter i s).t = s.t := rfl

@[simp] theorem enter_rk (i : Instr) (s : State) : (enter i s).rk = s.rk := rfl

@[simp] theorem enter_rs (i : Instr) (s : State) : (enter i s).rs = s.rs := rfl

@[simp] theorem enter_hist (i : Instr) (s : State) : (enter i s).hist = s.hist := rfl

@[simp] theorem enter_hl (i : Instr) (s : State) : (enter i s).hl = s.hl := rfl

@[simp] theorem enter_tree (i : Instr) (s : State) : (enter i s).tree = s.tree := rfl

@[simp] theorem enter_cw (i : Instr) (s : State) : (enter i s).cw = s.cw := rfl

@[simp] theorem enter_inq (i : Instr) (s : State) : (enter i s).inq = s.inq := rfl

@[simp] theorem enter_out (i : Instr) (s : State) : (enter i s).out = s.out := rfl

@[simp] theorem enter_sinkRoom (i : Instr) (s : State) : (enter i s).sinkRoom = s.sinkRoom := rfl

/-! ### advance -/

@[simp] theorem advance_cfg (i : Instr) (s : State) : (advance i s).cfg = s.cfg := by unfold advance; split <;> rfl

@[simp] theorem advance_op (i : Instr) (s : State) : (advance i s).op = if s.pos = i.lastIndex s.cfg then i.successor else s.op := by unfold advance; split <;> rfl

@[simp] theorem advance_pos (i : Instr) (s : State) : (advance i s).pos = if s.pos = i.lastIndex s.cfg then 0 else s.pos + 1 := by unfold advance; split <;> rfl

@[simp] theorem advance_prev (i : Instr) (s : State) : (advance i s).prev = s.prev := by unfold advance; split <;> rfl

@[simp] theorem advance_hlen (i : Instr) (s : State) : (advance i s).hlen = s.hlen := by unfold advance; split <;> rfl

@[simp] theorem advance_nnode (i : Instr) (s : State) : (advance i s).nnode = s.nnode := by unfold advance; split <;> rfl

@[simp] theorem advance_bacc (i : Instr) (s : State) : (advance i s).bacc = s.bacc := by unfold advance; split <;> rfl

@[simp] theorem advance_bcnt (i : Instr) (s : State) : (advance i s).bcnt = s.bcnt := by unfold advance; split <;> rfl

@[simp] theorem advance_frameIdx (i : Instr) (s : State) : (advance i s).frameIdx = s.frameIdx := by unfold advance; split <;> rfl

@[simp] theorem advance_fault (i : Instr) (s : State) : (advance i s).fault = s.fault := by unfold advance; split <;> rfl

@[simp] theorem advance_cause (i : Instr) (s : State) : (advance i s).cause = s.cause := by unfold advance; split <;> rfl

@[simp] theorem advance_faultInfo (i : Instr) (s : State) : (advance i s).faultInfo = s.faultInfo := by unfold advance; split <;> rfl

@[simp] theorem advance_g (i : Instr) (s : State) : (advance i s).g = s.g := by unfold advance; split <;> rfl

@[simp] theorem advance_q (i : Instr) (s : State) : (advance i s).q = s.q := by unfold advance; split <;> rfl

@[simp] theorem advance_t (i : Instr) (s : State) : (advance i s).t = s.t := by unfold advance; split <;> rfl

@[simp] theorem advance_rk (i : Instr) (s : State) : (advance i s).rk = s.rk := by unfold advance; split <;> rfl

@[simp] theorem advance_rs (i : Instr) (s : State) : (advance i s).rs = s.rs := by unfold advance; split <;> rfl

@[simp] theorem advance_hist (i : Instr) (s : State) : (advance i s).hist = s.hist := by unfold advance; split <;> rfl

@[simp] theorem advance_hl (i : Instr) (s : State) : (advance i s).hl = s.hl := by unfold advance; split <;> rfl

@[simp] theorem advance_tree (i : Instr) (s : State) : (advance i s).tree = s.tree := by unfold advance; split <;> rfl

@[simp] theorem advance_cw (i : Instr) (s : State) : (advance i s).cw = s.cw := by unfold advance; split <;> rfl

@[simp] theorem advance_inq (i : Instr) (s : State) : (advance i s).inq = s.inq := by unfold advance; split <;> rfl

@[simp] theorem advance_out (i : Instr) (s : State) : (advance i s).out = s.out := by unfold advance; split <;> rfl

@[simp] theorem advance_sinkRoom (i : Instr) (s : State) : (advance i s).sinkRoom = s.sinkRoom := by unfold advance; split <;> rfl

/-! ### emit -/

@[simp] theorem emit_cfg (bytes : List Byte) (s : State) : (emit bytes s).cfg = s.cfg := rfl

@[simp] theorem emit_op (bytes : List Byte) (s : State) : (emit bytes s).op = s.op := rfl

@[simp] theorem emit_pos (bytes : List Byte) (s : State) : (emit bytes s).pos = s.pos := rfl

@[simp] theorem emit_prev (bytes : List Byte) (s : State) : (emit bytes s).prev = s.prev := rfl

@[simp] theorem emit_hlen (bytes : List Byte) (s : State) : (emit bytes s).hlen = s.hlen := rfl

@[simp] theorem emit_nnode (bytes : List Byte) (s : State) : (emit bytes s).nnode = s.nnode := rfl

@[simp] theorem emit_bacc (bytes : List Byte) (s : State) : (emit bytes s).bacc = s.bacc := rfl

@[simp] theorem emit_bcnt (bytes : List Byte) (s : State) : (emit bytes s).bcnt = s.bcnt := rfl

@[simp] theorem emit_frameIdx (bytes : List Byte) (s : State) : (emit bytes s).frameIdx = s.frameIdx := rfl

@[simp] theorem emit_fault (bytes : List Byte) (s : State) : (emit bytes s).fault = s.fault := rfl

@[simp] theorem emit_cause (bytes : List Byte) (s : State) : (emit bytes s).cause = s.cause := rfl

@[simp] theorem emit_faultInfo (bytes : List Byte) (s : State) : (emit bytes s).faultInfo = s.faultInfo := rfl

@[simp] theorem emit_g (bytes : List Byte) (s : State) : (emit bytes s).g = s.g := rfl

@[simp] theorem emit_q (bytes : List Byte) (s : State) : (emit bytes s).q = s.q := rfl

@[simp] theorem emit_t (bytes : List Byte) (s : State) : (emit bytes s).t = s.t := rfl

@[simp] theorem emit_rk (bytes : List Byte) (s : State) : (emit bytes s).rk = s.rk := rfl

@[simp] theorem emit_rs (bytes : List Byte) (s : State) : (emit bytes s).rs = s.rs := rfl

@[simp] theorem emit_hist (bytes : List Byte) (s : State) : (emit bytes s).hist = s.hist := rfl

@[simp] theorem emit_hl (bytes : List Byte) (s : State) : (emit bytes s).hl = s.hl := rfl

@[simp] theorem emit_tree (bytes : List Byte) (s : State) : (emit bytes s).tree = s.tree := rfl

@[simp] theorem emit_cw (bytes : List Byte) (s : State) : (emit bytes s).cw = s.cw := rfl

@[simp] theorem emit_inq (bytes : List Byte) (s : State) : (emit bytes s).inq = s.inq := rfl

@[simp] theorem emit_out (bytes : List Byte) (s : State) : (emit bytes s).out = s.out ++ bytes := rfl

@[simp] theorem emit_sinkRoom (bytes : List Byte) (s : State) : (emit bytes s).sinkRoom = s.sinkRoom.map (· - bytes.length) := rfl

/-! ### seedHuffman -/

@[simp] theorem seedHuffman_cfg (s : State) : (seedHuffman s).cfg = s.cfg := rfl

@[simp] theorem seedHuffman_op (s : State) : (seedHuffman s).op = s.op := rfl

@[simp] theorem seedHuffman_pos (s : State) : (seedHuffman s).pos = s.pos := rfl

@[simp] theorem seedHuffman_prev (s : State) : (seedHuffman s).prev = s.prev := rfl

@[simp] theorem seedHuffman_hlen (s : State) : (seedHuffman s).hlen = 7 := rfl

@[simp] theorem seedHuffman_nnode (s : State) : (seedHuffman s).nnode = 7 := rfl

@[simp] theorem seedHuffman_bacc (s : State) : (seedHuffman s).bacc = s.bacc := rfl

@[simp] theorem seedHuffman_bcnt (s : State) : (seedHuffman s).bcnt = s.bcnt := rfl

@[simp] theorem seedHuffman_frameIdx (s : State) : (seedHuffman s).frameIdx = s.frameIdx := rfl

@[simp] theorem seedHuffman_fault (s : State) : (seedHuffman s).fault = s.fault := rfl

@[simp] theorem seedHuffman_cause (s : State) : (seedHuffman s).cause = s.cause := rfl

@[simp] theorem seedHuffman_faultInfo (s : State) : (seedHuffman s).faultInfo = s.faultInfo := rfl

@[simp] theorem seedHuffman_g (s : State) : (seedHuffman s).g = s.g := rfl

@[simp] theorem seedHuffman_q (s : State) : (seedHuffman s).q = s.q := rfl

@[simp] theorem seedHuffman_t (s : State) : (seedHuffman s).t = s.t := rfl

@[simp] theorem seedHuffman_rk (s : State) : (seedHuffman s).rk = s.rk := rfl

@[simp] theorem seedHuffman_rs (s : State) : (seedHuffman s).rs = s.rs := rfl

@[simp] theorem seedHuffman_hist (s : State) : (seedHuffman s).hist = s.hist := rfl

@[simp] theorem seedHuffman_hl (s : State) : (seedHuffman s).hl = seedList s.hist s.hl := rfl

@[simp] theorem seedHuffman_tree (s : State) : (seedHuffman s).tree = s.tree := rfl

@[simp] theorem seedHuffman_cw (s : State) : (seedHuffman s).cw = Vector.replicate 7 { len := 0, bits := 0 } := rfl

@[simp] theorem seedHuffman_inq (s : State) : (seedHuffman s).inq = s.inq := rfl

@[simp] theorem seedHuffman_out (s : State) : (seedHuffman s).out = s.out := rfl

@[simp] theorem seedHuffman_sinkRoom (s : State) : (seedHuffman s).sinkRoom = s.sinkRoom := rfl

/-! ### startCount -/

@[simp] theorem startCount_cfg (s : State) : (startCount s).cfg = s.cfg := by unfold startCount; split <;> rfl

@[simp] theorem startCount_op (s : State) : (startCount s).op = s.op := by unfold startCount; split <;> rfl

@[simp] theorem startCount_pos (s : State) : (startCount s).pos = s.pos := by unfold startCount; split <;> rfl

@[simp] theorem startCount_prev (s : State) : (startCount s).prev = if s.pos = 0 then 0 else s.prev := by unfold startCount; split <;> rfl

@[simp] theorem startCount_hlen (s : State) : (startCount s).hlen = s.hlen := by unfold startCount; split <;> rfl

@[simp] theorem startCount_nnode (s : State) : (startCount s).nnode = s.nnode := by unfold startCount; split <;> rfl

@[simp] theorem startCount_bacc (s : State) : (startCount s).bacc = s.bacc := by unfold startCount; split <;> rfl

@[simp] theorem startCount_bcnt (s : State) : (startCount s).bcnt = s.bcnt := by unfold startCount; split <;> rfl

@[simp] theorem startCount_frameIdx (s : State) : (startCount s).frameIdx = s.frameIdx := by unfold startCount; split <;> rfl

@[simp] theorem startCount_fault (s : State) : (startCount s).fault = s.fault := by unfold startCount; split <;> rfl

@[simp] theorem startCount_cause (s : State) : (startCount s).cause = s.cause := by unfold startCount; split <;> rfl

@[simp] theorem startCount_faultInfo (s : State) : (startCount s).faultInfo = s.faultInfo := by unfold startCount; split <;> rfl

@[simp] theorem startCount_g (s : State) : (startCount s).g = s.g := by unfold startCount; split <;> rfl

@[simp] theorem startCount_q (s : State) : (startCount s).q = s.q := by unfold startCount; split <;> rfl

@[simp] theorem startCount_t (s : State) : (startCount s).t = if s.pos = 0 then Vector.replicate 7 (Vector.replicate 7 0) else s.t := by unfold startCount; split <;> rfl

@[simp] theorem startCount_rk (s : State) : (startCount s).rk = s.rk := by unfold startCount; split <;> rfl

@[simp] theorem startCount_rs (s : State) : (startCount s).rs = s.rs := by unfold startCount; split <;> rfl

@[simp] theorem startCount_hist (s : State) : (startCount s).hist = s.hist := by unfold startCount; split <;> rfl

@[simp] theorem startCount_hl (s : State) : (startCount s).hl = s.hl := by unfold startCount; split <;> rfl

@[simp] theorem startCount_tree (s : State) : (startCount s).tree = s.tree := by unfold startCount; split <;> rfl

@[simp] theorem startCount_cw (s : State) : (startCount s).cw = s.cw := by unfold startCount; split <;> rfl

@[simp] theorem startCount_inq (s : State) : (startCount s).inq = s.inq := by unfold startCount; split <;> rfl

@[simp] theorem startCount_out (s : State) : (startCount s).out = s.out := by unfold startCount; split <;> rfl

@[simp] theorem startCount_sinkRoom (s : State) : (startCount s).sinkRoom = s.sinkRoom := by unfold startCount; split <;> rfl

/-! ### startRemap -/

@[simp] theorem startRemap_cfg (s : State) : (startRemap s).cfg = s.cfg := by unfold startRemap; split <;> rfl

@[simp] theorem startRemap_op (s : State) : (startRemap s).op = s.op := by unfold startRemap; split <;> rfl

@[simp] theorem startRemap_pos (s : State) : (startRemap s).pos = s.pos := by unfold startRemap; split <;> rfl

@[simp] theorem startRemap_prev (s : State) : (startRemap s).prev = if s.pos = 0 then 0 else s.prev := by unfold startRemap; split <;> rfl

@[simp] theorem startRemap_hlen (s : State) : (startRemap s).hlen = s.hlen := by unfold startRemap; split <;> rfl

@[simp] theorem startRemap_nnode (s : State) : (startRemap s).nnode = s.nnode := by unfold startRemap; split <;> rfl

@[simp] theorem startRemap_bacc (s : State) : (startRemap s).bacc = s.bacc := by unfold startRemap; split <;> rfl

@[simp] theorem startRemap_bcnt (s : State) : (startRemap s).bcnt = s.bcnt := by unfold startRemap; split <;> rfl

@[simp] theorem startRemap_frameIdx (s : State) : (startRemap s).frameIdx = s.frameIdx := by unfold startRemap; split <;> rfl

@[simp] theorem startRemap_fault (s : State) : (startRemap s).fault = s.fault := by unfold startRemap; split <;> rfl

@[simp] theorem startRemap_cause (s : State) : (startRemap s).cause = s.cause := by unfold startRemap; split <;> rfl

@[simp] theorem startRemap_faultInfo (s : State) : (startRemap s).faultInfo = s.faultInfo := by unfold startRemap; split <;> rfl

@[simp] theorem startRemap_g (s : State) : (startRemap s).g = s.g := by unfold startRemap; split <;> rfl

@[simp] theorem startRemap_q (s : State) : (startRemap s).q = s.q := by unfold startRemap; split <;> rfl

@[simp] theorem startRemap_t (s : State) : (startRemap s).t = s.t := by unfold startRemap; split <;> rfl

@[simp] theorem startRemap_rk (s : State) : (startRemap s).rk = s.rk := by unfold startRemap; split <;> rfl

@[simp] theorem startRemap_rs (s : State) : (startRemap s).rs = s.rs := by unfold startRemap; split <;> rfl

@[simp] theorem startRemap_hist (s : State) : (startRemap s).hist = if s.pos = 0 then Vector.replicate 7 0 else s.hist := by unfold startRemap; split <;> rfl

@[simp] theorem startRemap_hl (s : State) : (startRemap s).hl = s.hl := by unfold startRemap; split <;> rfl

@[simp] theorem startRemap_tree (s : State) : (startRemap s).tree = s.tree := by unfold startRemap; split <;> rfl

@[simp] theorem startRemap_cw (s : State) : (startRemap s).cw = s.cw := by unfold startRemap; split <;> rfl

@[simp] theorem startRemap_inq (s : State) : (startRemap s).inq = s.inq := by unfold startRemap; split <;> rfl

@[simp] theorem startRemap_out (s : State) : (startRemap s).out = s.out := by unfold startRemap; split <;> rfl

@[simp] theorem startRemap_sinkRoom (s : State) : (startRemap s).sinkRoom = s.sinkRoom := by unfold startRemap; split <;> rfl

/-! ### offerBeats -/

@[simp] theorem offerBeats_cfg (beats : List BeatWord) (s : State) : (offerBeats beats s).cfg = s.cfg := rfl

@[simp] theorem offerBeats_op (beats : List BeatWord) (s : State) : (offerBeats beats s).op = s.op := rfl

@[simp] theorem offerBeats_pos (beats : List BeatWord) (s : State) : (offerBeats beats s).pos = s.pos := rfl

@[simp] theorem offerBeats_prev (beats : List BeatWord) (s : State) : (offerBeats beats s).prev = s.prev := rfl

@[simp] theorem offerBeats_hlen (beats : List BeatWord) (s : State) : (offerBeats beats s).hlen = s.hlen := rfl

@[simp] theorem offerBeats_nnode (beats : List BeatWord) (s : State) : (offerBeats beats s).nnode = s.nnode := rfl

@[simp] theorem offerBeats_bacc (beats : List BeatWord) (s : State) : (offerBeats beats s).bacc = s.bacc := rfl

@[simp] theorem offerBeats_bcnt (beats : List BeatWord) (s : State) : (offerBeats beats s).bcnt = s.bcnt := rfl

@[simp] theorem offerBeats_frameIdx (beats : List BeatWord) (s : State) : (offerBeats beats s).frameIdx = s.frameIdx := rfl

@[simp] theorem offerBeats_fault (beats : List BeatWord) (s : State) : (offerBeats beats s).fault = s.fault := rfl

@[simp] theorem offerBeats_cause (beats : List BeatWord) (s : State) : (offerBeats beats s).cause = s.cause := rfl

@[simp] theorem offerBeats_faultInfo (beats : List BeatWord) (s : State) : (offerBeats beats s).faultInfo = s.faultInfo := rfl

@[simp] theorem offerBeats_g (beats : List BeatWord) (s : State) : (offerBeats beats s).g = s.g := rfl

@[simp] theorem offerBeats_q (beats : List BeatWord) (s : State) : (offerBeats beats s).q = s.q := rfl

@[simp] theorem offerBeats_t (beats : List BeatWord) (s : State) : (offerBeats beats s).t = s.t := rfl

@[simp] theorem offerBeats_rk (beats : List BeatWord) (s : State) : (offerBeats beats s).rk = s.rk := rfl

@[simp] theorem offerBeats_rs (beats : List BeatWord) (s : State) : (offerBeats beats s).rs = s.rs := rfl

@[simp] theorem offerBeats_hist (beats : List BeatWord) (s : State) : (offerBeats beats s).hist = s.hist := rfl

@[simp] theorem offerBeats_hl (beats : List BeatWord) (s : State) : (offerBeats beats s).hl = s.hl := rfl

@[simp] theorem offerBeats_tree (beats : List BeatWord) (s : State) : (offerBeats beats s).tree = s.tree := rfl

@[simp] theorem offerBeats_cw (beats : List BeatWord) (s : State) : (offerBeats beats s).cw = s.cw := rfl

@[simp] theorem offerBeats_inq (beats : List BeatWord) (s : State) : (offerBeats beats s).inq = s.inq ++ beats := rfl

@[simp] theorem offerBeats_out (beats : List BeatWord) (s : State) : (offerBeats beats s).out = s.out := rfl

@[simp] theorem offerBeats_sinkRoom (beats : List BeatWord) (s : State) : (offerBeats beats s).sinkRoom = s.sinkRoom := rfl

/-! ### sinkOffers -/

@[simp] theorem sinkOffers_cfg (room : Option Nat) (s : State) : (sinkOffers room s).cfg = s.cfg := rfl

@[simp] theorem sinkOffers_op (room : Option Nat) (s : State) : (sinkOffers room s).op = s.op := rfl

@[simp] theorem sinkOffers_pos (room : Option Nat) (s : State) : (sinkOffers room s).pos = s.pos := rfl

@[simp] theorem sinkOffers_prev (room : Option Nat) (s : State) : (sinkOffers room s).prev = s.prev := rfl

@[simp] theorem sinkOffers_hlen (room : Option Nat) (s : State) : (sinkOffers room s).hlen = s.hlen := rfl

@[simp] theorem sinkOffers_nnode (room : Option Nat) (s : State) : (sinkOffers room s).nnode = s.nnode := rfl

@[simp] theorem sinkOffers_bacc (room : Option Nat) (s : State) : (sinkOffers room s).bacc = s.bacc := rfl

@[simp] theorem sinkOffers_bcnt (room : Option Nat) (s : State) : (sinkOffers room s).bcnt = s.bcnt := rfl

@[simp] theorem sinkOffers_frameIdx (room : Option Nat) (s : State) : (sinkOffers room s).frameIdx = s.frameIdx := rfl

@[simp] theorem sinkOffers_fault (room : Option Nat) (s : State) : (sinkOffers room s).fault = s.fault := rfl

@[simp] theorem sinkOffers_cause (room : Option Nat) (s : State) : (sinkOffers room s).cause = s.cause := rfl

@[simp] theorem sinkOffers_faultInfo (room : Option Nat) (s : State) : (sinkOffers room s).faultInfo = s.faultInfo := rfl

@[simp] theorem sinkOffers_g (room : Option Nat) (s : State) : (sinkOffers room s).g = s.g := rfl

@[simp] theorem sinkOffers_q (room : Option Nat) (s : State) : (sinkOffers room s).q = s.q := rfl

@[simp] theorem sinkOffers_t (room : Option Nat) (s : State) : (sinkOffers room s).t = s.t := rfl

@[simp] theorem sinkOffers_rk (room : Option Nat) (s : State) : (sinkOffers room s).rk = s.rk := rfl

@[simp] theorem sinkOffers_rs (room : Option Nat) (s : State) : (sinkOffers room s).rs = s.rs := rfl

@[simp] theorem sinkOffers_hist (room : Option Nat) (s : State) : (sinkOffers room s).hist = s.hist := rfl

@[simp] theorem sinkOffers_hl (room : Option Nat) (s : State) : (sinkOffers room s).hl = s.hl := rfl

@[simp] theorem sinkOffers_tree (room : Option Nat) (s : State) : (sinkOffers room s).tree = s.tree := rfl

@[simp] theorem sinkOffers_cw (room : Option Nat) (s : State) : (sinkOffers room s).cw = s.cw := rfl

@[simp] theorem sinkOffers_inq (room : Option Nat) (s : State) : (sinkOffers room s).inq = s.inq := rfl

@[simp] theorem sinkOffers_out (room : Option Nat) (s : State) : (sinkOffers room s).out = s.out := rfl

@[simp] theorem sinkOffers_sinkRoom (room : Option Nat) (s : State) : (sinkOffers room s).sinkRoom = room := rfl

/-! ### assertReset -/

@[simp] theorem assertReset_cfg (s : State) : (assertReset s).cfg = s.cfg := rfl

@[simp] theorem assertReset_op (s : State) : (assertReset s).op = .lds := rfl

@[simp] theorem assertReset_pos (s : State) : (assertReset s).pos = 0 := rfl

@[simp] theorem assertReset_prev (s : State) : (assertReset s).prev = 0 := rfl

@[simp] theorem assertReset_hlen (s : State) : (assertReset s).hlen = 0 := rfl

@[simp] theorem assertReset_nnode (s : State) : (assertReset s).nnode = 0 := rfl

@[simp] theorem assertReset_bacc (s : State) : (assertReset s).bacc = 0 := rfl

@[simp] theorem assertReset_bcnt (s : State) : (assertReset s).bcnt = 0 := rfl

@[simp] theorem assertReset_frameIdx (s : State) : (assertReset s).frameIdx = 0 := rfl

@[simp] theorem assertReset_fault (s : State) : (assertReset s).fault = false := rfl

@[simp] theorem assertReset_cause (s : State) : (assertReset s).cause = .none := rfl

@[simp] theorem assertReset_faultInfo (s : State) : (assertReset s).faultInfo = 0 := rfl

@[simp] theorem assertReset_g (s : State) : (assertReset s).g = Grid.zeros s.cfg s.cfg.npix := rfl

@[simp] theorem assertReset_q (s : State) : (assertReset s).q = List.replicate s.cfg.npix 0 := rfl

@[simp] theorem assertReset_t (s : State) : (assertReset s).t = Vector.replicate 7 (Vector.replicate 7 0) := rfl

@[simp] theorem assertReset_rk (s : State) : (assertReset s).rk = Vector.replicate 7 (Vector.ofFn id) := rfl

@[simp] theorem assertReset_rs (s : State) : (assertReset s).rs = List.replicate s.cfg.npix 0 := rfl

@[simp] theorem assertReset_hist (s : State) : (assertReset s).hist = Vector.replicate 7 0 := rfl

@[simp] theorem assertReset_hl (s : State) : (assertReset s).hl = Vector.replicate 7 { cnt := 0, mem := 0, nid := 0 } := rfl

@[simp] theorem assertReset_tree (s : State) : (assertReset s).tree = Vector.replicate 6 { left := 0, right := 0 } := rfl

@[simp] theorem assertReset_cw (s : State) : (assertReset s).cw = Vector.replicate 7 { len := 0, bits := 0 } := rfl

@[simp] theorem assertReset_inq (s : State) : (assertReset s).inq = s.inq := rfl

@[simp] theorem assertReset_out (s : State) : (assertReset s).out = s.out := rfl

@[simp] theorem assertReset_sinkRoom (s : State) : (assertReset s).sinkRoom = s.sinkRoom := rfl

end Sys2Proof.Machine
end

