-- ==== Sys2Proof/Laws/Ops.lean ====
section
/-! SUPPORT. One lemma for each shared operation that says once what it can do, for proofs to cite instead of
unfolding it. -/

namespace Sys2Proof.Machine

/-- The last line of an indexed operation, as the two cases of 44_sequencer_io.md R201. -/
theorem advance_cases (i : Instr) (s : State) :
    (s.pos = i.lastIndex s.cfg ∧ advance i s = { s with op := i.successor, pos := 0 }) ∨
    (s.pos ≠ i.lastIndex s.cfg ∧ advance i s = { s with pos := s.pos + 1 }) := by
  unfold advance
  split
  · exact .inl ⟨‹_›, rfl⟩
  · exact .inr ⟨‹_›, rfl⟩

/-- `take()` answers the decoded oldest beat and removes it, and nothing while IN is empty. -/
theorem takeBeat_eq_some {s s' : State} {b : Beat} :
    takeBeat s = some (b, s') ↔
      ∃ w rest, s.inq = w :: rest ∧ b = decodeBeat w ∧ s' = { s with inq := rest } := by
  unfold takeBeat
  split
  · simp_all
  · rename_i w rest h
    simp only [h, Option.some.injEq, Prod.mk.injEq, List.cons.injEq]
    constructor
    · rintro ⟨rfl, rfl⟩
      exact ⟨w, rest, ⟨rfl, rfl⟩, rfl, rfl⟩
    · rintro ⟨w', rest', ⟨rfl, rfl⟩, rfl, rfl⟩
      exact ⟨rfl, rfl⟩

theorem takeBeat_eq_none {s : State} : takeBeat s = none ↔ s.inq = [] := by
  unfold takeBeat
  split <;> simp_all

@[simp] theorem sinkAccepts_zero (s : State) : sinkAccepts 0 s = true := by
  unfold sinkAccepts
  split <;> simp

theorem sinkAccepts_of_none {s : State} (n : Nat) (h : s.sinkRoom = none) : sinkAccepts n s = true := by
  simp [sinkAccepts, h]

/-- Emitting no byte is doing nothing. -/
@[simp] theorem emit_nil (s : State) : emit [] s = s := by
  simp [emit]

/-- An operation that emits answers a next state, always: it waits, or the bytes are appended and the rest is
done (44_sequencer_io.md R213). -/
theorem emitThen_cases (bytes : List Byte) (s : State) (rest : State → State) :
    (sinkAccepts bytes.length s = false ∧ emitThen bytes s rest = .next s) ∨
    (sinkAccepts bytes.length s = true ∧ emitThen bytes s rest = .next (rest (emit bytes s))) := by
  unfold emitThen
  cases h : sinkAccepts bytes.length s <;> simp

/-- What a step is: nothing while FAULT is set, else the operation OP names (44_sequencer_io.md R200). -/
theorem step_cases (s : State) :
    (s.fault = true ∧ step s = .next s) ∨ (s.fault = false ∧ step s = exec s.op s) := by
  unfold step fetch
  cases s.fault <;> simp

/-- LDS answers in one of these ways (44_sequencer_io.md R202). -/
theorem execLds_cases (s : State) :
    (s.inq = [] ∧ execLds s = .next s) ∨
    ∃ w rest, s.inq = w :: rest ∧
      ((beatOkAt s.cfg s.pos (decodeBeat w) = false ∧
          execLds s = .next (raiseFault .dimMismatch s.pos { s with inq := rest })) ∨
       (beatOkAt s.cfg s.pos (decodeBeat w) = true ∧
          ((∃ f, gridLoad s.cfg s.pos (decodeBeat w).data s.g = .error f ∧ execLds s = .fault f) ∨
           ∃ g', gridLoad s.cfg s.pos (decodeBeat w).data s.g = .ok g' ∧
             execLds s = .next (advance .lds { s with inq := rest, g := g' })))) := by
  unfold execLds
  cases hq : s.inq with
  | nil => simp [takeBeat, hq]
  | cons w rest =>
    refine .inr ⟨w, rest, rfl, ?_⟩
    simp only [takeBeat, hq]
    cases hb : beatOkAt s.cfg s.pos (decodeBeat w)
    · simp
    · cases hg : gridLoad s.cfg s.pos (decodeBeat w).data s.g <;> simp

/-- QDF answers in one of these ways (40_disperser.md R125, R130). -/
theorem execQdf_cases (s : State) :
    (gridQuantize s.cfg s.pos s.g = .error .overflow ∧
        execQdf s = .next (raiseFault .accOverflow s.pos s)) ∨
    (∃ f, execQdf s = .fault f) ∨
    ∃ level g', gridQuantize s.cfg s.pos s.g = .ok (level, g') ∧ s.pos < s.q.length ∧
      execQdf s = .next (advance .qdf { s with g := g', q := s.q.set s.pos level }) := by
  unfold execQdf
  rcases h : gridQuantize s.cfg s.pos s.g with (_ | f) | ⟨level, g'⟩
  · exact .inl ⟨rfl, rfl⟩
  · exact .inr (.inl ⟨f, rfl⟩)
  · by_cases hl : s.pos < s.q.length
    · exact .inr (.inr ⟨level, g', rfl, hl, by simp [hl]⟩)
    · exact .inr (.inl ⟨.noElement .q, by simp [hl]⟩)

/-- HMG answers only with a list of two entries or more and a node id of 7..12 (42_huffman_coder.md R163). -/
theorem execHmg_of_not {s : State} (h : s.hlen.toNat < 2) : execHmg s = .fault (.noElement .hl) := by
  unfold execHmg
  rw [dif_neg (by omega)]

/-- PCW answers in one of these ways (43_bitpacker_serializer.md R186). -/
theorem execPcw_cases (s : State) :
    (∃ f, packCell s = .error f ∧ execPcw s = .fault f) ∨
    ∃ p, packCell s = .ok p ∧
      execPcw s = emitThen p.bytes s fun u => advance .pcw { u with bacc := p.bacc, bcnt := p.bcnt } := by
  unfold execPcw
  cases h : packCell s with
  | error f => exact .inl ⟨f, rfl, rfl⟩
  | ok p => exact .inr ⟨p, rfl, rfl⟩

/-- At most one byte is completed by a codeword (43_bitpacker_serializer.md R186). -/
theorem packCodeword_bytes_length (bacc : BitVec 7) (bcnt : BitVec 3) (c : Codeword) :
    (packCodeword bacc bcnt c).bytes.length ≤ 1 := by
  simp only [packCodeword]
  split <;> simp

end Sys2Proof.Machine
end

