-- ==== Sys2Proof/Laws/Memory.lean ====
section
/-! SUPPORT. Every memory operation keeps `Memory.wf`: the per-cell buffers keep exactly NPIX elements, and G the
instance's sample type (spec/10_state.md R30, R31, R34). -/

namespace Sys2Proof.Machine

/-- Adding the shares keeps the number of cells. -/
theorem spread_length {Sample : Type} {num : Numerics Sample} {e : Sample} :
    ∀ {targets : List (Nat × Nat)} {cells cells' : List Sample},
      spread num e targets cells = .ok cells' → cells'.length = cells.length
  | [], cells, cells', h => by simp only [spread, Except.ok.injEq] at h; rw [h]
  | (k, w) :: rest, cells, cells', h => by
    unfold spread at h
    split at h
    · cases h
    · split at h
      · cases h
      · simpa using spread_length h

/-- Quantizing a cell keeps the number of cells. -/
theorem quantizeCell_length {Sample : Type} {num : Numerics Sample} {c : Config} {n : Nat}
    {cells cells' : List Sample} {level : Sym} (h : quantizeCell num c n cells = .ok (level, cells')) :
    cells'.length = cells.length := by
  unfold quantizeCell at h
  split at h
  · cases h
  · split at h
    · cases h
    · split at h
      · cases h
      · rename_i hs
        simp only [Except.ok.injEq, Prod.mk.injEq] at h
        rw [← h.2]
        exact spread_length hs

theorem gridQuantize_fits {c : Config} {n : Nat} {g g' : Grid} {level : Sym}
    (h : gridQuantize c n g = .ok (level, g')) (hg : g.fits c = true) : g'.fits c = true := by
  unfold gridQuantize at h
  unfold Grid.fits at hg ⊢
  split at h <;> try cases h
  all_goals
    split at h <;> try cases h
    rename_i hq
    simp_all [quantizeCell_length hq]

theorem gridLoad_fits {c : Config} {n : Nat} {v : Byte} {g g' : Grid}
    (h : gridLoad c n v g = .ok g') (hg : g.fits c = true) : g'.fits c = true := by
  unfold gridLoad at h
  unfold Grid.fits at hg ⊢
  split at h <;> try cases h
  all_goals
    split at h <;> try cases h
    simp_all

/-- The memory's three parts. -/
theorem memory_wf_iff (s : State) :
    Memory.wf s = true ↔
      s.g.fits s.cfg = true ∧ s.q.length = s.cfg.npix ∧ s.rs.length = s.cfg.npix := by
  simp [Memory.wf, and_assoc]

/-- `Memory.wf` looks at the parameters and the per-cell buffers only. -/
theorem memory_wf_congr {s t : State} (hc : t.cfg = s.cfg) (hg : t.g = s.g)
    (hq : t.q.length = s.q.length) (hr : t.rs.length = s.rs.length) : Memory.wf t = Memory.wf s := by
  simp [Memory.wf, hc, hg, hq, hr]

/-- The memory of the reset state is well formed, for every instance. -/
theorem memory_wf_resetWith (c : Config) : Memory.wf (State.resetWith c) = true := by
  rw [memory_wf_iff]
  refine ⟨?_, by simp [State.resetWith], by simp [State.resetWith]⟩
  cases h : c.numerics <;> simp [State.resetWith, Grid.zeros, Grid.fits, h]

theorem memory_wf_reset : Memory.wf State.reset = true := memory_wf_resetWith _

theorem memory_wf_assertReset (s : State) : Memory.wf (assertReset s) = true := memory_wf_resetWith s.cfg

/-- An operation that emits and then leaves the parameters and the per-cell buffers alone keeps the memory. -/
theorem emitThen_keeps_memory {bytes : List Byte} {s t : State} {rest : State → State}
    (hr : ∀ u : State, Memory.wf (rest u) = Memory.wf u) (h : emitThen bytes s rest = .next t)
    (hm : Memory.wf s = true) : Memory.wf t = true := by
  rcases emitThen_cases bytes s rest with ⟨-, he⟩ | ⟨-, he⟩
  · rw [he] at h; cases h; exact hm
  · rw [he] at h; cases h
    rw [hr]; exact hm

theorem advance_memory (i : Instr) (s : State) : Memory.wf (advance i s) = Memory.wf s :=
  memory_wf_congr (by simp) (by simp) (by simp) (by simp)

/-- Every operation keeps the memory well formed. -/
theorem exec_keeps_memory {i : Instr} {s t : State} (h : exec i s = .next t) (hm : Memory.wf s = true) :
    Memory.wf t = true := by
  cases i <;> simp only [exec] at h
  case lds =>
    rcases execLds_cases s with ⟨-, he⟩ | ⟨w, rest, -, ⟨-, he⟩ | ⟨-, ⟨f, -, he⟩ | ⟨g', hg, he⟩⟩⟩ <;>
      rw [he] at h <;> cases h
    · exact hm
    · exact hm
    · rw [advance_memory]
      rw [memory_wf_iff] at hm ⊢
      exact ⟨gridLoad_fits hg hm.1, hm.2⟩
  case qdf =>
    rcases execQdf_cases s with ⟨-, he⟩ | ⟨f, he⟩ | ⟨level, g', hg, -, he⟩ <;> rw [he] at h <;> cases h
    · exact hm
    · rw [advance_memory]
      rw [memory_wf_iff] at hm ⊢
      exact ⟨gridQuantize_fits hg hm.1, by simpa using hm.2.1, hm.2.2⟩
  case tcn =>
    unfold execTcn at h
    split at h <;> cases h
    rw [advance_memory, ← hm]
    exact memory_wf_congr (by simp) (by simp) (by simp) (by simp)
  case rnk =>
    unfold execRnk at h
    split at h <;> cases h
    rw [advance_memory]; exact hm
  case rmp =>
    unfold execRmp at h
    split at h
    · cases h
    · simp only at h
      split at h <;> cases h
      rw [advance_memory, ← hm]
      exact memory_wf_congr (by simp) (by simp) (by simp) (by simp)
  case hsd => cases h; exact hm
  case hmg =>
    unfold execHmg at h
    split at h
    · split at h <;> cases h
      rw [advance_memory]; exact hm
    · cases h
  case erk =>
    unfold execErk at h
    split at h
    · cases h
    · exact emitThen_keeps_memory (advance_memory .erk) h hm
  case etn =>
    unfold execEtn at h
    split at h
    · cases h
    · exact emitThen_keeps_memory (advance_memory .etn) h hm
  case pcw =>
    rcases execPcw_cases s with ⟨f, -, he⟩ | ⟨p, -, he⟩ <;> rw [he] at h
    · cases h
    · exact emitThen_keeps_memory (fun _ => by rw [advance_memory]; rfl) h hm
  case fls =>
    unfold execFls at h
    refine emitThen_keeps_memory (rest := fun u => enter .lds _) (fun u => ?_) h hm
    rfl
  case flt => cases h; exact hm

end Sys2Proof.Machine
end

