-- ==== Sys2Proof/Laws/PerInstr.lean ====
section
/-! SUPPORT. Statements for all operations, made and proved per operation. -/

namespace Sys2Proof.Laws

/-- A word of spec/opcode_table.json is read as its operation, whatever stands above the four bits of OP. -/
def TableWord.Statement (i : Instr) : Prop :=
  ∀ nbits above : Nat, decodeTableWord nbits ((encode i).toNat + 16 * above) = some i

theorem tableWord_of_mod {i : Instr} (h : (decode (encode i)).toOption = some i) (nbits above : Nat) :
    decodeTableWord nbits ((encode i).toNat + 16 * above) = some i := by
  have e : BitVec.ofNat 4 ((encode i).toNat + 16 * above) = encode i := by
    apply BitVec.eq_of_toNat_eq
    have := (encode i).isLt
    simp only [BitVec.toNat_ofNat]
    omega
  rw [decodeTableWord, e, h]

theorem TableWord.lds : TableWord.Statement .lds := fun n a => tableWord_of_mod rfl n a
theorem TableWord.qdf : TableWord.Statement .qdf := fun n a => tableWord_of_mod rfl n a
theorem TableWord.tcn : TableWord.Statement .tcn := fun n a => tableWord_of_mod rfl n a
theorem TableWord.rnk : TableWord.Statement .rnk := fun n a => tableWord_of_mod rfl n a
theorem TableWord.rmp : TableWord.Statement .rmp := fun n a => tableWord_of_mod rfl n a
theorem TableWord.hsd : TableWord.Statement .hsd := fun n a => tableWord_of_mod rfl n a
theorem TableWord.hmg : TableWord.Statement .hmg := fun n a => tableWord_of_mod rfl n a
theorem TableWord.erk : TableWord.Statement .erk := fun n a => tableWord_of_mod rfl n a
theorem TableWord.etn : TableWord.Statement .etn := fun n a => tableWord_of_mod rfl n a
theorem TableWord.pcw : TableWord.Statement .pcw := fun n a => tableWord_of_mod rfl n a
theorem TableWord.fls : TableWord.Statement .fls := fun n a => tableWord_of_mod rfl n a
theorem TableWord.flt : TableWord.Statement .flt := fun n a => tableWord_of_mod rfl n a

/-- The runs per frame of 30_encoding.md R110 and the largest index of 44_sequencer_io.md R201 agree, for a frame
with at least one cell; FLT has no runs. -/
def IndexRange.Statement (i : Instr) : Prop :=
  ∀ c : Config, 1 ≤ c.npix → i.runs c = if i = .flt then 0 else i.lastIndex c + 1

theorem indexRange_cells {n : Nat} (h : 1 ≤ n) : n = n - 1 + 1 := by omega

theorem IndexRange.lds : IndexRange.Statement .lds := fun _ h => indexRange_cells h
theorem IndexRange.qdf : IndexRange.Statement .qdf := fun _ h => indexRange_cells h
theorem IndexRange.tcn : IndexRange.Statement .tcn := fun _ h => indexRange_cells h
theorem IndexRange.rnk : IndexRange.Statement .rnk := fun _ _ => rfl
theorem IndexRange.rmp : IndexRange.Statement .rmp := fun _ h => indexRange_cells h
theorem IndexRange.hsd : IndexRange.Statement .hsd := fun _ _ => rfl
theorem IndexRange.hmg : IndexRange.Statement .hmg := fun _ _ => rfl
theorem IndexRange.erk : IndexRange.Statement .erk := fun _ _ => rfl
theorem IndexRange.etn : IndexRange.Statement .etn := fun _ _ => rfl
theorem IndexRange.pcw : IndexRange.Statement .pcw := fun _ h => indexRange_cells h
theorem IndexRange.fls : IndexRange.Statement .fls := fun _ _ => rfl
theorem IndexRange.flt : IndexRange.Statement .flt := fun _ _ => rfl

end Sys2Proof.Laws
end

