-- ==== Sys2Proof/Laws/Values.lean ====
section
/-! SUPPORT. What the operand, rank, list and number-system operations compute, one lemma for each. -/

namespace Sys2Proof.Machine

/-! ### Counts over the seven symbols -/

/-- A count over the symbols that leaves one of them out is at most six. -/
theorem countP_finRange_lt {p : Sym → Bool} {s : Sym} (h : p s = false) :
    (List.finRange 7).countP p < 7 := by
  have hle : (List.finRange 7).countP p ≤ 7 := by
    simpa using List.countP_le_length (p := p) (l := List.finRange 7)
  rcases Nat.lt_or_eq_of_le hle with h' | h'
  · exact h'
  · have hall := (List.countP_eq_length (p := p) (l := List.finRange 7)).1 (by simpa using h')
    have := hall s (List.mem_finRange s)
    simp [h] at this

/-- No symbol stands ahead of itself (41_transition_modeler.md R144). -/
@[simp] theorem ranksAhead_self (tie : RankTie) (cnt : Vector Nat 7) (s : Sym) :
    ranksAhead tie cnt s s = false := by
  cases tie <;> simp [ranksAhead]

/-- RANK loses no bit: it is the number of symbols ahead (41_transition_modeler.md R144). -/
theorem rankOf_val (tie : RankTie) (cnt : Vector Nat 7) (s : Sym) :
    (rankOf tie cnt s).val = (List.finRange 7).countP (ranksAhead tie cnt s) :=
  Nat.mod_eq_of_lt (countP_finRange_lt (s := s) (ranksAhead_self tie cnt s))

@[simp] theorem rankRow_getElem (tie : RankTie) (cnt : Vector Nat 7) (s : Sym) :
    (rankRow tie cnt)[s] = rankOf tie cnt s := by
  simp [rankRow]

/-- The position of a seed loses no bit (42_huffman_coder.md R161). -/
theorem seedPosition_val (hist : Vector Nat 7) (i : Sym) :
    (seedPosition hist i).val = (List.finRange 7).countP fun j =>
      decide (hist[i] < hist[j]) || (decide (j < i) && decide (hist[j] = hist[i])) :=
  Nat.mod_eq_of_lt (countP_finRange_lt (s := i) (by simp))

/-! ### The Huffman list -/

/-- The insertion position is at most the number of entries looked at. -/
theorem insertPosition_le (hl : Vector HEntry 7) (n cnt : Nat) : insertPosition hl n cnt ≤ n := by
  unfold insertPosition
  exact (List.findIdx_le_length).trans (by simp)

/-- What stands in each slot after an insertion (42_huffman_coder.md R163). -/
@[simp] theorem insertEntry_getElem (hl : Vector HEntry 7) (n j : Nat) (e : HEntry) (q : Sym) :
    (insertEntry hl n j e)[q] =
      if q.val < j then hl[q] else if q.val = j then e else if q.val ≤ n then hl[q.val - 1] else hl[q] := by
  simp [insertEntry]

@[simp] theorem mergeEntry_cnt (l r : HEntry) (n : NodeId) : (mergeEntry l r n).cnt = l.cnt + r.cnt := rfl
@[simp] theorem mergeEntry_mem (l r : HEntry) (n : NodeId) : (mergeEntry l r n).mem = l.mem ||| r.mem := rfl
@[simp] theorem mergeEntry_nid (l r : HEntry) (n : NodeId) : (mergeEntry l r n).nid = n := rfl

@[simp] theorem prependBit_len (b : Bool) (c : Codeword) : (prependBit b c).len = c.len + 1 := rfl
@[simp] theorem prependBit_false_bits (c : Codeword) : (prependBit false c).bits = c.bits := rfl
@[simp] theorem prependBit_true_bits (c : Codeword) :
    (prependBit true c).bits = c.bits + BitVec.ofNat 6 (2 ^ c.len.toNat) := rfl

/-! ### The number systems -/

/-- ERR and ADD under NUM_FX answer a value exactly when it is in range, and that value (R122, R130). -/
theorem fxCheck_eq_some {accBits : Nat} {x y : Int} :
    fxCheck accBits x = some y ↔ fxInRange accBits x = true ∧ y = x := by
  unfold fxCheck
  split
  · simp [*, eq_comm]
  · simp [*]

theorem fxCheck_eq_none {accBits : Nat} {x : Int} :
    fxCheck accBits x = none ↔ fxInRange accBits x = false := by
  unfold fxCheck
  split <;> simp [*]

theorem fxInRange_iff {accBits : Nat} {x : Int} :
    fxInRange accBits x = true ↔ -(2 ^ (accBits - 1) : Int) ≤ x ∧ x < (2 ^ (accBits - 1) : Int) := by
  simp [fxInRange]

theorem fxUnit_pos (fracK : Nat) : 0 < fxUnit fracK := by
  unfold fxUnit
  positivity

/-- LEVEL under NUM_FX loses no bit (40_disperser.md R122, R124). -/
theorem levelFx_val (fracK : Nat) (x : Int) :
    ((levelFx fracK x).val : Int) = min (max x 0) (6 * fxUnit fracK) / fxUnit fracK := by
  have hu := fxUnit_pos fracK
  have h0 : 0 ≤ min (max x 0) (6 * fxUnit fracK) / fxUnit fracK :=
    Int.ediv_nonneg (by omega) hu.le
  have h7 : min (max x 0) (6 * fxUnit fracK) / fxUnit fracK < 7 :=
    Int.ediv_lt_of_lt_mul hu (by omega)
  have : (levelFx fracK x).val =
      (min (max x 0) (6 * fxUnit fracK) / fxUnit fracK).toNat % 7 := rfl
  omega

/-- QDF's work on one cell, in its ways (40_disperser.md R125, R130). -/
theorem quantizeCell_cases {Sample : Type} (num : Numerics Sample) (c : Config) (n : Nat)
    (cells : List Sample) :
    (cells[n]? = none ∧ quantizeCell num c n cells = .error (.stop (.noElement .g))) ∨
    ∃ x, cells[n]? = some x ∧
      ((num.err x (num.level x) = none ∧ quantizeCell num c n cells = .error .overflow) ∨
       ∃ e, num.err x (num.level x) = some e ∧
         ((∃ r, spread num e (diffusionTargets c n) cells = .error r ∧
            quantizeCell num c n cells = .error r) ∨
          ∃ cells', spread num e (diffusionTargets c n) cells = .ok cells' ∧
            quantizeCell num c n cells = .ok (num.level x, cells'))) := by
  unfold quantizeCell
  cases hx : cells[n]? with
  | none => simp
  | some x =>
    refine .inr ⟨x, rfl, ?_⟩
    cases he : num.err x (num.level x) with
    | none => simp [he]
    | some e =>
      refine .inr ⟨e, rfl, ?_⟩
      cases hs : spread num e (diffusionTargets c n) cells <;> simp [he, hs]

/-! ### The permutation index -/

/-- One digit of PERMIDX (43_bitpacker_serializer.md R180). -/
theorem permIdxFrom_cons {row : Vector Sym 7} {k : Sym} {ranks pool : List Sym} {base d : Nat}
    (h : (pool.findIdx? fun s => decide (row[s] = k)) = some d) :
    permIdxFrom row (k :: ranks) pool base =
      (permIdxFrom row ranks (pool.eraseIdx d) (base * pool.length)).map (d * base + ·) := by
  rw [permIdxFrom, h]

end Sys2Proof.Machine
end

