-- ==== Sys2Proof/Tests/Slice0.lean ====
section
/-! SUPPORT. Tests: what WellFormed refuses, words written out from the encodings of spec/30_encoding.md, single steps
with the values of spec/95_test_vectors.md (each test names its vector), and for every statement of
Certificates/Slice0/Obligations.lean that has hypotheses a concrete state and operands that meet them. -/

namespace Sys2Proof.Tests

open Sys2Proof.Machine

-- One theorem after the other: checked side by side, the kernel evaluations below take a thread each.
set_option Elab.async false

/-- The state that a meaning or a run answers, if it answers one. -/
def next? : Result → Option State
  | .next t => some t
  | .fault _ => none
  | .refused _ => none

theorem exists_next {r : Result} (h : (next? r).isSome = true) : ∃ t, r = .next t := by
  cases r with
  | next t => exact ⟨t, rfl⟩
  | fault f => cases h
  | refused f => cases h

/-- One field of what a meaning answers. -/
def seen {α : Type} (f : State → α) (r : Result) : Option α := (next? r).map f

/-! ### WellFormed: one ill-formed term for each check -/

theorem test_wf_default : Config.default.wf = true := by decide +kernel
theorem test_wf_width_zero : { Config.default with w := 0 }.wf = false := by decide +kernel
theorem test_wf_height_zero : { Config.default with h := 0 }.wf = false := by decide +kernel
theorem test_wf_acc_bits_too_few : { Config.default with numerics := .fx 8 20 }.wf = false := by decide +kernel
theorem test_wf_acc_bits_least : { Config.default with numerics := .fx 8 21 }.wf = true := by decide +kernel
theorem test_wf_refq_no_integer : { Config.default with ref := #v[1/7, 1, 2, 3, 4, 5, 6] }.wf = false := by
  decide +kernel
theorem test_wf_refq_too_large :
    { Config.default with ref := #v[0, 1, 2, 3, 4, 5, 17], numerics := .fx 8 21 }.wf = false := by decide +kernel
theorem test_wf_refq_too_small :
    { Config.default with ref := #v[-17, 1, 2, 3, 4, 5, 6], numerics := .fx 8 21 }.wf = false := by decide +kernel
theorem test_wf_exact_any_ref :
    { Config.default with ref := #v[1/7, 1, 2, 3, 4, 5, 999], numerics := .exact }.wf = true := by decide +kernel

/-- The first index outside each operation's range is refused, the last one inside is not (2 x 2 cells). -/
theorem test_wf_index_ranges :
    ([Instr.lds, .qdf, .tcn, .rmp, .pcw, .flt].all fun i =>
      i.wfAt Config.default 3 && !i.wfAt Config.default 4) = true ∧
    ([Instr.rnk, .erk].all fun i => i.wfAt Config.default 6 && !i.wfAt Config.default 7) = true ∧
    ([Instr.hmg, .etn].all fun i => i.wfAt Config.default 5 && !i.wfAt Config.default 6) = true ∧
    ([Instr.hsd, .fls].all fun i => i.wfAt Config.default 0 && !i.wfAt Config.default 1) = true := by decide

/-! ### Words written out from the encodings (30_encoding.md R90, R101, R102, R110) -/

theorem test_decode_lds : decode 0b0000#4 = .ok .lds := by decide
theorem test_decode_qdf : decode 0b0001#4 = .ok .qdf := by decide
theorem test_decode_tcn : decode 0b0010#4 = .ok .tcn := by decide
theorem test_decode_rnk : decode 0b0011#4 = .ok .rnk := by decide
theorem test_decode_rmp : decode 0b0100#4 = .ok .rmp := by decide
theorem test_decode_hsd : decode 0b0101#4 = .ok .hsd := by decide
theorem test_decode_hmg : decode 0b0110#4 = .ok .hmg := by decide
theorem test_decode_erk : decode 0b0111#4 = .ok .erk := by decide
theorem test_decode_etn : decode 0b1000#4 = .ok .etn := by decide
theorem test_decode_pcw : decode 0b1001#4 = .ok .pcw := by decide
theorem test_decode_fls : decode 0b1010#4 = .ok .fls := by decide
theorem test_decode_flt : decode 0b1111#4 = .ok .flt := by decide
theorem test_decode_reserved : ([0b1011#4, 0b1100#4, 0b1101#4, 0b1110#4].all fun c =>
    decide (decode c = .error (.reservedCode c))) = true := by decide
theorem test_table_words : decodeTableWord 8 0x0 = some .lds ∧ decodeTableWord 8 0xA = some .fls ∧
    decodeTableWord 8 0xF = some .flt ∧ decodeTableWord 8 0xB = none := by decide

/-- L-b: `0x380` is (128, 1, 1); `0x201` is EOF without EOL. -/
theorem test_beat_words : decodeBeat 0x380 = { data := 128, eol := true, eof := true } ∧
    decodeBeat 0x201 = { data := 1, eol := false, eof := true } ∧
    encodeBeat { data := 50, eol := true, eof := false } = 0x132 := by decide

/-- B-a: 5039 is `13 af`; R106: 5040 and a bit above 12 are reserved. -/
theorem test_rank_words : encodeRankWord 5039 = [0x13, 0xaf] ∧ decodeRankWord 0x13 0xaf = .ok 5039 ∧
    decodeRankWord 0x13 0xb0 = .error .reservedRankWord ∧ decodeRankWord 0x20 0x00 = .error .reservedRankWord := by
  decide

/-- R183's example `b0`, and R106: a child not below its node. -/
theorem test_tree_bytes : encodeNode 11 0 = 0xb0 ∧ decodeNode 12 0xb0 = .ok (11, 0) ∧
    decodeNode 11 0xb0 = .error .childNotEarlier := by decide

/-! ### States for the single steps -/

/-- One cell, the parameters of `Config.default` otherwise (vector L-b). -/
def cfg1 : Config := { Config.default with w := 1, h := 1 }

/-- After reset of the 2 x 2 instance, at `i@n`. -/
def at' (i : Instr) (n : Nat) : State := { State.reset with op := i, pos := n }

/-- The grid of vector D-c as loaded. -/
def gridDc : List Int := [307200, 76800, 184320, 391680]

/-- Before QDF@0 of vector D-c. -/
def dc0 : State := { at' .qdf 0 with g := .fx gridDc }

/-- The instance of D-c under NUM_EXACT. -/
def cfgExact : Config := { Config.default with numerics := .exact }

/-- Before QDF@0 of vector D-c under NUM_EXACT. -/
def dcExact : State :=
  { State.resetWith cfgExact with op := .qdf, g := .exact [80/17, 20/17, 48/17, 6] }

/-! ### LDS, QDF -/

/-- R202's example: LDS@1 taking (50, 1, 0) with `W = H = 2` writes 76800 to G[1]; POS becomes 2. -/
theorem test_lds_loads :
    seen (fun t => (t.g, t.op, t.pos, t.inq)) (exec .lds { at' .lds 1 with inq := [0x132, 0x001] }) =
      some (.fx [0, 76800, 0, 0], .lds, 2, [0x001]) := by decide +kernel

/-- L-g: missing EOL at column 1, fault at LDS@1 with cause 1 and FAULT_INFO 1; S0 is `0x12f`; the beat is gone. -/
theorem test_lds_faults :
    seen (fun t => (statusS0 t, t.faultInfo, t.pos, t.inq)) (exec .lds { at' .lds 1 with inq := [0x001, 0x001] }) =
      some (0x12f, 1, 1, [0x001]) := by decide +kernel

/-- D-c, QDF@0 under FX. -/
theorem test_qdf_dc : seen (fun t => (t.g, t.q, t.op, t.pos)) (exec .qdf dc0) =
    some (.fx [307200, 91248, 194640, 393744], [4, 0, 0, 0], .qdf, 1) := by decide +kernel

/-- D-c, QDF@0 under EX. -/
theorem test_qdf_dc_exact : seen (fun t => (t.g, t.q)) (exec .qdf dcExact) =
    some (.exact [80/17, 1901/1360, 811/272, 8203/1360], [4, 0, 0, 0]) := by decide +kernel

/-- D-s: shares are rounded toward minus infinity. -/
theorem test_shares : [7, 5, 3, 1].map (shareFx (-17)) = [-8, -6, -4, -2] ∧
    [7, 5, 3, 1].map (shareFx 17) = [7, 5, 3, 1] ∧ [7, 5, 3, 1].map (shareFx (-1)) = [-1, -1, -1, -1] := by decide

/-! ### TCN, RNK, RMP -/

/-- T-b: TCN@0 counts a transition from symbol 0, whatever T and PREV held before. -/
theorem test_tcn_first :
    seen (fun t => (t.t[(0 : Sym)][(1 : Sym)], t.t[(3 : Sym)][(1 : Sym)], t.prev, t.pos))
      (exec .tcn { at' .tcn 0 with
        q := [1, 2, 1, 2], prev := 3, t := Vector.replicate 7 (Vector.replicate 7 9) }) =
      some (1, 0, 1, 1) := by decide +kernel

/-- T-a, the row with a three-way and a two-way tie, under both tie rules. -/
theorem test_rank_row : rankRow .highFirst #v[2, 2, 0, 5, 0, 2, 1] = #v[3, 2, 6, 0, 5, 1, 4] ∧
    rankRow .lowFirst #v[2, 2, 0, 5, 0, 2, 1] = #v[1, 2, 5, 0, 6, 3, 4] := by decide +kernel

/-- RNK@6 writes row 6 and is followed by RMP@0. -/
theorem test_rnk_last :
    seen (fun t => (t.rk[(6 : Sym)], t.rk[(5 : Sym)], t.op, t.pos))
      (exec .rnk { at' .rnk 6 with t := Vector.replicate 7 #v[0, 4, 5, 0, 0, 0, 0] }) =
      some (#v[6, 1, 0, 5, 4, 3, 2], #v[0, 1, 2, 3, 4, 5, 6], .rmp, 0) := by decide +kernel

/-- R146: PREV becomes the symbol, not its rank, which is 2 here. -/
theorem test_rmp :
    seen (fun t => (t.rs, t.hist, t.prev))
      (exec .rmp { at' .rmp 1 with
        q := [1, 4, 0, 0], prev := 1, rk := Vector.replicate 7 #v[6, 5, 4, 3, 2, 1, 0] }) =
      some ([0, 2, 0, 0], #v[0, 0, 1, 0, 0, 0, 0], 4) := by decide +kernel

/-! ### HSD, HMG -/

/-- R161's second example: `3:5 0:0 1:0 2:0 4:0 5:0 6:0`. -/
theorem test_hsd :
    seen (fun t => (t.hl.toList.map (·.nid), t.hl[(0 : Sym)].cnt, t.hlen, t.nnode))
      (exec .hsd { at' .hsd 0 with hist := #v[0, 0, 0, 5, 0, 0, 0] }) =
      some ([3, 0, 1, 2, 4, 5, 6], 5, 7, 7) := by decide +kernel

/-- At HMG@0 of vector H-a. -/
def ha0 : State := { seedHuffman { at' .hmg 0 with hist := #v[6, 2, 1, 0, 0, 0, 0] } with op := .hmg }

/-- H-a, HMG@0: node 7 = (6, 5), inserted in front of seeds 3 and 4 (R169). -/
theorem test_hmg_first :
    seen (fun t => (t.tree[(0 : Fin 6)], t.hl.toList.map (·.nid) |>.take t.hlen.toNat, t.cw[(5 : Sym)])) (exec .hmg ha0) =
      some ({ left := 6, right := 5 }, [0, 1, 2, 7, 3, 4], { len := 1, bits := 1 }) := by decide +kernel

/-- H-a, after HMG@5: the tree and the codewords `1 01 001 00011 00010 00001 00000`. -/
theorem test_huff_ha : (huff #v[6, 2, 1, 0, 0, 0, 0]).nodes = [(6, 5), (4, 3), (7, 8), (9, 2), (10, 1), (11, 0)] ∧
    (huff #v[6, 2, 1, 0, 0, 0, 0]).code[(3 : Sym)] = [false, false, false, true, true] := by decide +kernel

/-! ### ERK, ETN, PCW, FLS, FLT -/

/-- B-a: row `2, 0, 6, 1, 5, 3, 4` has code 4635, bytes `12 1b`. -/
theorem test_erk :
    seen (fun t => (t.out, t.op, t.pos))
      (exec .erk { at' .erk 6 with rk := Vector.replicate 7 #v[2, 0, 6, 1, 5, 3, 4], out := [0xff] }) =
      some ([0xff, 0x12, 0x1b], .etn, 0) := by decide +kernel

/-- R213: ERK waits for a sink that takes both of its bytes. -/
theorem test_erk_waits :
    seen (fun t => (t.out, t.op, t.pos, t.sinkRoom)) (exec .erk { at' .erk 2 with sinkRoom := some 1 }) =
      some ([], .erk, 2, some 1) := by decide +kernel

/-- R183's example: `TREE[12] = (11, 0)` emits `b0`. -/
theorem test_etn :
    seen (fun t => (t.out, t.op, t.pos))
      (exec .etn { at' .etn 5 with tree := State.reset.tree.set 5 { left := 11, right := 0 } }) =
      some ([0xb0], .pcw, 0) := by decide +kernel

/-- B-d: before the PCW that splits the codeword `00111` over two bytes. -/
def bd : State :=
  { at' .pcw 1 with bacc := 0b01101, bcnt := 5, rs := [0, 2, 0, 0],
                    cw := State.reset.cw.set 2 { len := 5, bits := 7 } }

/-- B-d: emits `69`, keeps `11`. -/
theorem test_pcw_splits : seen (fun t => (t.out, t.bacc, t.bcnt, t.pos)) (exec .pcw bd) =
    some ([0x69], 0b11, 2, 2) := by decide +kernel

/-- R186: PCW@0 starts from an empty accumulator, whatever it held. -/
theorem test_pcw_first :
    seen (fun t => (t.out, t.bacc, t.bcnt)) (exec .pcw { bd with pos := 0, rs := [2, 0, 0, 0] }) =
      some ([], 7, 5) := by decide +kernel

/-- R188's example: `1111` is flushed as `f0`; the frame is counted. -/
theorem test_fls :
    seen (fun t => (t.out, t.bcnt, t.frameIdx, t.op)) (exec .fls { at' .fls 0 with bacc := 0b1111, bcnt := 4 }) =
      some ([0xf0], 0, 1, .lds) := by decide +kernel

/-- B-e: nothing is emitted when no bit is left; FRAME_IDX wraps (R27). -/
theorem test_fls_empty :
    seen (fun t => (t.out, t.frameIdx)) (exec .fls { at' .fls 0 with frameIdx := 0xffffffff }) = some ([], 0) := by
  decide +kernel

/-- Q-d: in FLT nothing changes, though beats wait. -/
theorem test_flt_stays :
    seen (fun t => (t.op, t.inq, statusS0 t))
      (step { raiseFault .dimMismatch 1 State.reset with inq := [0x001] }) = some (.flt, [0x001], 0x12f) := by
  decide +kernel

/-- Q-a: S0 to S4 after reset. -/
theorem test_reset_status : (List.finRange 5).map (statusRead State.reset) = [0, 0, 2, 2, 0] := by decide +kernel

/-- P1's record under LOW_FIRST, from its Quantized Frame. -/
theorem test_record_low_first : encodeLevels .lowFirst [0, 0, 0, 0] =
    List.replicate 14 0 ++ [0x65, 0x43, 0x21, 0x78, 0x9a, 0xb0, 0xf0] := by decide +kernel

/-! ### Witnesses: the hypotheses of each statement, met together -/

theorem witness_PermutationIndexRoundTrip : IsPermutation #v[2, 0, 6, 1, 5, 3, 4] ∧ (5039 : Nat) ≤ 5039 := by decide

theorem witness_RecordFieldsReadBack :
    (5039 : Nat) ≤ 5039 ∧ (11 : NodeId).toNat < 12 ∧ (10 : NodeId).toNat < 12 ∧ (6 : NodeId).toNat < 7 := by decide

theorem witness_RecordReadsBack : 0 < [(3 : Sym)].length := by decide

theorem witness_StepPerformsTheNamedOperation :
    (at' .tcn 3).fault = false ∧ (raiseFault .dimMismatch 1 State.reset).fault = true := by decide

/-- A beat waits for the idle 1 x 1 instance. -/
def loading : State := { State.resetWith cfg1 with inq := [0x380] }

theorem witness_loading_shape : ShapeInv loading where
  config := by decide +kernel
  memory := by decide +kernel
  samples := by decide +kernel
  point := by decide +kernel
  ranks := by decide +kernel
  merges h := by cases h
  faulted := by decide
  causes := by decide
  info := by decide

theorem witness_NotEnabledStepChangesNothing :
    enabled State.reset = false ∧ enabled { at' .erk 0 with sinkRoom := some 1 } = false := by decide +kernel

/-- LDS@0 is here the last LDS too. -/
theorem witness_EnabledStepFollowsTheTable : ShapeInv loading ∧ enabled loading = true :=
  ⟨witness_loading_shape, by decide +kernel⟩

theorem witness_OtherStatusRegistersMirrorTheState : ∃ t, step loading = .next t :=
  exists_next (by decide +kernel)

/-- A right beat at the first, at a row's last and at the frame's last cell; a wrong one; none. -/
theorem witness_LdsLoadsTheSampleOrFaults :
    Memory.wf (at' .lds 3) = true ∧ 0 < Config.default.npix ∧ 3 < Config.default.npix ∧
    FlagsRight Config.default 0 0x0c8 ∧ FlagsRight Config.default 1 0x132 ∧ FlagsRight Config.default 3 0x3ff ∧
    ¬ FlagsRight Config.default 0 0x201 ∧ ¬ FlagsRight Config.default 3 0x101 ∧
    { at' .lds 3 with inq := [0x3ff] }.inq = 0x3ff :: [] ∧ State.reset.inq = [] := by decide +kernel

theorem witness_LdsWaitsForABeat :
    (at' .lds 2).op = .lds ∧ (at' .lds 2).inq = [] ∧ (at' .lds 2).fault = false ∧
    (at' .lds 2).cause = .none ∧ 0 < (at' .lds 2).pos := by decide

/-- D-c: QDF@0, which has three targets. -/
theorem witness_QdfDiffusesErrorFixedPoint :
    1 ≤ dc0.cfg.w ∧ dc0.cfg.numerics = .fx 8 32 ∧ dc0.g = .fx gridDc ∧ gridDc.length = dc0.cfg.npix ∧
    dc0.q.length = dc0.cfg.npix ∧ gridDc[dc0.pos]? = some 307200 ∧
    (((4 : Sym).val : Int) = min (max 307200 0) (6 * fxUnit 8) / fxUnit 8) ∧
    (33024 : Int) = 307200 - (dc0.cfg.ref[(4 : Sym)] * (fxUnit 8 : Rat)).floor ∧ FitsAcc 32 33024 ∧
    (∀ (k : Nat) (y : Int), gridDc[k]? = some y → weightTo dc0.cfg dc0.pos k ≠ 0 →
      FitsAcc 32 (y + (33024 * (weightTo dc0.cfg dc0.pos k : Int)) / 16)) := by
  refine ⟨by decide, by decide, by decide, by decide, by decide, by decide, by decide, by decide +kernel, by decide, ?_⟩
  intro k y h _
  match k with
  | 0 | 1 | 2 | 3 => cases h; decide +kernel
  | k + 4 => cases h

/-- D-c, QDF@3 under FX: no target. -/
theorem witness_QdfDiffusesErrorFixedPoint_last :
    ([307200, 91248, 197061, 389745] : List Int)[(at' .qdf 3).pos]? = some 389745 ∧
    (((5 : Sym).val : Int) = min (max 389745 0) (6 * fxUnit 8) / fxUnit 8) ∧
    (37233 : Int) = 389745 - (Config.standInRef[(5 : Sym)] * (fxUnit 8 : Rat)).floor ∧ FitsAcc 32 37233 ∧
    (∀ k : Nat, k < 4 → weightTo Config.default 3 k = 0) := by decide +kernel

theorem witness_QdfDiffusesErrorExact :
    1 ≤ dcExact.cfg.w ∧ dcExact.cfg.numerics = .exact ∧ dcExact.g = .exact [80/17, 20/17, 48/17, 6] ∧
    ([80/17, 20/17, 48/17, 6] : List Rat).length = dcExact.cfg.npix ∧ dcExact.q.length = dcExact.cfg.npix ∧
    ([80/17, 20/17, 48/17, 6] : List Rat)[dcExact.pos]? = some (80/17) ∧
    (((4 : Sym).val : Int) = truncRat (min (max (80/17) 0) 6)) := by decide +kernel

/-- One row of two cells, nothing subtracted at level 6 but `ref6`, 21 bits. -/
def tight (ref6 : Rat) : State :=
  { State.resetWith { Config.default with w := 2, h := 1, ref := #v[0, 0, 0, 0, 0, 0, ref6], numerics := .fx 8 21 } with
    op := .qdf, g := .fx [1048575, 1048575] }

/-- The error fits and the sum at the right neighbour does not; then the error itself does not. -/
theorem witness_QdfOverflowFaults :
    1 ≤ (tight 0).cfg.w ∧ (tight 0).g = .fx [1048575, 1048575] ∧ [1048575, 1048575].length = (tight 0).cfg.npix ∧
    (((6 : Sym).val : Int) = min (max 1048575 0) (6 * fxUnit 8) / fxUnit 8) ∧
    (1048575 : Int) = 1048575 - ((tight 0).cfg.ref[(6 : Sym)] * (fxUnit 8 : Rat)).floor ∧ FitsAcc 21 1048575 ∧
    weightTo (tight 0).cfg 0 1 ≠ 0 ∧ ¬ FitsAcc 21 (1048575 + (1048575 * (weightTo (tight 0).cfg 0 1 : Int)) / 16) ∧
    (1113855 : Int) = 1048575 - ((tight (-1)).cfg.ref[(6 : Sym)] * (fxUnit 8 : Rat)).floor ∧
    ¬ FitsAcc 21 1113855 := by decide +kernel

theorem witness_QdfOverflowFaults_exact : dcExact.cfg.numerics = .exact ∧ ∃ t, exec .qdf dcExact = .next t :=
  ⟨rfl, exists_next (by decide +kernel)⟩

/-- The first and the last cell of the 2 x 2 frame, and a target of the first. -/
theorem witness_DiffusionTargetsAreTheUnvisitedNeighbours :
    1 ≤ Config.default.w ∧ 0 < Config.default.npix ∧ 3 < Config.default.npix ∧
    (3, 1) ∈ diffusionTargets Config.default 0 := by decide

theorem witness_TcnCountsOneTransition :
    (at' .tcn 0).q[(at' .tcn 0).pos]? = some 0 ∧ (at' .tcn 3).q[(at' .tcn 3).pos]? = some 0 := by decide

theorem witness_RnkRanksOneRow : (at' .rnk 0).pos < 7 ∧ (at' .rnk 6).pos < 7 := by decide

theorem witness_RankRowsArePermutations :
    (rankRow .highFirst #v[4, 0, 0, 0, 0, 0, 0])[(0 : Sym)] = 0 ∧
    (rankRow .highFirst #v[4, 0, 0, 0, 0, 0, 0])[(1 : Sym)] = 6 ∧ (at' .rnk 6).pos < 7 ∧
    (next? (exec .rnk (at' .rnk 6))).isSome = true := by decide +kernel

theorem witness_RmpRemapsOneCell :
    (at' .rmp 0).q[(at' .rmp 0).pos]? = some 0 ∧ (at' .rmp 0).pos < (at' .rmp 0).rs.length ∧
    (at' .rmp 3).q[(at' .rmp 3).pos]? = some 0 ∧ (at' .rmp 3).pos < (at' .rmp 3).rs.length ∧
    (0 : Sym) = (at' .rmp 0).rk[(0 : Sym)][(0 : Sym)] := by decide

/-- The Transition Modeler's results for the 1 x 1 frame of level 3 (L-b), before HSD@0. -/
def modelled : State :=
  { State.resetWith cfg1 with
    op := .hsd, q := [3], t := transitionMatrix [3], rk := rankMatrix .highFirst (transitionMatrix [3]), rs := [0],
    prev := 3, hist := #v[1, 0, 0, 0, 0, 0, 0] }

theorem witness_modelled_shape : ShapeInv modelled where
  config := by decide +kernel
  memory := by decide +kernel
  samples := by decide +kernel
  point := by decide +kernel
  ranks := by decide +kernel
  merges h := by cases h
  faulted := by decide
  causes := by decide
  info := by decide

theorem witness_modelled_markov : MarkovInv modelled where
  counting h := by cases h
  counted _ := by decide +kernel
  ranking h := by cases h
  ranked _ := by decide +kernel
  remapping h := by cases h
  remapped _ := by decide +kernel

theorem witness_HistogramConservation : ShapeInv modelled ∧ MarkovInv modelled ∧
    Instr.atOrAfter .rnk modelled.op = true ∧ Instr.atOrAfter .hsd modelled.op = true :=
  ⟨witness_modelled_shape, witness_modelled_markov, by decide, by decide⟩

/-- The first merge of H-a. -/
theorem witness_HmgMergesTheLastTwo :
    ha0.hl.toList.take ha0.hlen.toNat = ha0.hl.toList.take 5 ++
      [{ cnt := 0, mem := 0b0100000, nid := 5 }, { cnt := 0, mem := 0b1000000, nid := 6 }] ∧
    7 ≤ ha0.nnode.toNat ∧ ha0.nnode.toNat ≤ 12 := by decide +kernel

/-- The last merge: a list of two, node 12. -/
theorem witness_HmgMergesTheLastTwo_last :
    { ha0 with hlen := 2, nnode := 12, pos := 5 }.hl.toList.take 2 =
      [] ++ [{ cnt := 6, mem := 1, nid := 0 }, { cnt := 2, mem := 2, nid := 1 }] ∧ (12#4).toNat ≤ 12 := by
  decide +kernel

theorem witness_HuffmanStageIsHuff : modelled.op = .hsd ∧ modelled.pos = 0 ∧ modelled.fault = false := by decide

theorem witness_HuffmanTreeLaws :
    modelled.op = .hsd ∧ modelled.pos = 0 ∧ modelled.fault = false ∧ ∃ t, Sys2Proof.core.run 7 modelled = .next t :=
  ⟨rfl, rfl, rfl, exists_next (by decide +kernel)⟩

theorem witness_CodewordLaws :
    modelled.hist = histogramOf modelled.rs ∧ modelled.hist[(1 : Sym)] = 0 ∧
    ∃ t, Sys2Proof.core.run 7 modelled = .next t :=
  ⟨by decide +kernel, by decide, exists_next (by decide +kernel)⟩

/-- The Histogram that reaches length 6 (R168 (d)), at HSD@0 without a fault. -/
def longest : State := { at' .hsd 0 with hist := #v[5, 3, 2, 1, 1, 0, 0] }

theorem witness_CodewordLaws_longest :
    longest.op = .hsd ∧ longest.pos = 0 ∧ longest.fault = false ∧ longest.hist = #v[5, 3, 2, 1, 1, 0, 0] ∧
    ∃ t, Sys2Proof.core.run 7 longest = .next t :=
  ⟨rfl, rfl, rfl, rfl, exists_next (by decide +kernel)⟩

theorem witness_DegenerateHistograms : 1 ≤ (1 : Nat) := by decide

theorem witness_ErkEmitsTheRankWord :
    (at' .erk 0).pos < 7 ∧ (at' .erk 6).pos < 7 ∧ IsPermutation (at' .erk 6).rk[6] ∧
    sinkAccepts 2 { at' .erk 6 with sinkRoom := some 2 } = true := by decide +kernel

theorem witness_EtnEmitsTheTreeByte :
    (at' .etn 0).pos < 6 ∧ (at' .etn 5).pos < 6 ∧ sinkAccepts 1 { at' .etn 5 with sinkRoom := some 1 } = true := by
  decide

/-- B-d completes a byte; with BCNT 3 the eighth bit is its last; with BCNT 2 none is completed and no sink is
needed; PCW@0 counts from nothing. -/
theorem witness_PcwPutsOneCodeword :
    bd.rs[bd.pos]? = some 2 ∧ (5 : Nat) = bd.cw[(2 : Sym)].len.toNat ∧ (7 : Nat) = bd.cw[(2 : Sym)].bits.toNat ∧
    (13 : Nat) = bd.bacc.toNat ∧ (5 : Nat) = bd.bcnt.toNat ∧ 13 < 2 ^ 5 ∧ 7 < 2 ^ 5 ∧ 8 ≤ 5 + 5 ∧
    sinkAccepts 1 bd = true ∧ ({ bd with bacc := 5, bcnt := 3 } : State).bacc.toNat < 2 ^ 3 ∧ 8 ≤ 3 + 5 ∧
    ({ bd with bacc := 3, bcnt := 2, sinkRoom := some 0 } : State).bacc.toNat < 2 ^ 2 ∧ ¬ 8 ≤ 2 + 5 ∧
    ({ bd with pos := 0, rs := [2, 0, 0, 0] } : State).rs[0]? = some 2 := by decide +kernel

theorem witness_PcwKeepsTheBitString :
    bd.rs[bd.pos]? = some 2 ∧ 0 < bd.pos ∧ bd.bacc.toNat < 2 ^ bd.bcnt.toNat ∧ bd.cw[(2 : Sym)].len.toNat ≤ 6 ∧
    bd.cw[(2 : Sym)].bits.toNat < 2 ^ bd.cw[(2 : Sym)].len.toNat ∧ sinkAccepts 1 bd = true := by decide +kernel

/-- Seven bits left; none left, and a sink that takes nothing. -/
theorem witness_FlsEndsTheFrame :
    (127#7).toNat < 2 ^ (7#3).toNat ∧ sinkAccepts 1 (at' .fls 0) = true ∧
    (at' .fls 0).bacc.toNat < 2 ^ (at' .fls 0).bcnt.toNat ∧ ¬ 0 < (at' .fls 0).bcnt.toNat := by decide

theorem witness_FltIsLeftOnlyByReset : (raiseFault .accOverflow 5 State.reset).op = .flt := by decide

/-- A step raises DIM_MISMATCH; another raises ACC_OVERFLOW. -/
theorem witness_FaultEntryIsPrecise :
    { State.reset with inq := [0x201] }.fault = false ∧
    seen State.fault (step { State.reset with inq := [0x201] }) = some true ∧
    (tight 0).fault = false ∧ seen State.fault (step (tight 0)) = some true := by decide +kernel

/-- A frame for the 1 x 1 instance whose only beat lacks its flags. -/
theorem witness_MalformedFrameFaultsAtTheBeat :
    idle { loading with inq := [0x001] } = true ∧ { loading with inq := [0x001] }.inq = [] ++ 0x001 :: [] ∧
    ([] : List BeatWord).length < cfg1.npix ∧ ¬ FlagsRight cfg1 0 0x001 := by decide +kernel

theorem witness_malformed_shape : ShapeInv { loading with inq := [0x001] } :=
  { witness_loading_shape with }

/-- One cell, 21 bits, and a reference value for level 6 that makes the error of a 255 leave the range. -/
def overflowing : State :=
  { State.resetWith { cfg1 with ref := #v[0, 0, 0, 0, 0, 0, -16], numerics := .fx 8 21 } with inq := [0x3ff] }

theorem witness_overflowing_shape : ShapeInv overflowing where
  config := by decide +kernel
  memory := by decide +kernel
  samples := by decide +kernel
  point := by decide +kernel
  ranks := by decide +kernel
  merges h := by cases h
  faulted := by decide
  causes := by decide
  info := by decide

theorem witness_OverflowingFrameFaultsAtTheCell :
    ShapeInv overflowing ∧ idle overflowing = true ∧ [(255 : Byte)].length = overflowing.cfg.npix ∧
    overflowing.inq = beatsOf overflowing.cfg [255] ++ [] ∧
    disperse overflowing.cfg [255] = .error (.overflow, 0) :=
  ⟨witness_overflowing_shape, by decide, by decide, by decide +kernel, by decide +kernel⟩

theorem witness_StreamsAndParameters : ∃ t, step (at' .erk 0) = .next t := exists_next (by decide +kernel)

theorem witness_OfferedBeatsAreHeld :
    (loading.op ≠ .lds ∨ loading.inq ≠ [] ∨ loading.fault = true) ∧ ∃ t, step loading = .next t :=
  ⟨by decide, exists_next (by decide +kernel)⟩

/-- ERK@0 offers two bytes: one is too little room, two are enough. -/
theorem witness_BackPressureOnlyDelays :
    (at' .erk 0).sinkRoom = none ∧ (at' .erk 0).fault = false ∧ 1 < (offeredBytes (at' .erk 0)).length ∧
    (offeredBytes (at' .erk 0)).length ≤ 2 ∧ ∃ t, step (at' .erk 0) = .next t :=
  ⟨rfl, rfl, by decide +kernel, by decide +kernel, exists_next (by decide +kernel)⟩

theorem witness_ResetMeetsTheInvariants : cfg1.wf = true := by decide +kernel

theorem witness_StepKeepsTheShape : ShapeInv modelled := witness_modelled_shape

theorem witness_StepKeepsMarkov : ShapeInv modelled ∧ MarkovInv modelled ∧ ∃ t, step modelled = .next t :=
  ⟨witness_modelled_shape, witness_modelled_markov, exists_next (by decide +kernel)⟩

/-- `modelled` after HSD@0: seven seeds, no merge done. -/
def seeded : State := { seedHuffman modelled with op := .hmg }

theorem witness_seeded_shape : ShapeInv seeded where
  config := by decide +kernel
  memory := by decide +kernel
  samples := by decide +kernel
  point := by decide +kernel
  ranks := by decide +kernel
  merges _ := by decide
  faulted := by decide
  causes := by decide
  info := by decide

theorem witness_seeded_merging : Merging seeded where
  partition := by decide +kernel
  short := by decide +kernel
  descending := by decide +kernel
  remaining := by decide +kernel

theorem witness_StepKeepsHuffman : ShapeInv seeded ∧ HuffmanInv seeded ∧ ∃ t, step seeded = .next t :=
  ⟨witness_seeded_shape,
    { normal := by decide +kernel
      merging := fun _ => witness_seeded_merging
      built := fun h => by cases h },
    exists_next (by decide +kernel)⟩

/-- L-b before PCW@0: the tree and the codewords of a Histogram with all its mass at 0 (R170), 20 bytes out. -/
def packing : State :=
  { modelled with
    op := .pcw
    cw := #v[⟨1, 1⟩, ⟨3, 1⟩, ⟨3, 0⟩, ⟨4, 7⟩, ⟨4, 6⟩, ⟨4, 5⟩, ⟨4, 4⟩]
    tree := #v[⟨6, 5⟩, ⟨4, 3⟩, ⟨2, 1⟩, ⟨7, 8⟩, ⟨9, 10⟩, ⟨11, 0⟩]
    out := [0x13, 0xac, 0x13, 0xaf, 0x13, 0xaf, 0x13, 0xaf, 0x13, 0xaf, 0x13, 0xaf, 0x13, 0xaf,
            0x65, 0x43, 0x21, 0x78, 0x9a, 0xb0] }

theorem witness_packing_shape : ShapeInv packing where
  config := by decide +kernel
  memory := by decide +kernel
  samples := by decide +kernel
  point := by decide +kernel
  ranks := by decide +kernel
  merges h := by cases h
  faulted := by decide
  causes := by decide
  info := by decide

theorem witness_packing_huffman : HuffmanInv packing where
  normal := by decide +kernel
  merging h := by cases h
  built _ := by decide +kernel

theorem witness_packing_record : RecordInv packing where
  accumulator := by decide
  ranks h := by cases h
  tree h := by cases h
  packing _ := ⟨[], [], by decide +kernel, by decide +kernel⟩
  packed h := by cases h

theorem witness_StepKeepsTheRecord :
    ShapeInv packing ∧ HuffmanInv packing ∧ RecordInv packing ∧ ∃ t, step packing = .next t :=
  ⟨witness_packing_shape, witness_packing_huffman, witness_packing_record, exists_next (by decide +kernel)⟩

/-- The record of vector L-b. -/
def recordLb : List Byte :=
  [0x13, 0xac, 0x13, 0xaf, 0x13, 0xaf, 0x13, 0xaf, 0x13, 0xaf, 0x13, 0xaf, 0x13, 0xaf,
   0x65, 0x43, 0x21, 0x78, 0x9a, 0xb0, 0x80]

theorem witness_FrameEncodesToItsRecord :
    ShapeInv loading ∧ idle loading = true ∧ loading.sinkRoom = none ∧ [(128 : Byte)].length = loading.cfg.npix ∧
    loading.inq = beatsOf loading.cfg [128] ++ [] ∧ encodeFrame loading.cfg [128] = .ok recordLb :=
  ⟨witness_loading_shape, by decide, rfl, by decide, by decide +kernel, by decide +kernel⟩

theorem witness_RunConcatenatesRecords :
    (∀ f ∈ [[(128 : Byte)]], f.length = loading.cfg.npix) ∧
    loading.inq = [[(128 : Byte)]].flatMap (beatsOf loading.cfg) ++ [] ∧
    [[(128 : Byte)]].map (encodeFrame loading.cfg) = [recordLb].map Except.ok := by decide +kernel

/-- Two idle states with the same beat waiting and different buffers, counters and output. -/
def stale : State := { loading with g := .fx [-7], q := [5], hist := #v[9, 8, 7, 6, 5, 4, 3], frameIdx := 41, out := [1] }

theorem witness_stale_shape : ShapeInv stale :=
  { witness_loading_shape with memory := by decide +kernel, samples := by decide +kernel }

theorem witness_FramesAreIndependent :
    ShapeInv loading ∧ ShapeInv stale ∧ idle loading = true ∧ idle stale = true ∧ loading.cfg = stale.cfg ∧
    loading.inq = stale.inq ∧ loading.sinkRoom = none ∧ stale.sinkRoom = none ∧
    (∃ t, Sys2Proof.core.run 33 loading = .next t) ∧ ∃ v, Sys2Proof.core.run 33 stale = .next v :=
  ⟨witness_loading_shape, witness_stale_shape, by decide, by decide, rfl, rfl, rfl, rfl,
    exists_next (by decide +kernel), exists_next (by decide +kernel)⟩

end Sys2Proof.Tests
end

section
/-! PROOF. The state and what the host sees of it (spec/10_state.md): the reset event, BUSY, the status registers. The
two layers under the statements are the fields of S0 and the fact that no operation writes the parameters. -/

namespace Sys2Proof.Machine

/-! ### BUSY and the pins -/

theorem busy_iff (s : State) : busy s = true ↔ s.fault = false ∧ (s.op, s.pos) ≠ (.lds, 0) := by
  simp [busy, imp_iff_not_or]

theorem busy_of_start {s : State} (hop : s.op = .lds) (hpos : s.pos = 0) : busy s = false := by
  simp [busy, hop, hpos]

/-- While a frame is loaded no byte is offered (44_sequencer_io.md R202). -/
theorem offeredBytes_of_lds {s : State} (hop : s.op = .lds) : offeredBytes s = [] := by
  simp [offeredBytes, hop]

/-! ### The fields of S0 (R41) -/

/-- The layout of S0: which field each bit belongs to. -/
theorem statusS0_getLsbD (s : State) (i : Nat) :
    (statusS0 s).getLsbD i =
      if i < 4 then (encode s.op).getLsbD i
      else if i = 4 then busy s
      else if i = 5 then s.fault
      else if i < 8 then false
      else if i < 11 then s.cause.code.getLsbD (i - 8)
      else false := by
  change BitVec.getLsbD (w := 21 + 3 + 2 + 1 + 1 + 4) (0#21 ++ s.cause.code ++ 0#2 ++ BitVec.ofBool s.fault ++
    BitVec.ofBool (busy s) ++ encode s.op) i = _
  simp only [BitVec.getLsbD_append, BitVec.getLsbD_zero, BitVec.getLsbD_ofBool, Nat.sub_sub]
  grind

/-- A field of S0 is told by its bits. -/
theorem statusS0_extract_eq {s : State} {start len : Nat} {field : BitVec len}
    (h : ∀ i < len, (statusS0 s).getLsbD (start + i) = field.getLsbD i) :
    (statusS0 s).extractLsb' start len = field :=
  BitVec.eq_of_getLsbD_eq fun i hi => by simpa [hi] using h i hi

theorem statusS0_op (s : State) : (statusS0 s).extractLsb' 0 4 = encode s.op :=
  statusS0_extract_eq fun i hi => by simp [statusS0_getLsbD, hi]

theorem statusS0_busy (s : State) : (statusS0 s).getLsbD 4 = busy s := by
  rw [statusS0_getLsbD]
  rfl

theorem statusS0_fault (s : State) : (statusS0 s).getLsbD 5 = s.fault := by
  rw [statusS0_getLsbD]
  rfl

theorem statusS0_cause (s : State) : (statusS0 s).extractLsb' 8 3 = s.cause.code :=
  statusS0_extract_eq fun i hi => by grind [statusS0_getLsbD]

theorem statusS0_reserved_low (s : State) : (statusS0 s).extractLsb' 6 2 = 0 :=
  statusS0_extract_eq fun i hi => by grind [statusS0_getLsbD]

theorem statusS0_reserved_high (s : State) : (statusS0 s).extractLsb' 11 21 = 0 :=
  statusS0_extract_eq fun i hi => by grind [statusS0_getLsbD]

theorem encode_legal (i : Instr) : (encode i).toNat ≤ 10 ∨ (encode i).toNat = 15 := by
  cases i <;> decide

theorem Cause.code_le_two (c : Cause) : c.code.toNat ≤ 2 := by
  cases c <;> decide

/-- S0 reads 0 in the idle state with no cause pending. -/
theorem statusS0_of_start {s : State} (hop : s.op = .lds) (hpos : s.pos = 0) (hfault : s.fault = false)
    (hcause : s.cause = .none) : statusS0 s = 0 := by
  simp only [statusS0, busy_of_start hop hpos, hop, hfault, hcause]
  decide

/-! ### The parameters are constants of the build (R43) -/

theorem emitThen_keeps_cfg {bytes : List Byte} {s t : State} {rest : State → State}
    (hrest : ∀ u, (rest u).cfg = u.cfg) (h : emitThen bytes s rest = .next t) : t.cfg = s.cfg := by
  rcases emitThen_cases bytes s rest with ⟨-, he⟩ | ⟨-, he⟩ <;> rw [he] at h <;> cases h
  · rfl
  · rw [hrest, emit_cfg]

theorem exec_keeps_cfg {i : Instr} {s t : State} (h : exec i s = .next t) : t.cfg = s.cfg := by
  cases i <;> simp only [exec] at h
  case lds =>
    rcases execLds_cases s with ⟨-, he⟩ | ⟨w, rest, -, ⟨-, he⟩ | ⟨-, ⟨f, -, he⟩ | ⟨g', -, he⟩⟩⟩ <;>
      rw [he] at h <;> cases h
    · rfl
    · rfl
    · rw [advance_cfg]
  case qdf =>
    rcases execQdf_cases s with ⟨-, he⟩ | ⟨f, he⟩ | ⟨level, g', -, -, he⟩ <;> rw [he] at h <;> cases h
    · rfl
    · rw [advance_cfg]
  case tcn =>
    unfold execTcn at h
    split at h <;> cases h
    rw [advance_cfg, startCount_cfg]
  case rnk =>
    unfold execRnk at h
    split at h <;> cases h
    rw [advance_cfg]
  case rmp =>
    unfold execRmp at h
    split at h
    · cases h
    · dsimp only at h
      split at h <;> cases h
      rw [advance_cfg, startRemap_cfg]
  case hsd => cases h; rfl
  case hmg =>
    unfold execHmg at h
    split at h
    · split at h <;> cases h
      rw [advance_cfg]
    · cases h
  case erk =>
    unfold execErk at h
    split at h
    · cases h
    · exact emitThen_keeps_cfg (advance_cfg .erk) h
  case etn =>
    unfold execEtn at h
    split at h
    · cases h
    · exact emitThen_keeps_cfg (advance_cfg .etn) h
  case pcw =>
    rcases execPcw_cases s with ⟨f, -, he⟩ | ⟨p, -, he⟩ <;> rw [he] at h
    · cases h
    · exact emitThen_keeps_cfg (fun u => by rw [advance_cfg]) h
  case fls =>
    unfold execFls at h
    exact emitThen_keeps_cfg (fun u => by rw [enter_cfg]) h
  case flt => cases h; rfl

theorem step_keeps_cfg {s t : State} (h : step s = .next t) : t.cfg = s.cfg := by
  rcases step_cases s with ⟨-, he⟩ | ⟨-, he⟩ <;> rw [he] at h
  · cases h; rfl
  · exact exec_keeps_cfg h

/-! ### The statements -/

/-- Settles O10: the registers are the `assertReset` lemmas, and what the host reads follows from OP, POS and FAULT. -/
theorem resetEventGivesTheResetState : Obligations.ResetEventGivesTheResetState := by
  intro s t
  have hbusy : busy t = false := busy_of_start rfl rfl
  have hS0 : statusS0 t = 0 := statusS0_of_start rfl rfl rfl rfl
  have hvalid : pinOutValid t = false := by
    simp [pinOutValid, offeredBytes_of_lds (s := t) rfl]
  exact ⟨rfl, rfl, rfl, rfl, rfl, rfl, rfl, rfl, rfl, rfl, rfl, hbusy, hS0, rfl, rfl, rfl, rfl, rfl, rfl, hvalid,
    rfl, rfl, rfl⟩

/-- Settles O11: BUSY by its definition, bit 4 by the layout of S0. -/
theorem busyWhileAFrameIsInProgress : Obligations.BusyWhileAFrameIsInProgress :=
  fun s => ⟨busy_iff s, statusS0_busy s⟩

/-- Settles O12, field by field. -/
theorem statusWordMirrorsTheState : Obligations.StatusWordMirrorsTheState :=
  fun s => ⟨statusS0_op s, statusS0_busy s, statusS0_fault s, statusS0_reserved_low s, statusS0_cause s,
    statusS0_reserved_high s, encode_legal s.op, s.cause.code_le_two⟩

/-- Settles O13: S2 and S3 read the parameters only, and no step writes those. -/
theorem otherStatusRegistersMirrorTheState : Obligations.OtherStatusRegistersMirrorTheState := by
  refine fun s => ⟨rfl, rfl, rfl, rfl, fun t h => ?_⟩
  have hcfg : t.cfg = s.cfg := step_keeps_cfg h
  simp only [statusRead, statusS2, statusS3, hcfg, and_self]

end Sys2Proof.Machine
end

section
/-! PROOF. The Disperser (spec/40_disperser.md): when QDF overflows (R130) and the thresholds of LEVEL (R124). The layer
under the first is where the diffusion targets lie; under the second, that either LEVEL is an integer clamped to 0..6. -/

namespace Sys2Proof.Machine

/-! ### The diffusion targets (R126) -/

/-- The four neighbours, each under its test on row and column. -/
theorem mem_diffusionTargets {c : Config} {n : Nat} {t : Nat × Nat} :
    t ∈ diffusionTargets c n ↔
      (colOf c n + 1 < c.w ∧ t = (n + 1, 7)) ∨
      (rowOf c n + 1 < c.h ∧ t = (n + c.w, 5)) ∨
      ((rowOf c n + 1 < c.h ∧ 1 ≤ colOf c n) ∧ t = (n + c.w - 1, 3)) ∨
      ((rowOf c n + 1 < c.h ∧ colOf c n + 1 < c.w) ∧ t = (n + c.w + 1, 1)) := by
  simp only [diffusionTargets, List.mem_append, List.mem_ite_nil_right, List.mem_singleton, or_assoc]

/-- The raster index of a row and a column of the frame (20_memory.md R61) is the index of a cell. -/
theorem raster_lt_npix {c : Config} {row col : Nat} (hrow : row < c.h) (hcol : col < c.w) :
    c.w * row + col < c.npix := by
  have hrows : c.w * (row + 1) ≤ c.w * c.h := Nat.mul_le_mul_left _ hrow
  rw [Nat.mul_add_one] at hrows
  unfold Config.npix
  omega

theorem rowOf_lt {c : Config} {n : Nat} (hn : n < c.npix) : rowOf c n < c.h :=
  Nat.div_lt_of_lt_mul hn

theorem colOf_lt {c : Config} (n : Nat) (hw : 1 ≤ c.w) : colOf c n < c.w :=
  Nat.mod_lt n hw

theorem raster_rowOf_colOf (c : Config) (n : Nat) : c.w * rowOf c n + colOf c n = n :=
  Nat.div_add_mod n c.w

/-- Every diffusion target is a cell of the frame. -/
theorem diffusionTargets_lt_npix {c : Config} {n : Nat} {t : Nat × Nat} (hw : 1 ≤ c.w) (hn : n < c.npix)
    (ht : t ∈ diffusionTargets c n) : t.1 < c.npix := by
  have hraster := raster_rowOf_colOf c n
  have hcol := colOf_lt n hw
  have hnext := Nat.mul_add_one c.w (rowOf c n)
  rcases mem_diffusionTargets.1 ht with ⟨hc, rfl⟩ | ⟨hr, rfl⟩ | ⟨⟨hr, -⟩, rfl⟩ | ⟨⟨hr, hc⟩, rfl⟩
  case inl =>
    have := raster_lt_npix (rowOf_lt hn) hc
    dsimp only
    omega
  case inr.inl | inr.inr.inl =>
    have := raster_lt_npix hr hcol
    dsimp only
    omega
  case inr.inr.inr =>
    have := raster_lt_npix hr hc
    dsimp only
    omega

/-- A cell that a weight reaches is a diffusion target with that weight. -/
theorem mem_diffusionTargets_of_weightTo {c : Config} {n k : Nat} (hk : k < c.npix) (hweight : weightTo c n k ≠ 0) :
    (k, weightTo c n k) ∈ diffusionTargets c n := by
  have hrow : k / c.w < c.h := rowOf_lt hk
  have hraster : c.w * (n / c.w) + n % c.w = n := raster_rowOf_colOf c n
  have hrasterK : c.w * (k / c.w) + k % c.w = k := raster_rowOf_colOf c k
  have hnext : c.w * (n / c.w + 1) = c.w * (n / c.w) + c.w := Nat.mul_add_one _ _
  have hw : 0 < c.w := Nat.pos_of_mul_pos_right (Nat.zero_lt_of_lt hk)
  have hcolK : k % c.w < c.w := colOf_lt k hw
  rw [mem_diffusionTargets]
  unfold rowOf colOf
  unfold weightTo at hweight ⊢
  split_ifs at hweight ⊢ with hright hbelow hleft hdiag
  · obtain ⟨hr, hc⟩ := hright
    rw [hr] at hrasterK
    exact .inl ⟨by omega, Prod.ext (by omega) rfl⟩
  · obtain ⟨hr, hc⟩ := hbelow
    rw [hr] at hrasterK
    exact .inr (.inl ⟨by omega, Prod.ext (by dsimp only; omega) rfl⟩)
  · obtain ⟨hr, hc⟩ := hleft
    rw [hr] at hrasterK
    exact .inr (.inr (.inl ⟨by omega, Prod.ext (by dsimp only; omega) rfl⟩))
  · obtain ⟨hr, hc⟩ := hdiag
    rw [hr] at hrasterK
    exact .inr (.inr (.inr ⟨by omega, Prod.ext (by dsimp only; omega) rfl⟩))
  · exact absurd rfl hweight

/-- No two shares of one error go to the same cell: the offsets 1, W, W - 1 and W + 1 differ where both tests pass
(1 = W - 1 only at W = 2, where no column has both a right and a left neighbour). -/
theorem diffusionTargets_pairwise_ne {c : Config} (n : Nat) (hw : 1 ≤ c.w) :
    (diffusionTargets c n).Pairwise (fun t u => t.1 ≠ u.1) := by
  unfold diffusionTargets
  split_ifs <;> simp <;> omega

/-! ### When QDF overflows (R130) -/

/-- One ADD that overflows makes the whole diffusion overflow: the additions before it go to other cells. -/
theorem spread_eq_overflow {Sample : Type} {num : Numerics Sample} {e y : Sample} {k weight : Nat}
    (hadd : num.add y (num.share e weight) = none) {targets : List (Nat × Nat)} :
    ∀ {cells : List Sample}, targets.Pairwise (fun t u => t.1 ≠ u.1) → (∀ t ∈ targets, t.1 < cells.length) →
      (k, weight) ∈ targets → cells[k]? = some y → spread num e targets cells = .error .overflow := by
  induction targets with
  | nil => intro cells _ _ hmem; cases hmem
  | cons t rest ih =>
    obtain ⟨target, w⟩ := t
    intro cells hne hlt hmem hy
    obtain ⟨hhead, hrest⟩ := List.pairwise_cons.1 hne
    have hin : target < cells.length := hlt (target, w) List.mem_cons_self
    rw [spread, List.getElem?_eq_getElem hin]
    dsimp only
    cases hsum : num.add cells[target] (num.share e w) with
    | none => rfl
    | some z =>
      rcases List.mem_cons.1 hmem with heq | hlater
      · cases heq
        cases (List.getElem?_eq_getElem hin).symm.trans hy
        rw [hadd] at hsum
        cases hsum
      · have hother : target ≠ k := hhead _ hlater
        refine ih hrest (fun u hu => ?_) hlater ?_
        · simpa using hlt u (List.mem_cons_of_mem _ hu)
        · rw [List.getElem?_set_ne hother, hy]

/-- Where no ADD overflows, no diffusion does. -/
theorem spread_ne_overflow {Sample : Type} {num : Numerics Sample} {e : Sample}
    (hadd : ∀ a b, num.add a b ≠ none) {targets : List (Nat × Nat)} :
    ∀ {cells : List Sample}, spread num e targets cells ≠ .error .overflow := by
  induction targets with
  | nil => simp [spread]
  | cons t rest ih =>
    intro cells
    rw [spread]
    split
    · simp
    · split
      · exact absurd ‹_› (hadd _ _)
      · exact ih

theorem fxCheck_eq_none_iff {accBits : Nat} {x : Int} : fxCheck accBits x = none ↔ ¬ FitsAcc accBits x := by
  rw [fxCheck_eq_none, ← Bool.not_eq_true, fxInRange_iff]

/-- QDF's work on one cell overflows where its error does, or the sum at a cell that a weight reaches (R130). -/
theorem quantizeCell_eq_overflow {Sample : Type} {num : Numerics Sample} {c : Config} {n : Nat} {cells : List Sample}
    {x : Sample} (hw : 1 ≤ c.w) (hlen : cells.length = c.npix) (hx : cells[n]? = some x)
    (hover : ∀ e, num.err x (num.level x) = some e →
      ∃ k y, cells[k]? = some y ∧ weightTo c n k ≠ 0 ∧ num.add y (num.share e (weightTo c n k)) = none) :
    quantizeCell num c n cells = .error .overflow := by
  have lt_npix {k : Nat} {y : Sample} (hy : cells[k]? = some y) : k < c.npix :=
    hlen ▸ (List.getElem?_eq_some_iff.1 hy).1
  rw [quantizeCell, hx]
  dsimp only
  cases he : num.err x (num.level x) with
  | none => rfl
  | some e =>
    obtain ⟨k, y, hy, hweight, hadd⟩ := hover e he
    have hin : ∀ t ∈ diffusionTargets c n, t.1 < cells.length := fun t ht =>
      hlen ▸ diffusionTargets_lt_npix hw (lt_npix hx) ht
    have hspread := spread_eq_overflow hadd (diffusionTargets_pairwise_ne n hw) hin
      (mem_diffusionTargets_of_weightTo (lt_npix hy) hweight) hy
    dsimp only
    rw [hspread]

theorem gridQuantize_fx_eq_overflow {c : Config} {n fracK accBits : Nat} {cells : List Int}
    (hnum : c.numerics = .fx fracK accBits)
    (h : quantizeCell (numFx fracK accBits c.ref) c n cells = .error .overflow) :
    gridQuantize c n (.fx cells) = .error .overflow := by
  simp only [gridQuantize, hnum, h]

/-- Under NUM_EXACT neither ERR nor ADD overflows, so QDF does not (R121, R130). -/
theorem gridQuantize_exact_ne_overflow {c : Config} {n : Nat} {g : Grid} (hnum : c.numerics = .exact) :
    gridQuantize c n g ≠ .error .overflow := by
  cases g with
  | fx cells => simp [gridQuantize, hnum]
  | exact cells =>
    rcases quantizeCell_cases (numExact c.ref) c n cells with
      ⟨-, hq⟩ | ⟨x, -, ⟨herr, -⟩ | ⟨e, -, ⟨r, hs, hq⟩ | ⟨cells', -, hq⟩⟩⟩
    · simp [gridQuantize, hnum, hq]
    · cases herr
    · have hr : r ≠ .overflow := fun h =>
        spread_ne_overflow (num := numExact c.ref) (fun a b => Option.some_ne_none (a + b)) (h ▸ hs)
      simp [gridQuantize, hnum, hq, hr]
    · simp [gridQuantize, hnum, hq]

theorem execQdf_of_overflow {s : State} (h : gridQuantize s.cfg s.pos s.g = .error .overflow) :
    execQdf s = .next (raiseFault .accOverflow s.pos s) := by
  simp only [execQdf, h]

/-- A QDF that does not overflow leaves the fault registers. -/
theorem execQdf_keeps_fault {s t : State} (hno : gridQuantize s.cfg s.pos s.g ≠ .error .overflow)
    (h : execQdf s = .next t) : t.fault = s.fault ∧ t.cause = s.cause ∧ t.faultInfo = s.faultInfo := by
  rcases execQdf_cases s with ⟨hover, -⟩ | ⟨f, he⟩ | ⟨level, g', -, -, he⟩
  · exact absurd hover hno
  · rw [he] at h
    cases h
  · rw [he] at h
    cases h
    simp

/-- Settles O18: the error's range check or that of one sum fails, and the other shares go to other cells; under
NUM_EXACT there is no range to leave. -/
theorem qdfOverflowFaults : Obligations.QdfOverflowFaults := by
  refine ⟨?_, fun s t hnum h => execQdf_keeps_fault (gridQuantize_exact_ne_overflow hnum) h⟩
  intro s fracK accBits cells x e level hw hnum hg hlen hx hlevel herr hover
  have hlev : levelFx fracK x = level := Fin.ext (by exact_mod_cast (levelFx_val fracK x).trans hlevel.symm)
  have hE : (numFx fracK accBits s.cfg.ref).err x ((numFx fracK accBits s.cfg.ref).level x) = fxCheck accBits e := by
    rw [herr, ← hlev]
    rfl
  have hquant : quantizeCell (numFx fracK accBits s.cfg.ref) s.cfg s.pos cells = .error .overflow := by
    refine quantizeCell_eq_overflow hw hlen hx fun e' he' => ?_
    obtain ⟨hfits, rfl⟩ := fxCheck_eq_some.1 (hE.symm.trans he')
    rcases hover with herrOut | ⟨k, y, hy, hweight, hsumOut⟩
    · exact absurd (fxInRange_iff.1 hfits) herrOut
    · exact ⟨k, y, hy, hweight, fxCheck_eq_none_iff.2 hsumOut⟩
  exact execQdf_of_overflow (hg ▸ gridQuantize_fx_eq_overflow hnum hquant)

/-! ### The thresholds of LEVEL (R124) -/

/-- Truncating toward zero and rounding down differ below zero only. -/
theorem max_truncRat_zero (x : Rat) : max (truncRat x) 0 = max ⌊x⌋ 0 := by
  rcases le_total 0 x with hx | hx
  · have htrunc : truncRat x = ⌊x⌋ := by
      rw [truncRat, Int.tdiv_eq_ediv_of_nonneg (Rat.num_nonneg.2 hx), Rat.floor_def']
    rw [htrunc]
  · have hneg : 0 ≤ (-x.num).tdiv x.den := Int.tdiv_nonneg (neg_nonneg.2 (Rat.num_nonpos.2 hx)) (by positivity)
    have htrunc : truncRat x ≤ 0 := by
      rwa [Int.neg_tdiv, neg_nonneg] at hneg
    have hfloor : ⌊x⌋ ≤ 0 := by exact_mod_cast (Int.floor_le x).trans hx
    rw [max_eq_right htrunc, max_eq_right hfloor]

/-- LEVEL under NUM_EXACT loses no bit, and clamps the integer below its argument. -/
theorem levelExact_val (x : Rat) : ((levelExact x).val : Int) = min (max ⌊x⌋ 0) 6 := by
  have hclamp : ⌊min (max x 0) 6⌋ = min (max ⌊x⌋ 0) 6 := by
    rw [Int.floor_mono.map_min, Int.floor_mono.map_max, Int.floor_zero, Int.floor_ofNat]
  have htrunc := max_truncRat_zero (min (max x 0) 6)
  have hval : (levelExact x).val = (truncRat (min (max x 0) 6)).toNat % 7 := rfl
  omega

/-- LEVEL under NUM_FX clamps the quotient by UNIT. -/
theorem levelFx_val_eq_clamp (fracK : Nat) (x : Int) :
    ((levelFx fracK x).val : Int) = min (max (x / fxUnit fracK) 0) 6 := by
  have hunit := fxUnit_pos fracK
  have hmono : Monotone (· / fxUnit fracK) := fun a b hab => Int.ediv_le_ediv hunit hab
  calc ((levelFx fracK x).val : Int)
      = min (max x 0) (6 * fxUnit fracK) / fxUnit fracK := levelFx_val fracK x
    _ = min (max (x / fxUnit fracK) (0 / fxUnit fracK)) (6 * fxUnit fracK / fxUnit fracK) := by
      rw [hmono.map_min, hmono.map_max]
    _ = min (max (x / fxUnit fracK) 0) 6 := by
      rw [Int.zero_ediv, Int.mul_ediv_cancel _ hunit.ne']

section
variable {level : Sym} {n : Int} (h : (level.val : Int) = min (max n 0) 6)
include h

theorem level_eq_zero_iff_of_clamp : level = 0 ↔ n < 1 := by
  rw [Fin.ext_iff, Fin.val_zero]
  omega

theorem level_eq_six_iff_of_clamp : level = 6 ↔ 6 ≤ n := by
  have hsix : (6 : Sym).val = 6 := rfl
  rw [Fin.ext_iff, hsix]
  omega

theorem level_eq_iff_of_clamp {l : Sym} (h1 : 1 ≤ l.val) (h5 : l.val ≤ 5) : level = l ↔ n = (l.val : Int) := by
  rw [Fin.ext_iff]
  omega

end

/-- The level of an input byte that no error has reached, under NUM_EXACT. -/
theorem levelExact_ofByte (v : Byte) : (levelExact ((v.toNat : Rat) * 6 / 255)).val = 6 * v.toNat / 255 := by
  have hfloor : ⌊(v.toNat : Rat) * 6 / 255⌋ = ((v.toNat * 6 : Nat) : Int) / (255 : Nat) := by
    rw [← Rat.floor_intCast_div_natCast]
    push_cast
    rfl
  have hval := levelExact_val ((v.toNat : Rat) * 6 / 255)
  have hv := v.isLt
  omega

/-- The level of an input byte that no error has reached, under NUM_FX: the fraction bits cancel. -/
theorem levelFx_ofByte (v : Byte) (fracK : Nat) :
    (levelFx fracK (6 * (v.toNat : Int) * 2 ^ fracK)).val = 6 * v.toNat / 255 := by
  have hquot : 6 * (v.toNat : Int) * 2 ^ fracK / fxUnit fracK = 6 * (v.toNat : Int) / 255 :=
    Int.mul_ediv_mul_of_pos_left _ _ (by positivity)
  have hval := levelFx_val_eq_clamp fracK (6 * (v.toNat : Int) * 2 ^ fracK)
  have hv := v.isLt
  omega

/-- Settles O19: either LEVEL clamps an integer, and where that integer lies is where the sample lies. -/
theorem levelThresholds : Obligations.LevelThresholds := by
  refine ⟨fun x => ?_, fun fracK x => ?_, fun v => ⟨levelExact_ofByte v, levelFx_ofByte v⟩⟩
  · have hval := levelExact_val x
    refine ⟨?_, ?_, fun l h1 h5 => ?_, ?_⟩
    · rw [level_eq_zero_iff_of_clamp hval, Int.floor_lt, Int.cast_one]
    · rw [level_eq_six_iff_of_clamp hval, Int.le_floor, Int.cast_ofNat]
    · rw [level_eq_iff_of_clamp hval h1 h5, Int.floor_eq_iff, Int.cast_natCast]
    · rw [hval, max_truncRat_zero]
  · have hval := levelFx_val_eq_clamp fracK x
    have hunit := fxUnit_pos fracK
    refine ⟨?_, ?_, fun l h1 h5 => ?_⟩
    · rw [level_eq_zero_iff_of_clamp hval, Int.ediv_lt_iff_lt_mul hunit, one_mul]
    · rw [level_eq_six_iff_of_clamp hval, Int.le_ediv_iff_mul_le hunit]
    · rw [level_eq_iff_of_clamp hval h1 h5, ← Int.le_ediv_iff_mul_le hunit, ← Int.ediv_lt_iff_lt_mul hunit]
      omega

end Sys2Proof.Machine
end

section
/-! PROOF. The Transition Modeler (spec/41_transition_modeler.md). The layers under the statements: an operation's last
line moves (OP, POS) only, each operation as one equation, an increment read back, and RANK as the number of symbols
ahead in a strict linear order. -/

namespace Sys2Proof.Machine

/-! ### The last line of an operation (44_sequencer_io.md R201) -/

theorem advance_point (i : Instr) (s : State) : ((advance i s).op, (advance i s).pos) =
    if s.pos = i.lastIndex s.cfg then (i.successor, 0) else (s.op, s.pos + 1) := by
  rw [advance_op, advance_pos]
  split <;> rfl

theorem advance_frame (i : Instr) (s : State) :
    advance i s = { s with op := (advance i s).op, pos := (advance i s).pos } := by
  rcases advance_cases i s with ⟨-, h⟩ | ⟨-, h⟩ <;> rw [h]

/-! ### Counting -/

/-- One entry of a vector of counts incremented: what every entry then reads. -/
theorem getElem_set_succ (v : Vector Nat 7) (k j : Sym) :
    (v.set k (v[k] + 1))[j] = v[j] + if j = k then 1 else 0 := by
  by_cases h : j = k
  · simp [h]
  · have hval : k.val ≠ j.val := fun e => h (Fin.ext e.symm)
    simp [h, hval]

theorem bumpTransition_getElem (t : Vector (Vector Nat 7) 7) (prev x i j : Sym) :
    (bumpTransition t prev x)[i][j] = t[i][j] + if i = prev ∧ j = x then 1 else 0 := by
  by_cases h : i = prev
  · subst h
    simpa [bumpTransition] using getElem_set_succ t[i] x j
  · have hval : prev.val ≠ i.val := fun e => h (Fin.ext e.symm)
    simp [bumpTransition, h, hval]

/-- The counts that TCN adds to: those of T, cleared at POS 0 (R141). -/
theorem startCount_t_getElem (s : State) (i j : Sym) :
    (startCount s).t[i][j] = if s.pos = 0 then 0 else s.t[i][j] := by
  rw [startCount_t]
  split <;> simp

/-- The counts that RMP adds to: those of HIST, cleared at POS 0 (R146). -/
theorem startRemap_hist_getElem (s : State) (j : Sym) :
    (startRemap s).hist[j] = if s.pos = 0 then 0 else s.hist[j] := by
  rw [startRemap_hist]
  split <;> simp

/-! ### The operations, one equation each -/

/-- TCN: the clearing at POS 0 touches only what the counting overwrites. -/
theorem exec_tcn_of_cell {s : State} {x : Sym} (hx : s.q[s.pos]? = some x) :
    exec .tcn s = .next (advance .tcn
      { s with t := bumpTransition (startCount s).t (startCount s).prev x, prev := x }) := by
  simp only [exec, execTcn, hx, startCount]
  split <;> rfl

theorem exec_rnk_of_lt {s : State} (h : s.pos < 7) :
    exec .rnk s = .next (advance .rnk { s with rk := s.rk.set s.pos (rankRow s.cfg.rankTie s.t[s.pos]) }) := by
  simp only [exec, execRnk, h, dite_true]

/-- RMP: the clearing at POS 0 touches only what the remapping overwrites. -/
theorem exec_rmp_of_cell {s : State} {x k : Sym} (hx : s.q[s.pos]? = some x) (hlen : s.pos < s.rs.length)
    (hk : k = s.rk[(if s.pos = 0 then 0 else s.prev : Sym)][x]) :
    exec .rmp s = .next (advance .rmp
      { s with
        rs := s.rs.set s.pos k
        hist := (startRemap s).hist.set k ((startRemap s).hist[k] + 1)
        prev := x }) := by
  subst hk
  simp only [exec, execRmp, hx, startRemap_pos, startRemap_prev, startRemap_rs, startRemap_rk, hlen, if_true]
  unfold startRemap
  split <;> rfl

/-- The row of RK that RNK writes (R143). -/
theorem rk_of_exec_rnk {s t : State} (h : s.pos < 7) (he : exec .rnk s = .next t) :
    t.rk[s.pos] = rankRow s.cfg.rankTie s.t[s.pos] := by
  rw [exec_rnk_of_lt h] at he
  cases he
  simp

/-! ### RANK counts the symbols ahead (R144) -/

theorem ranksAhead_iff (tie : RankTie) (cnt : Vector Nat 7) (x y : Sym) : ranksAhead tie cnt x y = true ↔
    cnt[x] < cnt[y] ∨ (cnt[y] = cnt[x] ∧ if tie = .highFirst then x < y else y < x) := by
  cases tie <;> simp [ranksAhead]

theorem ranksAhead_trans {tie : RankTie} {cnt : Vector Nat 7} {x y z : Sym} (hxy : ranksAhead tie cnt x y = true)
    (hyz : ranksAhead tie cnt y z = true) : ranksAhead tie cnt x z = true := by
  rw [ranksAhead_iff] at *
  cases tie <;> simp only [reduceCtorEq, if_true, if_false, Fin.lt_def] at * <;> omega

/-- Of two symbols one stands ahead: no tie is left. -/
theorem ranksAhead_total (tie : RankTie) (cnt : Vector Nat 7) {x y : Sym} (h : x ≠ y) :
    ranksAhead tie cnt x y = true ∨ ranksAhead tie cnt y x = true := by
  rw [ne_eq, Fin.ext_iff] at h
  rw [ranksAhead_iff, ranksAhead_iff]
  cases tie <;> simp only [reduceCtorEq, if_true, if_false, Fin.lt_def] <;> omega

theorem countP_finRange_eq_card (p : Sym → Bool) :
    (List.finRange 7).countP p = (Finset.univ.filter fun y => p y = true).card := by
  rw [Finset.card_def, Finset.filter_val, ← Multiset.countP_eq_card_filter]
  simp [Fin.univ_def]

theorem rankOf_val_eq_card (tie : RankTie) (cnt : Vector Nat 7) (x : Sym) :
    (rankOf tie cnt x).val = (Finset.univ.filter fun y => ranksAhead tie cnt x y = true).card := by
  rw [rankOf_val, countP_finRange_eq_card]

/-- The symbols ahead, told apart by how they come ahead: by their count, or by RANK_TIE. -/
theorem rankOf_val_eq_add (tie : RankTie) (cnt : Vector Nat 7) (x : Sym) : (rankOf tie cnt x).val =
    (Finset.univ.filter fun y : Sym => cnt[x] < cnt[y]).card +
    (Finset.univ.filter fun y : Sym => cnt[y] = cnt[x] ∧ (if tie = .highFirst then x < y else y < x)).card := by
  have hdisj : Disjoint (Finset.univ.filter fun y : Sym => cnt[x] < cnt[y])
      (Finset.univ.filter fun y : Sym => cnt[y] = cnt[x] ∧ (if tie = .highFirst then x < y else y < x)) :=
    Finset.disjoint_filter.2 fun y _ hlt heq => hlt.ne heq.1.symm
  simp only [rankOf_val_eq_card, ranksAhead_iff]
  rw [Finset.filter_or, Finset.card_union_of_disjoint hdisj]

/-! ### Every rank row is a permutation (R145) -/

/-- What is ahead of `y` is ahead of `x` too, and `y` besides. -/
theorem rankOf_lt_of_ranksAhead {tie : RankTie} {cnt : Vector Nat 7} {x y : Sym} (h : ranksAhead tie cnt x y = true) :
    rankOf tie cnt y < rankOf tie cnt x := by
  rw [Fin.lt_def, rankOf_val_eq_card, rankOf_val_eq_card]
  refine Finset.card_lt_card ((Finset.ssubset_iff_of_subset fun z hz => ?_).2 ⟨y, ?_, ?_⟩)
  · simp only [Finset.mem_filter_univ] at hz ⊢
    exact ranksAhead_trans h hz
  · simpa using h
  · simp

theorem rankOf_injective (tie : RankTie) (cnt : Vector Nat 7) : Function.Injective (rankOf tie cnt) := by
  intro x y hxy
  by_contra hne
  rcases ranksAhead_total tie cnt hne with h | h
  · exact (rankOf_lt_of_ranksAhead h).ne hxy.symm
  · exact (rankOf_lt_of_ranksAhead h).ne hxy

/-- Seven different ranks out of seven are all of them. -/
theorem rankRow_isPermutation (tie : RankTie) (cnt : Vector Nat 7) : IsPermutation (rankRow tie cnt) := by
  intro k
  obtain ⟨x, hx⟩ := Finite.surjective_of_injective (rankOf_injective tie cnt) k
  exact ⟨x, (rankRow_getElem tie cnt x).trans hx⟩

/-- The counts fall as the ranks rise. -/
theorem count_le_of_rank_le {tie : RankTie} {cnt : Vector Nat 7} {x y : Sym}
    (h : (rankRow tie cnt)[x] ≤ (rankRow tie cnt)[y]) : cnt[y] ≤ cnt[x] := by
  rw [rankRow_getElem, rankRow_getElem] at h
  by_contra! hlt
  have hahead : ranksAhead tie cnt x y = true := (ranksAhead_iff tie cnt x y).2 (.inl hlt)
  exact h.not_gt (rankOf_lt_of_ranksAhead hahead)

/-! ### The statements -/

/-- Settles O22, from the equation of TCN and the increment of T read back. -/
theorem tcnCountsOneTransition : Obligations.TcnCountsOneTransition := by
  intro s x hx
  refine ⟨_, exec_tcn_of_cell hx, advance_prev _ _, fun i j => ?_, advance_point _ _, ?_⟩
  · simp only [advance_t, bumpTransition_getElem, startCount_t_getElem, startCount_prev]
  · exact (advance_frame _ _).trans (by rw [advance_t, advance_prev])

/-- Settles O23: RNK writes the rank row, whose entries count the symbols ahead. -/
theorem rnkRanksOneRow : Obligations.RnkRanksOneRow := by
  intro s h
  have he := exec_rnk_of_lt h
  refine ⟨_, he, fun x => ?_, fun i hi => ?_, advance_point _ _, ?_⟩
  · rw [rk_of_exec_rnk h he, rankRow_getElem, rankOf_val_eq_add]
  · rw [advance_rk]
    exact Vector.getElem_set_ne h i.isLt hi.symm
  · exact (advance_frame _ _).trans (by rw [advance_rk])

/-- Settles O24: standing ahead is a strict linear order, so the ranks fall along it and no two are the same. -/
theorem rankRowsArePermutations : Obligations.RankRowsArePermutations := by
  refine ⟨fun tie cnt => ⟨rankRow_isPermutation tie cnt,
    fun x y hzero => count_le_of_rank_le (tie := tie) ?_, fun x y hsix => count_le_of_rank_le (tie := tie) ?_⟩,
    fun s t h he => ?_, by decide, by decide⟩
  · rw [hzero]
    exact Fin.zero_le _
  · rw [hsix]
    exact Fin.le_last _
  · rw [rk_of_exec_rnk h he]
    exact rankRow_isPermutation _ _

/-- Settles O25, from the equation of RMP and the increment of HIST read back. -/
theorem rmpRemapsOneCell : Obligations.RmpRemapsOneCell := by
  intro s x k hx hlen hk
  refine ⟨_, exec_rmp_of_cell hx hlen hk, advance_prev _ _, advance_rs _ _, fun j => ?_, advance_point _ _, ?_⟩
  · rw [advance_hist, getElem_set_succ, startRemap_hist_getElem]
  · exact (advance_frame _ _).trans (by rw [advance_rs, advance_hist, advance_prev])

end Sys2Proof.Machine
end

section
/-! PROOF. HSD (spec/42_huffman_coder.md R161): a seed's position is its rank under LOW_FIRST, so the seven positions
are a permutation and every seed survives the writes after its own. -/

namespace Sys2Proof.Machine

/-- R161's position and R144's rank are one rule. -/
theorem seedPosition_eq_rankOf (hist : Vector Nat 7) (i : Sym) : seedPosition hist i = rankOf .lowFirst hist i := by
  rw [Fin.ext_iff, seedPosition_val, rankOf_val]
  exact List.countP_congr fun j _ => by simp [ranksAhead, and_comm]

theorem seedPosition_injective (hist : Vector Nat 7) : Function.Injective (seedPosition hist) :=
  fun i j h => rankOf_injective .lowFirst hist (by simpa only [seedPosition_eq_rankOf] using h)

/-- Writing along an injective map of positions: the value at a written position is its own, and stays. -/
theorem foldl_set_getElem {α ι : Type} {n : Nat} {f : ι → Fin n} (hf : Function.Injective f) (g : ι → α) (i : ι) :
    ∀ (l : List ι) (v : Vector α n), i ∈ l ∨ v[f i] = g i →
      (l.foldl (fun v k => v.set (f k) (g k)) v)[f i] = g i
  | [], v, h => h.resolve_left List.not_mem_nil
  | k :: l, v, h => by
    refine foldl_set_getElem hf g i l (v.set (f k) (g k)) ?_
    by_cases hik : i = k
    · exact .inr (by simp [hik])
    · have hne : (f k).val ≠ (f i).val := fun e => hik (hf (Fin.ext e.symm))
      simpa [hik, hne] using h

theorem seedList_getElem (hist : Vector Nat 7) (hl : Vector HEntry 7) (i : Sym) :
    (seedList hist hl)[seedPosition hist i] = seedEntry hist i :=
  foldl_set_getElem (seedPosition_injective hist) (seedEntry hist) i _ hl (.inl (List.mem_finRange i))

theorem exec_hsd (s : State) : exec .hsd s = .next (enter .hmg (seedHuffman s)) := rfl

/-- Settles O27: each seed stands at its position, which counts the seeds ahead as RANK under LOW_FIRST does. -/
theorem hsdSeedsTheList : Obligations.HsdSeedsTheList := by
  intro s
  refine ⟨_, exec_hsd s, fun i => ⟨seedPosition s.hist i, ?_, seedList_getElem s.hist s.hl i⟩, fun m => ?_,
    rfl, rfl, rfl, rfl, rfl⟩
  · rw [seedPosition_eq_rankOf, rankOf_val_eq_add, add_right_inj]
    exact congrArg Finset.card (Finset.filter_congr fun j _ => and_comm)
  · simp

end Sys2Proof.Machine
end

section
/-! PROOF. The document's HUFF (spec/42_huffman_coder.md R172): its scan, its loop as one equation per merge, member
lists that matter as sets only, and the partition of the symbols that every merge keeps. -/

namespace Sys2Proof.Machine

/-! ### The re-insertion scan (R169) -/

theorem refInsert_eq_takeWhile (e : RefEntry) (l : List RefEntry) : refInsert e l =
    l.takeWhile (fun x => decide (e.count < x.count)) ++ e :: l.dropWhile (fun x => decide (e.count < x.count)) := by
  induction l with
  | nil => rfl
  | cons x rest ih =>
    by_cases h : x.count ≤ e.count
    · simp [refInsert, h, Nat.not_lt.2 h]
    · simp [refInsert, h, Nat.not_le.1 h, ih]

theorem refInsert_perm (e : RefEntry) (l : List RefEntry) : (refInsert e l).Perm (e :: l) := by
  rw [refInsert_eq_takeWhile]
  exact List.perm_middle.trans (by rw [List.takeWhile_append_dropWhile])

theorem refInsert_map {f : RefEntry → RefEntry} (hf : ∀ x, (f x).count = x.count) (e : RefEntry) (l : List RefEntry) :
    (refInsert e l).map f = refInsert (f e) (l.map f) := by
  induction l with
  | nil => rfl
  | cons x rest ih =>
    by_cases h : x.count ≤ e.count <;> simp [refInsert, hf, h, ih]

/-- The scan keeps the list in descending order. -/
theorem refInsert_descending {e : RefEntry} {l : List RefEntry} (h : l.Pairwise fun x y => y.count ≤ x.count) :
    (refInsert e l).Pairwise fun x y => y.count ≤ x.count := by
  induction l with
  | nil => exact List.pairwise_singleton _ e
  | cons x rest ih =>
    obtain ⟨hx, hrest⟩ := List.pairwise_cons.1 h
    by_cases hle : x.count ≤ e.count
    · have hall : ∀ y ∈ x :: rest, y.count ≤ e.count :=
        List.forall_mem_cons.2 ⟨hle, fun y hy => (hx y hy).trans hle⟩
      simpa [refInsert, hle] using And.intro (List.forall_mem_cons.1 hall) ⟨hx, hrest⟩
    · have hall : ∀ y ∈ refInsert e rest, y.count ≤ x.count := fun y hy =>
        (List.mem_cons.1 ((refInsert_perm e rest).mem_iff.1 hy)).elim (fun he => he ▸ (Nat.not_le.1 hle).le) (hx y)
      simpa [refInsert, hle] using And.intro hall (ih hrest)

/-! ### One merge of the loop -/

/-- The entry that a merge makes. -/
def refMerge (left right : RefEntry) (id : Nat) : RefEntry where
  count := left.count + right.count
  members := left.members ++ right.members
  id := id

/-- What a merge does to the result: a bit in front of the members' codes, and the node. -/
def refGraft (left right : RefEntry) (acc : RefTree) : RefTree where
  code := refPrepend true right.members (refPrepend false left.members acc.code)
  nodes := acc.nodes ++ [(left.id, right.id)]

theorem huffLoop_succ (fuel : Nat) (rest : List RefEntry) (right left : RefEntry) (id : Nat) (acc : RefTree) :
    huffLoop (fuel + 1) (rest ++ [right, left]) id acc =
      huffLoop fuel (refInsert (refMerge left right id) rest) (id + 1) (refGraft left right acc) := by
  simp [huffLoop, refMerge, refGraft]

/-- A list of two or more has a last entry and one before it. -/
theorem exists_eq_append_pair {α : Type} {l : List α} {n : Nat} (h : l.length = n + 2) :
    ∃ (rest : List α) (right left : α), l = rest ++ [right, left] ∧ rest.length = n := by
  refine ⟨l.take n, l[n], l[n + 1], ?_, by simp [h]⟩
  conv_lhs => rw [← List.take_append_drop n l]
  rw [List.drop_eq_getElem_cons, List.drop_eq_getElem_cons, List.drop_of_length_le h.le]

/-! ### Member lists matter as sets only -/

/-- The same entry with its members in ascending order, as a bit set lists them. -/
def RefEntry.normalize (e : RefEntry) : RefEntry :=
  { e with members := (List.finRange 7).filter fun m => decide (m ∈ e.members) }

theorem RefEntry.mem_normalize {e : RefEntry} {m : Sym} : m ∈ e.normalize.members ↔ m ∈ e.members := by
  simp [RefEntry.normalize]

theorem RefEntry.normalize_normalize (e : RefEntry) : e.normalize.normalize = e.normalize := by
  simp [RefEntry.normalize]

theorem refMerge_normalize (left right : RefEntry) (id : Nat) :
    (refMerge left.normalize right.normalize id).normalize = (refMerge left right id).normalize := by
  simp [refMerge, RefEntry.normalize]

theorem refGraft_normalize (left right : RefEntry) (acc : RefTree) :
    refGraft left.normalize right.normalize acc = refGraft left right acc := by
  simp only [refGraft, refPrepend, RefEntry.mem_normalize]
  rfl

/-- HUFF's result does not depend on the order in which an entry lists its members. -/
theorem huffLoop_map_normalize (fuel : Nat) : ∀ (l : List RefEntry) (id : Nat) (acc : RefTree),
    huffLoop fuel (l.map RefEntry.normalize) id acc = huffLoop fuel l id acc := by
  induction fuel with
  | zero => exact fun _ _ _ => rfl
  | succ fuel ih =>
    intro l id acc
    rcases lt_or_ge l.length 2 with hl | hl
    · match l with
      | [] | [_] => rfl
    · obtain ⟨rest, right, left, rfl, -⟩ := exists_eq_append_pair (Nat.sub_add_cancel hl).symm
      have hmap : (refInsert (refMerge left.normalize right.normalize id)
          (rest.map RefEntry.normalize)).map RefEntry.normalize =
          (refInsert (refMerge left right id) rest).map RefEntry.normalize := by
        simp only [refInsert_map (f := RefEntry.normalize) fun _ => rfl, refMerge_normalize, List.map_map,
          Function.comp_def, RefEntry.normalize_normalize]
      simp only [List.map_append, List.map_cons, List.map_nil, huffLoop_succ, refGraft_normalize]
      rw [← ih, hmap, ih]

/-! ### The member sets partition the symbols -/

/-- Every symbol is a member of exactly one entry. -/
def Partitions (l : List RefEntry) : Prop := ∀ m : Sym, l.countP (fun e => decide (m ∈ e.members)) = 1

section
variable {rest : List RefEntry} {right left : RefEntry} {m : Sym}

theorem Partitions.not_mem_right (h : Partitions (rest ++ [right, left])) (hm : m ∈ left.members) :
    m ∉ right.members := by
  intro hr
  have := h m
  simp [hm, hr] at this

theorem Partitions.not_mem_rest (h : Partitions (rest ++ [right, left]))
    (hm : m ∈ left.members ∨ m ∈ right.members) {e : RefEntry} (he : e ∈ rest) : m ∉ e.members := by
  intro hme
  have hpos : 0 < rest.countP fun e => decide (m ∈ e.members) := List.countP_pos_iff.2 ⟨e, he, by simpa using hme⟩
  have := h m
  rcases hm with hm | hm <;> simp [List.countP_cons, hm] at this <;> omega

/-- The merged entry has the members of the two that it replaces, so it counts as they did. -/
theorem Partitions.merge (h : Partitions (rest ++ [right, left])) (id : Nat) :
    Partitions (refInsert (refMerge left right id) rest) := by
  intro m
  have hcount := h m
  rw [(refInsert_perm _ _).countP_eq]
  by_cases hl : m ∈ left.members
  · simpa [List.countP_cons, refMerge, hl, h.not_mem_right hl] using hcount
  · simpa [List.countP_cons, refMerge, hl] using hcount

end

/-! ### The seeds (R161) -/

/-- The symbols in the order of the seed list. -/
def seedOrder (hist : Vector Nat 7) : List Sym := (List.finRange 7).insertionSort fun i j => hist[j] ≤ hist[i]

theorem refSeeds_eq_map (hist : Vector Nat 7) :
    refSeeds hist = (seedOrder hist).map fun i => { count := hist[i], members := [i], id := i.val } := rfl

theorem seedOrder_perm (hist : Vector Nat 7) : (seedOrder hist).Perm (List.finRange 7) := List.perm_insertionSort _ _

theorem orderedInsert_congr {α : Type} {r r' : α → α → Prop} [DecidableRel r] [DecidableRel r'] {a : α} {l : List α}
    (h : ∀ b ∈ l, r a b ↔ r' a b) : l.orderedInsert r a = l.orderedInsert r' a := by
  induction l with
  | nil => rfl
  | cons b l ih =>
    obtain ⟨hb, hl⟩ := List.forall_mem_cons.1 h
    simp [hb, ih hl]

/-- Insertion sort compares an element only with those behind it. -/
theorem insertionSort_congr {α : Type} {r r' : α → α → Prop} [DecidableRel r] [DecidableRel r'] {l : List α}
    (h : l.Pairwise fun a b => r a b ↔ r' a b) : l.insertionSort r = l.insertionSort r' := by
  induction l with
  | nil => rfl
  | cons a l ih =>
    obtain ⟨ha, hl⟩ := List.pairwise_cons.1 h
    rw [List.insertionSort_cons, List.insertionSort_cons, ih hl]
    exact orderedInsert_congr fun b hb => ha b ((List.mem_insertionSort _).1 hb)

/-- Of two seeds in id order, the counts tell which stands nearer the front (ties keep the id order). -/
theorem seedPosition_le_iff (hist : Vector Nat 7) {i j : Sym} (h : i < j) :
    seedPosition hist i ≤ seedPosition hist j ↔ hist[j] ≤ hist[i] := by
  rw [seedPosition_eq_rankOf, seedPosition_eq_rankOf]
  constructor
  · intro hle
    by_contra! hlt
    exact hle.not_gt (rankOf_lt_of_ranksAhead ((ranksAhead_iff _ _ _ _).2 (.inl hlt)))
  · intro hle
    refine (rankOf_lt_of_ranksAhead ((ranksAhead_iff _ _ _ _).2 ?_)).le
    simpa [h, eq_comm] using hle.lt_or_eq

/-- The stable sort by descending count puts every seed at its position. -/
theorem map_seedPosition_seedOrder (hist : Vector Nat 7) :
    (seedOrder hist).map (seedPosition hist) = List.finRange 7 := by
  have hsort : seedOrder hist =
      (List.finRange 7).insertionSort fun i j => seedPosition hist i ≤ seedPosition hist j :=
    insertionSort_congr ((List.pairwise_lt_finRange 7).imp fun h => (seedPosition_le_iff hist h).symm)
  have hbij : Function.Bijective (seedPosition hist) := Finite.injective_iff_bijective.1 (seedPosition_injective hist)
  have hperm : ((List.finRange 7).map (seedPosition hist)).Perm (List.finRange 7) :=
    Equiv.Perm.map_finRange_perm (Equiv.ofBijective _ hbij)
  rw [hsort, List.map_insertionSort _ (· ≤ ·) _ _ fun _ _ _ _ => Iff.rfl]
  exact List.Perm.eq_of_pairwise' (List.pairwise_insertionSort _ _)
    ((List.pairwise_lt_finRange 7).imp le_of_lt) ((List.perm_insertionSort _ _).trans hperm)

theorem refSeeds_length (hist : Vector Nat 7) : (refSeeds hist).length = 7 := by
  rw [refSeeds_eq_map, List.length_map, (seedOrder_perm hist).length_eq, List.length_finRange]

theorem partitions_refSeeds (hist : Vector Nat 7) : Partitions (refSeeds hist) := by
  intro m
  rw [refSeeds_eq_map, List.countP_map, (seedOrder_perm hist).countP_eq]
  have hone : ∀ k : Sym, (List.finRange 7).countP (fun i => decide (k = i)) = 1 := by decide
  simpa [Function.comp_def] using hone m

theorem refSeeds_descending (hist : Vector Nat 7) : (refSeeds hist).Pairwise fun x y => y.count ≤ x.count :=
  List.pairwise_map.2 (List.pairwise_insertionSort _ _)

end Sys2Proof.Machine
end

section
/-! PROOF. HMG (spec/42_huffman_coder.md R163 to R165, R169): the operation as one equation, and what it leaves in the
valid part of the list, in the tree and in the codewords. -/

namespace Sys2Proof.Machine

/-! ### The insertion into the valid part of the list -/

/-- The first `n + 1` slots after an insertion; the slots behind them do not matter. -/
theorem take_insertEntry (hl : Vector HEntry 7) {n j : Nat} (e : HEntry) (hn : n < 7) (hj : j ≤ n) :
    (insertEntry hl n j e).toList.take (n + 1) =
      (hl.toList.take n).take j ++ e :: (hl.toList.take n).drop j := by
  refine List.ext_getElem (by simp; omega) fun i hi _ => ?_
  have hi7 : i < 7 := by simp at hi; omega
  have hin : i ≤ n := by simp at hi; omega
  have hentry := insertEntry_getElem hl n j e ⟨i, hi7⟩
  simp only [Fin.getElem_fin] at hentry
  rw [List.getElem_take, Vector.getElem_toList, hentry]
  rcases lt_trichotomy i j with h | h | h
  · rw [if_pos h, List.getElem_append_left (by simp; omega)]
    simp
  · rw [if_neg h.not_lt, if_pos h, List.getElem_append_right (by simp; omega)]
    simp [h, hj, hn.le]
  · rw [if_neg h.not_gt, if_neg h.ne', if_pos hin, List.getElem_append_right (by simp; omega)]
    obtain ⟨k, rfl⟩ := Nat.exists_eq_add_of_lt h
    simp [hj, hn.le, show j + k + 1 - j = k + 1 by omega]

/-- The scan of R169: before the first entry of at most the new count, else at the end. -/
theorem take_insertEntry_scan (hl : Vector HEntry 7) {n : Nat} (e : HEntry) (hn : n < 7) :
    (insertEntry hl n (insertPosition hl n e.cnt) e).toList.take (n + 1) =
      (hl.toList.take n).takeWhile (fun x => decide (e.cnt < x.cnt)) ++
        e :: (hl.toList.take n).dropWhile (fun x => decide (e.cnt < x.cnt)) := by
  have hpos : insertPosition hl n e.cnt = (hl.toList.take n).findIdx fun x => !decide (e.cnt < x.cnt) := by
    simp only [insertPosition, ← decide_not, Nat.not_lt]
  rw [take_insertEntry hl e hn (insertPosition_le hl n e.cnt), hpos, ← List.takeWhile_eq_take_findIdx_not,
    ← List.dropWhile_eq_drop_findIdx_not]

/-! ### The operation -/

/-- The valid part of the list (R163). -/
def validList (s : State) : List HEntry := s.hl.toList.take s.hlen.toNat

/-- What HMG writes but for (OP, POS), given the last entry of the list and the one before it. -/
def mergeHuffman (s : State) (left right : HEntry) (hnode : s.nnode.toNat - 7 < 6) : State :=
  { s with
    tree := s.tree.set (s.nnode.toNat - 7) { left := left.nid, right := right.nid } hnode
    cw := Vector.ofFn fun m : Sym => mergeCodeword left right m s.cw[m]
    hl := insertEntry s.hl (s.hlen.toNat - 2)
      (insertPosition s.hl (s.hlen.toNat - 2) (mergeEntry left right s.nnode).cnt) (mergeEntry left right s.nnode)
    hlen := BitVec.ofNat 3 (s.hlen.toNat - 2 + 1)
    nnode := s.nnode + 1 }

section
variable {s : State} {rest : List HEntry} {left right : HEntry} (hlist : validList s = rest ++ [right, left])
include hlist

theorem hlen_of_validList : s.hlen.toNat = rest.length + 2 := by
  have hlen := congrArg List.length hlist
  have := s.hlen.isLt
  simp [validList] at hlen
  omega

theorem exec_hmg (hlow : 7 ≤ s.nnode.toNat) (hnode : s.nnode.toNat - 7 < 6) :
    exec .hmg s = .next (advance .hmg (mergeHuffman s left right hnode)) := by
  have hlen := hlen_of_validList hlist
  have hentry (k : Nat) (hk : k < 7) (hkl : k < s.hlen.toNat) : (rest ++ [right, left])[k]? = some s.hl[k] := by
    rw [← hlist]
    simp [validList, hkl]
  have hleft : s.hl[s.hlen.toNat - 1] = left := by
    simpa [hlen] using (hentry (s.hlen.toNat - 1) (by omega) (by omega)).symm
  have hright : s.hl[s.hlen.toNat - 2] = right := by
    simpa [hlen] using (hentry (s.hlen.toNat - 2) (by omega) (by omega)).symm
  have htwo : 2 ≤ s.hlen.toNat := by omega
  simp only [exec, execHmg, dif_pos htwo, dif_pos (And.intro hlow hnode), hleft, hright]
  rfl

variable (hnode : s.nnode.toNat - 7 < 6)

theorem mergeHuffman_hlen : (mergeHuffman s left right hnode).hlen.toNat = rest.length + 1 := by
  have hlen := hlen_of_validList hlist
  have := s.hlen.isLt
  simp [mergeHuffman, hlen]
  omega

theorem validList_mergeHuffman : validList (mergeHuffman s left right hnode) =
    rest.takeWhile (fun x => decide (left.cnt + right.cnt < x.cnt)) ++
      mergeEntry left right s.nnode :: rest.dropWhile (fun x => decide (left.cnt + right.cnt < x.cnt)) := by
  have hlen := hlen_of_validList hlist
  have hrest : s.hl.toList.take rest.length = rest := by
    have htake := congrArg (List.take rest.length) hlist
    simpa [validList, List.take_take, hlen] using htake
  have hscan := take_insertEntry_scan s.hl (mergeEntry left right s.nnode)
    (n := rest.length) (by have := s.hlen.isLt; omega)
  rw [validList, mergeHuffman_hlen hlist]
  simp only [mergeHuffman, hlen, Nat.add_sub_cancel]
  rwa [hrest] at hscan

end

theorem mergeHuffman_nnode (s : State) (left right : HEntry) (hnode : s.nnode.toNat - 7 < 6) :
    (mergeHuffman s left right hnode).nnode = s.nnode + 1 := rfl

theorem mergeHuffman_tree_getElem {s : State} (left right : HEntry) (hlow : 7 ≤ s.nnode.toNat)
    (hnode : s.nnode.toNat - 7 < 6) (k : Fin 6) : (mergeHuffman s left right hnode).tree[k] =
      if k.val + 7 = s.nnode.toNat then { left := left.nid, right := right.nid } else s.tree[k] := by
  simp only [mergeHuffman, Fin.getElem_fin, Vector.getElem_set]
  exact if_congr (by omega) rfl rfl

theorem mergeHuffman_cw_getElem (s : State) (left right : HEntry) (hnode : s.nnode.toNat - 7 < 6) (m : Sym) :
    (mergeHuffman s left right hnode).cw[m] = mergeCodeword left right m s.cw[m] := by
  simp [mergeHuffman]

/-! ### A codeword after a merge (R165) -/

section
variable {left right : HEntry} {m : Sym} (c : Codeword)

theorem mergeCodeword_of_left (hl : left.mem.getLsbD m.val = true) (hr : right.mem.getLsbD m.val = false) :
    mergeCodeword left right m c = prependBit false c := by
  simp only [mergeCodeword, hl, hr, Bool.false_eq_true, if_true, if_false]

theorem mergeCodeword_of_right (hl : left.mem.getLsbD m.val = false) (hr : right.mem.getLsbD m.val = true) :
    mergeCodeword left right m c = prependBit true c := by
  simp only [mergeCodeword, hl, hr, Bool.false_eq_true, if_true, if_false]

theorem mergeCodeword_of_neither (hl : left.mem.getLsbD m.val = false) (hr : right.mem.getLsbD m.val = false) :
    mergeCodeword left right m c = c := by
  simp only [mergeCodeword, hl, hr, Bool.false_eq_true, if_false]

end

/-- Settles O28, from the equation of HMG: the scan splits the rest at the first entry of at most the merged count. -/
theorem hmgMergesTheLastTwo : Obligations.HmgMergesTheLastTwo := by
  intro s rest left right hlist hlow hhigh
  have hnode : s.nnode.toNat - 7 < 6 := by omega
  refine ⟨_, rest.takeWhile fun x => decide (left.cnt + right.cnt < x.cnt),
    rest.dropWhile fun x => decide (left.cnt + right.cnt < x.cnt), exec_hmg hlist hlow hnode,
    List.takeWhile_append_dropWhile.symm, fun e he => ?_, fun e he => ?_, ?_, ?_, ?_, fun k => ?_, fun m => ⟨?_, ?_, ?_⟩,
    advance_point _ _, ?_⟩
  · simpa using List.mem_takeWhile_imp he
  · have hstop := List.head?_dropWhile_not (fun x => decide (left.cnt + right.cnt < x.cnt)) rest
    rw [Option.mem_def.1 he] at hstop
    simpa using hstop
  · rw [advance_hl, advance_hlen]
    exact validList_mergeHuffman hlist hnode
  · rw [advance_hlen, mergeHuffman_hlen hlist, hlen_of_validList hlist]
  · rw [advance_nnode, mergeHuffman_nnode]
  · rw [advance_tree, mergeHuffman_tree_getElem left right hlow hnode k]
  · intro hl hr
    rw [advance_cw, mergeHuffman_cw_getElem, mergeCodeword_of_left _ hl hr]
    rfl
  · intro hl hr
    rw [advance_cw, mergeHuffman_cw_getElem, mergeCodeword_of_right _ hl hr]
    rfl
  · intro hl hr
    rw [advance_cw, mergeHuffman_cw_getElem, mergeCodeword_of_neither _ hl hr]
  · exact (advance_frame _ _).trans (by rw [advance_hl, advance_tree, advance_cw, advance_hlen, advance_nnode]; rfl)

end Sys2Proof.Machine
end

section
/-! PROOF. The Huffman stage is HUFF (spec/42_huffman_coder.md R172). Between two merges the machine's list, codewords
and tree stand for a state of the document's loop, HSD makes its first state, and each HMG does one turn. -/

namespace Sys2Proof.Machine

/-! ### Codewords as bit strings (10_state.md R38, R165) -/

/-- A codeword's normal form: no bit stands above its length. -/
def Codeword.Normal (c : Codeword) : Prop := c.len.toNat ≤ 6 ∧ c.bits.toNat < 2 ^ c.len.toNat

theorem Codeword.toBits_length (c : Codeword) : c.toBits.length = c.len.toNat := by
  simp [Codeword.toBits]

section
variable {c : Codeword} (hc : c.Normal) (hlen : c.len.toNat ≤ 5) (b : Bool)
include hlen

theorem prependBit_len_toNat : (prependBit b c).len.toNat = c.len.toNat + 1 := by
  have hone : (1 : BitVec 3).toNat = 1 := rfl
  rw [prependBit_len, BitVec.toNat_add, hone]
  omega

include hc

theorem prependBit_bits_toNat : (prependBit b c).bits.toNat = 2 ^ c.len.toNat * b.toNat + c.bits.toNat := by
  have hpow : 2 ^ c.len.toNat ≤ 2 ^ 5 := Nat.pow_le_pow_right (by decide) hlen
  have hbits := hc.2
  cases b
  · simp
  · simp only [prependBit_true_bits, BitVec.toNat_add, BitVec.toNat_ofNat, Bool.toNat_true]
    omega

theorem prependBit_normal : (prependBit b c).Normal := by
  have hbits := hc.2
  refine ⟨by rw [prependBit_len_toNat hlen]; omega, ?_⟩
  rw [prependBit_len_toNat hlen, prependBit_bits_toNat hc hlen, pow_succ]
  have := Nat.mul_le_mul_left (2 ^ c.len.toNat) b.toNat_le
  omega

/-- A codeword grows at its front. -/
theorem toBits_prependBit : (prependBit b c).toBits = b :: c.toBits := by
  have hbit (i : Nat) : (prependBit b c).bits.getLsbD i = (2 ^ c.len.toNat * b.toNat + c.bits.toNat).testBit i := by
    rw [BitVec.getLsbD, prependBit_bits_toNat hc hlen]
  have hfirst : (prependBit b c).bits.getLsbD c.len.toNat = b := by
    rw [hbit]
    cases b <;> simp [Nat.testBit_two_pow_add_eq, Nat.testBit_lt_two_pow hc.2]
  have hothers (i : Nat) (hi : i < c.len.toNat) : (prependBit b c).bits.getLsbD i = c.bits.getLsbD i := by
    rw [hbit, BitVec.getLsbD]
    cases b <;> simp [Nat.testBit_two_pow_add_gt hi]
  rw [Codeword.toBits, prependBit_len_toNat hlen, List.range_succ_eq_map, List.map_cons, List.map_map, Codeword.toBits]
  refine congrArg₂ List.cons hfirst (List.map_congr_left fun i hi => ?_)
  have hi := List.mem_range.1 hi
  rw [← hothers _ (by omega)]
  exact congrArg (prependBit b c).bits.getLsbD (by simp only [Nat.succ_eq_add_one]; omega)

end

/-! ### The valid part of HL as the list of R172 -/

/-- An entry of HL as an entry of R172. -/
def HEntry.toRef (e : HEntry) : RefEntry where
  count := e.cnt
  members := (List.finRange 7).filter fun m => e.mem.getLsbD m.val
  id := e.nid.toNat

theorem listed_eq_map (s : State) : listed s = (validList s).map HEntry.toRef := rfl

theorem HEntry.mem_toRef {e : HEntry} {m : Sym} : m ∈ e.toRef.members ↔ e.mem.getLsbD m.val = true := by
  simp [HEntry.toRef]

theorem HEntry.toRef_normalize (e : HEntry) : e.toRef.normalize = e.toRef := by
  simp [HEntry.toRef, RefEntry.normalize]

theorem toRef_mergeEntry (left right : HEntry) (nid : NodeId) :
    (mergeEntry left right nid).toRef = (refMerge left.toRef right.toRef nid.toNat).normalize := by
  simp [HEntry.toRef, refMerge, RefEntry.normalize]

theorem listed_mergeHuffman {s : State} {rest : List HEntry} {left right : HEntry}
    (hlist : validList s = rest ++ [right, left]) (hnode : s.nnode.toNat - 7 < 6) :
    listed (mergeHuffman s left right hnode) =
      (refInsert (refMerge left.toRef right.toRef s.nnode.toNat) (rest.map HEntry.toRef)).map RefEntry.normalize := by
  have hcount (x : HEntry) : x.toRef.count = x.cnt := rfl
  have hmerged : (refMerge left.toRef right.toRef s.nnode.toNat).normalize.count = left.cnt + right.cnt := rfl
  rw [listed_eq_map, validList_mergeHuffman hlist, refInsert_map (f := RefEntry.normalize) fun _ => rfl, List.map_map]
  simp only [Function.comp_def, HEntry.toRef_normalize]
  rw [refInsert_eq_takeWhile, List.takeWhile_map, List.dropWhile_map, List.map_append, List.map_cons, toRef_mergeEntry]
  simp only [Function.comp_def, hcount, hmerged]

/-- The valid part of the list, slot by slot. -/
theorem validList_eq_map (s : State) :
    validList s = ((List.finRange 7).filter fun q => decide (q.val < s.hlen.toNat)).map fun q => s.hl[q] := by
  have htake : ∀ n : Fin 8, (List.finRange 7).take n.val = (List.finRange 7).filter fun q => decide (q.val < n.val) := by
    decide
  have hslots : s.hl.toList = (List.finRange 7).map fun q => s.hl[q] := by
    refine List.ext_getElem (by simp) fun i _ _ => by simp
  rw [validList, hslots, ← List.map_take]
  exact congrArg _ (htake ⟨s.hlen.toNat, s.hlen.isLt⟩)

/-- The partition clause of `Merging`, as a count over the list. -/
theorem partitions_listed_iff (s : State) : Partitions (listed s) ↔
    ∀ m : Sym, ∃ q : Sym, q.val < s.hlen.toNat ∧ s.hl[q].mem.getLsbD m.val = true ∧
      ∀ p : Sym, p.val < s.hlen.toNat → s.hl[p].mem.getLsbD m.val = true → p = q := by
  refine forall_congr' fun m => ?_
  rw [listed_eq_map, validList_eq_map, List.countP_map, List.countP_map, List.countP_filter, countP_finRange_eq_card,
    ← Fintype.existsUnique_iff_card_one]
  simp only [Function.comp_apply, HEntry.mem_toRef, Bool.and_eq_true, decide_eq_true_eq, ExistsUnique]
  exact exists_congr fun q => by grind

/-- The order clause of `Merging`, over the list. -/
theorem descending_listed_iff (s : State) : ((listed s).Pairwise fun x y => y.count ≤ x.count) ↔
    ∀ p q : Sym, p < q → q.val < s.hlen.toNat → s.hl[q].cnt ≤ s.hl[p].cnt := by
  rw [listed_eq_map, validList_eq_map, List.pairwise_map, List.pairwise_map, List.pairwise_filter, ← List.ofFn_id,
    List.pairwise_ofFn]
  simp only [decide_eq_true_eq, id]
  exact ⟨fun h p q hpq hq => h hpq (lt_trans hpq hq) hq, fun h p q hpq _ hq => h p q hpq hq⟩

/-! ### One merge is one turn of the loop -/

/-- What holds before HMG@POS, and after the last one with POS read as 6: `Merging`, codewords in normal form, and
HLEN and NNODE counting the merges (R162). -/
structure BetweenMerges (s : State) : Prop where
  merging : Merging s
  normal : ∀ m : Sym, s.cw[m].Normal
  hlen : s.hlen.toNat = 7 - s.pos
  nnode : s.nnode.toNat = 7 + s.pos

/-- The state after a merge, with POS as the number of merges done even where that is 6 (R162). -/
def afterMerge (s : State) (left right : HEntry) (hnode : s.nnode.toNat - 7 < 6) : State :=
  { mergeHuffman s left right hnode with pos := s.pos + 1 }

/-- Only what the Huffman Coder writes, and (OP, POS), has changed. -/
def OnlyHuffmanChanged (s t : State) : Prop :=
  t = { s with hl := t.hl, tree := t.tree, cw := t.cw, hlen := t.hlen, nnode := t.nnode, op := t.op, pos := t.pos }

theorem OnlyHuffmanChanged.trans {s t u : State} (hst : OnlyHuffmanChanged s t) (htu : OnlyHuffmanChanged t u) :
    OnlyHuffmanChanged s u := by
  unfold OnlyHuffmanChanged at *
  rw [htu, hst]

theorem OnlyHuffmanChanged.advance_mergeHuffman (s : State) (left right : HEntry) (hnode : s.nnode.toNat - 7 < 6) :
    OnlyHuffmanChanged s (advance .hmg (mergeHuffman s left right hnode)) :=
  (advance_frame _ _).trans (by rw [advance_hl, advance_tree, advance_cw, advance_hlen, advance_nnode]; rfl)

theorem OnlyHuffmanChanged.enter_seedHuffman (s : State) : OnlyHuffmanChanged s (enter .hmg (seedHuffman s)) := rfl

section
variable {s : State} {rest : List HEntry} {left right : HEntry}

/-- A codeword gets at most one bit: no symbol is a member of both entries. -/
theorem mergeCodeword_cases (hpart : Partitions (listed s)) (hlist : validList s = rest ++ [right, left]) (m : Sym)
    (c : Codeword) :
    (m ∈ left.toRef.members ∧ m ∉ right.toRef.members ∧ mergeCodeword left right m c = prependBit false c) ∨
    (m ∉ left.toRef.members ∧ m ∈ right.toRef.members ∧ mergeCodeword left right m c = prependBit true c) ∨
    (m ∉ left.toRef.members ∧ m ∉ right.toRef.members ∧ mergeCodeword left right m c = c) := by
  rw [listed_eq_map, hlist, List.map_append] at hpart
  have hdisj : m ∈ left.toRef.members → m ∉ right.toRef.members := hpart.not_mem_right
  by_cases hl : m ∈ left.toRef.members
  · have hr := hdisj hl
    refine .inl ⟨hl, hr, mergeCodeword_of_left c (HEntry.mem_toRef.1 hl) ?_⟩
    simpa only [HEntry.mem_toRef, Bool.not_eq_true] using hr
  · have hl' : left.mem.getLsbD m.val = false := by simpa only [HEntry.mem_toRef, Bool.not_eq_true] using hl
    by_cases hr : m ∈ right.toRef.members
    · exact .inr (.inl ⟨hl, hr, mergeCodeword_of_right c hl' (HEntry.mem_toRef.1 hr)⟩)
    · refine .inr (.inr ⟨hl, hr, mergeCodeword_of_neither c hl' ?_⟩)
      simpa only [HEntry.mem_toRef, Bool.not_eq_true] using hr

theorem codeOf_getElem (s : State) (m : Sym) : (codeOf s)[m] = s.cw[m].toBits := by
  simp [codeOf]

/-- The machine's result so far, as that of the loop of R172. -/
def treeSoFar (s : State) : RefTree where
  code := codeOf s
  nodes := (s.tree.toList.take s.pos).map TreeNode.pair

variable (h : BetweenMerges s) (hpos : s.pos < 6) (hlist : validList s = rest ++ [right, left])
  (hnode : s.nnode.toNat - 7 < 6)
include h hpos hlist

theorem BetweenMerges.codeOf_mergeHuffman : codeOf (mergeHuffman s left right hnode) =
    refPrepend true right.toRef.members (refPrepend false left.toRef.members (codeOf s)) := by
  refine Vector.ext fun i hi => ?_
  have hlen : s.cw[i].len.toNat ≤ 5 := (h.merging.short ⟨i, hi⟩).trans (by omega)
  have hnormal : s.cw[i].Normal := h.normal ⟨i, hi⟩
  have hcode := codeOf_getElem (mergeHuffman s left right hnode) ⟨i, hi⟩
  rw [mergeHuffman_cw_getElem] at hcode
  refine hcode.trans ?_
  rcases mergeCodeword_cases ((partitions_listed_iff s).2 h.merging.partition) hlist ⟨i, hi⟩ s.cw[i] with
      ⟨hl, hr, he⟩ | ⟨hl, hr, he⟩ | ⟨hl, hr, he⟩ <;>
    simp [he, refPrepend, hl, hr, codeOf, toBits_prependBit hnormal hlen]

theorem BetweenMerges.treeSoFar_afterMerge :
    treeSoFar (afterMerge s left right hnode) =
      refGraft left.toRef right.toRef (treeSoFar s) := by
  have hslot : s.nnode.toNat - 7 = s.pos := by rw [h.nnode]; omega
  have hnodes : (mergeHuffman s left right hnode).tree.toList.take (s.pos + 1) =
      s.tree.toList.take s.pos ++ [{ left := left.nid, right := right.nid }] := by
    simp [mergeHuffman, hslot, List.take_add_one, hpos, Vector.toList_set, List.take_set, List.set_eq_of_length_le]
  have hpairs := congrArg (List.map TreeNode.pair) hnodes
  rw [List.map_append] at hpairs
  exact congrArg₂ RefTree.mk (h.codeOf_mergeHuffman hpos hlist hnode) hpairs

theorem BetweenMerges.cw_mergeHuffman (m : Sym) : (mergeHuffman s left right hnode).cw[m].Normal ∧
    (mergeHuffman s left right hnode).cw[m].len.toNat ≤ s.pos + 1 := by
  have hshort := h.merging.short m
  have hlen : s.cw[m].len.toNat ≤ 5 := hshort.trans (by omega)
  rw [mergeHuffman_cw_getElem]
  rcases mergeCodeword_cases ((partitions_listed_iff s).2 h.merging.partition) hlist m s.cw[m] with
      ⟨-, -, he⟩ | ⟨-, -, he⟩ | ⟨-, -, he⟩ <;> rw [he]
  · exact ⟨prependBit_normal (h.normal m) hlen _, by rw [prependBit_len_toNat hlen]; omega⟩
  · exact ⟨prependBit_normal (h.normal m) hlen _, by rw [prependBit_len_toNat hlen]; omega⟩
  · exact ⟨h.normal m, by omega⟩

theorem BetweenMerges.merge : BetweenMerges (afterMerge s left right hnode) := by
  have hlisted : listed s = rest.map HEntry.toRef ++ [right.toRef, left.toRef] := by
    rw [listed_eq_map, hlist, List.map_append]
    rfl
  have hlisted' : listed (afterMerge s left right hnode) = _ :=
    listed_mergeHuffman hlist hnode
  have hhlen := mergeHuffman_hlen hlist hnode
  have hrest := hlen_of_validList hlist
  have hcw := h.cw_mergeHuffman hpos hlist hnode
  have hold := h.merging
  have hpart := (partitions_listed_iff s).2 hold.partition
  have hdesc := (descending_listed_iff s).2 hold.descending
  rw [hlisted] at hpart hdesc
  refine ⟨⟨?_, fun m => (hcw m).2, ?_, ?_⟩, fun m => (hcw m).1, ?_, ?_⟩
  · refine (partitions_listed_iff _).1 ?_
    rw [hlisted']
    intro m
    simpa [List.countP_map, Function.comp_def, RefEntry.mem_normalize] using hpart.merge s.nnode.toNat m
  · refine (descending_listed_iff _).1 ?_
    rw [hlisted', List.pairwise_map]
    exact refInsert_descending (List.pairwise_append.1 hdesc).1
  · have hturn : huffLoop (6 - s.pos) (listed s) (7 + s.pos) (treeSoFar s) = huff s.hist := hold.remaining
    have hfuel : 6 - s.pos = 6 - (s.pos + 1) + 1 := by omega
    rw [hlisted, hfuel, huffLoop_succ, ← huffLoop_map_normalize, ← h.nnode, ← hlisted',
      ← h.treeSoFar_afterMerge hpos hlist hnode] at hturn
    rwa [h.nnode] at hturn
  · exact hhlen.trans (by have := h.hlen; simp [afterMerge]; omega)
  · have hone : (1 : BitVec 4).toNat = 1 := rfl
    change (s.nnode + 1).toNat = 7 + (s.pos + 1)
    rw [BitVec.toNat_add, hone, h.nnode]
    omega

end

/-! ### The whole stage -/

/-- HMG@POS answers, and leaves what holds after one more merge. -/
theorem BetweenMerges.exec_hmg {s : State} (h : BetweenMerges s) (hpos : s.pos < 6) :
    ∃ (left right : HEntry) (hnode : s.nnode.toNat - 7 < 6),
      exec .hmg s = .next (advance .hmg (mergeHuffman s left right hnode)) ∧
        BetweenMerges (afterMerge s left right hnode) := by
  have hhlen := h.hlen
  have hnnode := h.nnode
  have hlength : (validList s).length = 5 - s.pos + 2 := by
    simp only [validList, List.length_take, Vector.length_toList]
    omega
  obtain ⟨rest, right, left, hlist, -⟩ := exists_eq_append_pair hlength
  have hnode : s.nnode.toNat - 7 < 6 := by omega
  exact ⟨left, right, hnode, Machine.exec_hmg hlist (by omega) hnode, h.merge hpos hlist hnode⟩

/-- After the sixth merge nothing of the loop remains. -/
theorem BetweenMerges.treeSoFar_eq_huff {s : State} (h : BetweenMerges s) (hpos : s.pos = 6) :
    codeOf s = (huff s.hist).code ∧ s.tree.toList.map TreeNode.pair = (huff s.hist).nodes := by
  have hdone := h.merging.remaining
  rw [hpos, huffLoop, List.take_of_length_le (by simp)] at hdone
  exact ⟨congrArg RefTree.code hdone, congrArg RefTree.nodes hdone⟩

/-- HSD puts the seeds in the order of the stable sort. -/
theorem listed_seedHuffman (s : State) : listed (seedHuffman s) = refSeeds s.hist := by
  have hslots : (seedList s.hist s.hl).toList = (seedOrder s.hist).map (seedEntry s.hist) := by
    calc (seedList s.hist s.hl).toList
        = (List.finRange 7).map fun q => (seedList s.hist s.hl)[q] := List.ext_getElem (by simp) fun i _ _ => by simp
      _ = (seedOrder s.hist).map (seedEntry s.hist) := by
          rw [← map_seedPosition_seedOrder s.hist, List.map_map]
          exact List.map_congr_left fun i _ => seedList_getElem s.hist s.hl i
  have hentry (i : Sym) : (seedEntry s.hist i).toRef = { count := s.hist[i], members := [i], id := i.val } := by
    have hmem : ∀ i : Sym,
        (List.finRange 7).filter (fun m => (BitVec.ofNat 7 (2 ^ i.val)).getLsbD m.val) = [i] := by decide
    have hnid : ∀ i : Sym, (BitVec.ofNat 4 i.val).toNat = i.val := by decide
    simp only [HEntry.toRef, seedEntry, hmem, hnid]
  have hall : validList (seedHuffman s) = (seedList s.hist s.hl).toList := List.take_of_length_le (by simp)
  rw [listed_eq_map, hall, hslots, List.map_map, refSeeds_eq_map]
  exact List.map_congr_left fun i _ => hentry i

theorem betweenMerges_seedHuffman (s : State) : BetweenMerges (enter .hmg (seedHuffman s)) := by
  have hlisted : listed (enter .hmg (seedHuffman s)) = refSeeds s.hist := listed_seedHuffman s
  have hcw (m : Sym) : (enter .hmg (seedHuffman s)).cw[m] = { len := 0, bits := 0 } := by simp
  have hcode : codeOf (enter .hmg (seedHuffman s)) = Vector.replicate 7 [] := by
    simp [codeOf, Codeword.toBits]
  refine ⟨⟨?_, fun m => ?_, ?_, ?_⟩, fun m => ?_, rfl, rfl⟩
  · exact (partitions_listed_iff _).1 (hlisted ▸ partitions_refSeeds s.hist)
  · rw [hcw]
    exact Nat.zero_le _
  · exact (descending_listed_iff _).1 (hlisted ▸ refSeeds_descending s.hist)
  · rw [hlisted, hcode]
    rfl
  · rw [hcw]
    exact ⟨by decide, by decide⟩

theorem run_succ {s t : State} (k : Nat) (h : step s = .next t) : core.run (k + 1) s = core.run k t := by
  have hstep : core.step s = .next t := h
  simp only [Host.Core.run, hstep]

theorem step_of_op {s : State} {i : Instr} (hop : s.op = i) (hfault : s.fault = false) : step s = exec i s := by
  rcases step_cases s with ⟨hset, -⟩ | ⟨-, hstep⟩
  · rw [hfault] at hset
    cases hset
  · rw [hstep, hop]

/-- The remaining merges, by induction on how many there are after this one. -/
theorem run_merges (k : Nat) : ∀ s : State, s.op = .hmg → s.fault = false → s.pos + (k + 1) = 6 → BetweenMerges s →
    ∃ t, core.run (k + 1) s = .next t ∧ t.op = .erk ∧ t.pos = 0 ∧ codeOf t = (huff s.hist).code ∧
      t.tree.toList.map TreeNode.pair = (huff s.hist).nodes ∧ OnlyHuffmanChanged s t := by
  induction k with
  | zero =>
    intro s hop hfault hcount h
    have hpos : s.pos = 5 := by omega
    obtain ⟨left, right, hnode, hexec, hnext⟩ := h.exec_hmg (by omega)
    obtain ⟨hcode, hnodes⟩ := hnext.treeSoFar_eq_huff (congrArg (· + 1) hpos)
    have hlast : advance .hmg (mergeHuffman s left right hnode) =
        { mergeHuffman s left right hnode with op := .erk, pos := 0 } := if_pos hpos
    refine ⟨_, run_succ 0 ((step_of_op hop hfault).trans hexec), ?_, ?_, ?_, ?_,
      .advance_mergeHuffman s left right hnode⟩ <;> rw [hlast]
    · exact hcode
    · exact hnodes
  | succ k ih =>
    intro s hop hfault hcount h
    obtain ⟨left, right, hnode, hexec, hnext⟩ := h.exec_hmg (by omega)
    have hframe := OnlyHuffmanChanged.advance_mergeHuffman s left right hnode
    have hmore : advance .hmg (mergeHuffman s left right hnode) = afterMerge s left right hnode :=
      if_neg (show s.pos ≠ 5 by omega)
    rw [hmore] at hexec hframe
    have hcount' : s.pos + 1 + (k + 1) = 6 := by omega
    obtain ⟨t, hrun, htop, htpos, hcode, hnodes, hrest⟩ := ih (afterMerge s left right hnode) hop hfault hcount' hnext
    exact ⟨t, (run_succ _ ((step_of_op hop hfault).trans hexec)).trans hrun, htop, htpos, hcode, hnodes,
      hframe.trans hrest⟩

/-- Settles O29: HSD makes the loop's first state, and six merges are its six turns. -/
theorem huffmanStageIsHuff : Obligations.HuffmanStageIsHuff := by
  intro s hop hpos hfault
  obtain ⟨t, hrun, htop, htpos, hcode, hnodes, hframe⟩ :=
    run_merges 5 (enter .hmg (seedHuffman s)) rfl hfault rfl (betweenMerges_seedHuffman s)
  exact ⟨t, (run_succ 6 ((step_of_op hop hfault).trans (exec_hsd s))).trans hrun, htop, htpos, hcode, hnodes,
    (OnlyHuffmanChanged.enter_seedHuffman s).trans hframe⟩

end Sys2Proof.Machine
end

section
/-! PROOF. Laws of the codewords (spec/42_huffman_coder.md R168). Every entry of the list of R172 is a complete binary
code for its members; a merge makes one such code of two, and the last entry has all seven symbols. -/

namespace Sys2Proof.Machine

/-! ### Complete codes -/

/-- The code strings of some symbols are the leaves of a full binary tree, in two laws: none begins another, and
the Kraft sum is 1 (R168 (b), (c)). -/
structure CompleteCode (code : Vector (List Bool) 7) (members : Finset Sym) : Prop where
  prefixFree : ∀ m ∈ members, ∀ k ∈ members, m ≠ k → ¬ code[m] <+: code[k]
  kraft : (∑ m ∈ members, (1 / 2 ^ code[m].length : Rat)) = 1

theorem CompleteCode.congr {code code' : Vector (List Bool) 7} {members : Finset Sym} (h : CompleteCode code members)
    (hsame : ∀ m ∈ members, code'[m] = code[m]) : CompleteCode code' members where
  prefixFree m hm k hk := by
    rw [hsame m hm, hsame k hk]
    exact h.prefixFree m hm k hk
  kraft := (Finset.sum_congr rfl fun m hm => by rw [hsame m hm]).trans h.kraft

/-- One bit in front of all strings halves the Kraft sum. -/
theorem CompleteCode.sum_of_cons {code code' : Vector (List Bool) 7} {members : Finset Sym}
    (h : CompleteCode code members) {b : Bool} (hcons : ∀ m ∈ members, code'[m] = b :: code[m]) :
    (∑ m ∈ members, (1 / 2 ^ code'[m].length : Rat)) = 1 / 2 := by
  calc (∑ m ∈ members, (1 / 2 ^ code'[m].length : Rat))
      = ∑ m ∈ members, 1 / 2 * (1 / 2 ^ code[m].length : Rat) :=
        Finset.sum_congr rfl fun m hm => by rw [hcons m hm, List.length_cons, pow_succ']; ring
    _ = 1 / 2 := by rw [← Finset.mul_sum, h.kraft, mul_one]

/-- Two complete codes under one node: '0' before the left one's strings, '1' before the right one's. -/
theorem CompleteCode.union {code code' : Vector (List Bool) 7} {left right : Finset Sym} (hl : CompleteCode code left)
    (hr : CompleteCode code right) (hdisj : Disjoint left right) (hcl : ∀ m ∈ left, code'[m] = false :: code[m])
    (hcr : ∀ m ∈ right, code'[m] = true :: code[m]) : CompleteCode code' (left ∪ right) where
  prefixFree m hm k hk hne := by
    rcases Finset.mem_union.1 hm with hm | hm <;> rcases Finset.mem_union.1 hk with hk | hk
    · rw [hcl m hm, hcl k hk, List.prefix_cons_inj]
      exact hl.prefixFree m hm k hk hne
    · simp [hcl m hm, hcr k hk]
    · simp [hcr m hm, hcl k hk]
    · rw [hcr m hm, hcr k hk, List.prefix_cons_inj]
      exact hr.prefixFree m hm k hk hne
  kraft := by
    rw [Finset.sum_union hdisj, hl.sum_of_cons hcl, hr.sum_of_cons hcr]
    norm_num

/-- The empty string begins every other, so no string of the seven is empty. -/
theorem CompleteCode.length_pos {code : Vector (List Bool) 7} (h : CompleteCode code Finset.univ) (m : Sym) :
    1 ≤ code[m].length := by
  by_contra! hzero
  have hnil : code[m] = [] := List.length_eq_zero_iff.1 (Nat.lt_one_iff.1 hzero)
  obtain ⟨k, hk⟩ := exists_ne m
  exact h.prefixFree m (Finset.mem_univ m) k (Finset.mem_univ k) hk.symm (hnil ▸ List.nil_prefix)

/-! ### Every entry of the list is a complete code -/

/-- What the loop of R172 keeps: the entries partition the symbols, each is a complete code, and no code string is
longer than the merges done (the list starts with seven entries). -/
structure CodeForest (list : List RefEntry) (code : Vector (List Bool) 7) : Prop where
  partitions : Partitions list
  complete : ∀ e ∈ list, CompleteCode code e.members.toFinset
  short : ∀ m : Sym, code[m].length + list.length ≤ 7

theorem codeForest_refSeeds (hist : Vector Nat 7) : CodeForest (refSeeds hist) (Vector.replicate 7 []) where
  partitions := partitions_refSeeds hist
  complete e he := by
    rw [refSeeds_eq_map, List.mem_map] at he
    obtain ⟨i, -, rfl⟩ := he
    refine ⟨fun m hm k hk hne => ?_, by simp⟩
    simp only [List.toFinset_cons, List.toFinset_nil, insert_empty_eq, Finset.mem_singleton] at hm hk
    exact absurd (hm.trans hk.symm) hne
  short m := by simp [refSeeds_length]

section
variable {rest : List RefEntry} {right left : RefEntry} {acc : RefTree}

theorem refGraft_code_getElem (m : Sym) (hdisj : m ∈ left.members → m ∉ right.members) :
    (refGraft left right acc).code[m] =
      if m ∈ left.members then false :: acc.code[m] else if m ∈ right.members then true :: acc.code[m]
      else acc.code[m] := by
  by_cases hl : m ∈ left.members
  · simp [refGraft, refPrepend, hl, hdisj hl]
  · simp [refGraft, refPrepend, hl]

/-- One turn of the loop. -/
theorem CodeForest.merge (h : CodeForest (rest ++ [right, left]) acc.code) (id : Nat) :
    CodeForest (refInsert (refMerge left right id) rest) (refGraft left right acc).code := by
  have hdisj (m : Sym) : m ∈ left.members → m ∉ right.members := h.partitions.not_mem_right
  have hcode (m : Sym) := refGraft_code_getElem (acc := acc) m (hdisj m)
  refine ⟨h.partitions.merge id, fun e he => ?_, fun m => ?_⟩
  · rcases List.mem_cons.1 ((refInsert_perm _ _).mem_iff.1 he) with rfl | he
    · have hunion : (refMerge left right id).members.toFinset = left.members.toFinset ∪ right.members.toFinset :=
        List.toFinset_append
      rw [hunion]
      refine (h.complete left (by simp)).union (h.complete right (by simp)) ?_ (fun m hm => ?_) fun m hm => ?_
      · exact Finset.disjoint_left.2 fun m hl hr => hdisj m (List.mem_toFinset.1 hl) (List.mem_toFinset.1 hr)
      · rw [hcode, if_pos (List.mem_toFinset.1 hm)]
      · have hr := List.mem_toFinset.1 hm
        rw [hcode, if_neg fun hl => hdisj m hl hr, if_pos hr]
    · refine (h.complete e (List.mem_append_left _ he)).congr fun m hm => ?_
      have hm := List.mem_toFinset.1 hm
      rw [hcode, if_neg fun hl => h.partitions.not_mem_rest (.inl hl) he hm,
        if_neg fun hr => h.partitions.not_mem_rest (.inr hr) he hm]
  · have hshort := h.short m
    have hlength : (refInsert (refMerge left right id) rest).length = rest.length + 1 :=
      (refInsert_perm _ _).length_eq
    simp only [List.length_append, List.length_cons, List.length_nil] at hshort
    have hbit : (refGraft left right acc).code[m].length ≤ acc.code[m].length + 1 := by
      rw [hcode]
      split_ifs <;> simp
    omega

end

/-- The loop ends with one entry. -/
theorem codeForest_huffLoop (fuel : Nat) : ∀ (list : List RefEntry) (id : Nat) (acc : RefTree),
    list.length = fuel + 1 → CodeForest list acc.code →
      ∃ root, CodeForest [root] (huffLoop fuel list id acc).code := by
  induction fuel with
  | zero =>
    intro list id acc hlength h
    obtain ⟨root, rfl⟩ := List.length_eq_one_iff.1 hlength
    exact ⟨root, h⟩
  | succ fuel ih =>
    intro list id acc hlength h
    obtain ⟨rest, right, left, rfl, hrest⟩ := exists_eq_append_pair hlength
    rw [huffLoop_succ]
    exact ih _ _ _ ((refInsert_perm _ _).length_eq.trans (congrArg (· + 1) hrest)) (h.merge id)

/-- HUFF's code is complete over the seven symbols, and no string has more than six bits. -/
theorem huff_code_complete (hist : Vector Nat 7) :
    CompleteCode (huff hist).code Finset.univ ∧ ∀ m : Sym, (huff hist).code[m].length ≤ 6 := by
  obtain ⟨root, h⟩ := codeForest_huffLoop 6 (refSeeds hist) 7 { code := Vector.replicate 7 [], nodes := [] }
    (refSeeds_length hist) (codeForest_refSeeds hist)
  have hall : root.members.toFinset = Finset.univ := by
    refine Finset.eq_univ_of_forall fun m => List.mem_toFinset.2 ?_
    simpa using h.partitions m
  exact ⟨hall ▸ h.complete root (List.mem_singleton_self root), fun m => Nat.le_of_succ_le_succ (h.short m)⟩

/-- The Histogram of R168 (d) merges one seed at a time, so its rarest symbols have six bits. -/
theorem huff_longest : (huff #v[5, 3, 2, 1, 1, 0, 0]).code[(5 : Sym)].length = 6 := by decide +kernel

/-! ### What a frame costs (R168 (e)) -/

theorem histogramOf_getElem (rs : List Sym) (m : Sym) : (histogramOf rs)[m] = rs.count m := by
  simp [histogramOf]

theorem frameBits_length (code : Vector (List Bool) 7) (rs : List Sym) :
    (frameBits code rs).length = (rs.map fun k => code[k].length).sum := List.length_flatMap

theorem frameBits_length_eq_sum (code : Vector (List Bool) 7) (rs : List Sym) :
    (frameBits code rs).length = ∑ m : Sym, (histogramOf rs)[m] * code[m].length := by
  rw [frameBits_length, Finset.sum_list_map_count]
  refine Finset.sum_subset_zero_on_sdiff (Finset.subset_univ _) (fun m hm => ?_) fun m _ => ?_
  · have habsent : rs.count m = 0 := List.count_eq_zero.2 (by simpa using hm)
    rw [histogramOf_getElem, habsent, zero_mul]
  · rw [histogramOf_getElem, smul_eq_mul]

/-- The bits of a frame lie between one and six for each cell. -/
theorem frameBits_length_bounds {code : Vector (List Bool) 7} (hlow : ∀ m : Sym, 1 ≤ code[m].length)
    (hhigh : ∀ m : Sym, code[m].length ≤ 6) (rs : List Sym) :
    rs.length ≤ (frameBits code rs).length ∧ (frameBits code rs).length ≤ 6 * rs.length := by
  rw [frameBits_length]
  constructor
  · have h := List.card_nsmul_le_sum (rs.map fun k => code[k].length) 1 (List.forall_mem_map.2 fun m _ => hlow m)
    rwa [List.length_map, smul_eq_mul, mul_one] at h
  · have h := List.sum_le_card_nsmul (rs.map fun k => code[k].length) 6 (List.forall_mem_map.2 fun m _ => hhigh m)
    rwa [List.length_map, smul_eq_mul, mul_comm] at h

/-- Settles O31: the codewords are HUFF's, whose code is complete; R168 (d)'s Histogram is one evaluation. -/
theorem codewordLaws : Obligations.CodewordLaws := by
  intro s t hop hpos hfault hrun
  obtain ⟨u, hrun', -, -, hcode, -, -⟩ := huffmanStageIsHuff s hop hpos hfault
  obtain rfl : t = u := Host.Outcome.next.inj (hrun.symm.trans hrun')
  obtain ⟨hcomplete, hhigh⟩ := huff_code_complete s.hist
  have hlow := hcomplete.length_pos
  have hbits (m : Sym) : t.cw[m].toBits = (huff s.hist).code[m] := by rw [← codeOf_getElem, hcode]
  have hlen (m : Sym) : t.cw[m].len.toNat = (huff s.hist).code[m].length := by
    rw [← Codeword.toBits_length, hbits]
  simp only [hlen, hbits, hcode]
  refine ⟨fun m => ⟨hlow m, hhigh m⟩, fun m k => hcomplete.prefixFree m (Finset.mem_univ m) k (Finset.mem_univ k),
    hcomplete.kraft, fun ⟨m, hm⟩ => ?_, fun hhist => ?_, fun hhist => ?_⟩
  · exact (Finset.sum_lt_sum_of_subset (Finset.filter_subset _ _) (Finset.mem_univ m) (by simpa using hm)
      (by positivity) fun _ _ _ => by positivity).trans_eq hcomplete.kraft
  · exact ⟨by rw [frameBits_length_eq_sum, ← hhist], frameBits_length_bounds hlow hhigh s.rs⟩
  · exact ⟨5, BitVec.eq_of_toNat_eq ((hlen 5).trans (hhist ▸ huff_longest))⟩

end Sys2Proof.Machine
end

section
/-! PROOF. The permutation index (spec/43_bitpacker_serializer.md R180, R182). The layers under the statement: a rank
row as the list of its symbols by ascending rank, the mixed-radix number of such a list, and what one digit does to
the pool. -/

namespace Sys2Proof.Machine

/-! ### The mixed-radix number of an order of symbols -/

/-- The Lehmer code of a list of symbols: the digit of a symbol is how many of those behind it are smaller. -/
def lehmer : List Sym → Nat
  | [] => 0
  | s :: later => later.countP (· < s) + (later.length + 1) * lehmer later

theorem lehmer_lt_factorial (order : List Sym) : lehmer order < order.length.factorial := by
  induction order with
  | nil => decide
  | cons s later ih =>
    have hdigit : later.countP (· < s) ≤ later.length := List.countP_le_length
    have hrest : (later.length + 1) * (lehmer later + 1) ≤ (later.length + 1) * later.length.factorial :=
      Nat.mul_le_mul_left _ ih
    rw [mul_add_one] at hrest
    rw [lehmer, List.length_cons, Nat.factorial_succ]
    omega

theorem isPermutation_bijective {row : Vector Sym 7} (h : IsPermutation row) :
    Function.Bijective fun s : Sym => row[s] :=
  Finite.surjective_iff_bijective.1 h

/-- A permutation row is told by its symbols in the order of their ranks. -/
theorem exists_order_of_isPermutation {row : Vector Sym 7} (h : IsPermutation row) :
    ∃ order : List Sym, (List.finRange 7).Perm order ∧ order.map (fun s => row[s]) = List.finRange 7 := by
  obtain ⟨ranks, hranks⟩ : ∃ ranks : Equiv.Perm Sym, ∀ s, ranks s = row[s] :=
    ⟨Equiv.ofBijective _ (isPermutation_bijective h), fun _ => rfl⟩
  refine ⟨(List.finRange 7).map ranks.symm, (Equiv.Perm.map_finRange_perm ranks.symm).symm, ?_⟩
  simp only [← hranks, List.map_map, Equiv.self_comp_symm, List.map_id]

/-! ### One digit -/

/-- The symbol of the next rank splits the ascending pool: as many stand before it as there are smaller symbols among
those that are left. -/
theorem pool_split {pool later : List Sym} {s : Sym} (hsorted : pool.Pairwise (· < ·))
    (hpool : pool.Perm (s :: later)) :
    ∃ below above, pool = below ++ s :: above ∧ below.length = later.countP (· < s) ∧ s ∉ below ∧
      (below ++ above).Pairwise (· < ·) ∧ (below ++ above).Perm later := by
  obtain ⟨below, above, rfl⟩ := List.append_of_mem (hpool.mem_iff.2 List.mem_cons_self)
  have hrest : (below ++ above).Perm later := (List.perm_middle.symm.trans hpool).cons_inv
  obtain ⟨-, habove, hbelow⟩ := List.pairwise_append.1 hsorted
  have hlt (t : Sym) (ht : t ∈ below) : t < s := hbelow t ht s List.mem_cons_self
  have hgt (t : Sym) (ht : t ∈ above) : ¬ t < s := (List.rel_of_pairwise_cons habove ht).not_gt
  refine ⟨below, above, rfl, ?_, fun hs => (hlt s hs).false,
    hsorted.sublist (List.Sublist.append_left (List.sublist_cons_self s above) below), hrest⟩
  rw [← hrest.countP_eq, List.countP_append, List.countP_eq_length.2 (by simpa using hlt),
    List.countP_eq_zero.2 (by simpa using hgt), add_zero]

/-! ### PERMIDX and PERMROW along an order (R180, R182) -/

theorem permIdxFrom_order {row : Vector Sym 7} (hrow : IsPermutation row) (order : List Sym) :
    ∀ (pool : List Sym) (base : Nat), pool.Pairwise (· < ·) → pool.Perm order →
      permIdxFrom row (order.map fun s => row[s]) pool base = some (base * lehmer order) := by
  induction order with
  | nil => intros; rfl
  | cons s later ih =>
    intro pool base hsorted hpool
    obtain ⟨below, above, rfl, hdigit, hs, hsorted', hpool'⟩ := pool_split hsorted hpool
    have hfind : ((below ++ s :: above).findIdx? fun t => decide (row[t] = row[s])) = some below.length := by
      have hnone : (below.findIdx? fun t => decide (row[t] = row[s])) = none :=
        List.findIdx?_eq_none_iff.2 fun t ht =>
          decide_eq_false fun e => hs ((isPermutation_bijective hrow).1 e ▸ ht)
      rw [List.findIdx?_append, hnone]
      simp [List.findIdx?_cons]
    have hlength : (below ++ s :: above).length = later.length + 1 := hpool.length_eq
    rw [List.map_cons, permIdxFrom_cons hfind, List.eraseIdx_append_of_length_le le_rfl, Nat.sub_self,
      List.eraseIdx_cons_zero, ih _ _ hsorted' hpool', hlength, hdigit, lehmer, Option.map_some]
    congr 1
    ring

/-- PERMROW writes the ranks of the order's symbols and no others. -/
theorem permRowFrom_order_getElem {row : Vector Sym 7} (t : Sym) (order : List Sym) :
    ∀ (pool : List Sym) (start : Vector Sym 7), order.Nodup → pool.Pairwise (· < ·) → pool.Perm order →
      (permRowFrom (order.map fun s => row[s]) pool (lehmer order) start)[t] =
        if t ∈ order then row[t] else start[t] := by
  induction order with
  | nil => intros; rfl
  | cons s later ih =>
    intro pool start hnodup hsorted hpool
    obtain ⟨below, above, rfl, hdigit, hs, hsorted', hpool'⟩ := pool_split hsorted hpool
    have hlength : (below ++ s :: above).length = later.length + 1 := hpool.length_eq
    have hle : below.length < later.length + 1 := by
      rw [hdigit]
      exact Nat.lt_succ_of_le List.countP_le_length
    have hmod : lehmer (s :: later) % (below ++ s :: above).length = below.length := by
      rw [lehmer, hlength, ← hdigit, Nat.add_mul_mod_self_left, Nat.mod_eq_of_lt hle]
    have hdiv : lehmer (s :: later) / (below ++ s :: above).length = lehmer later := by
      rw [lehmer, hlength, ← hdigit, Nat.add_mul_div_left _ _ (Nat.succ_pos _), Nat.div_eq_of_lt hle, zero_add]
    have hget : (below ++ s :: above)[below.length]? = some s := by simp
    obtain ⟨hslater, hnodup'⟩ := List.nodup_cons.1 hnodup
    rw [List.map_cons, permRowFrom, hmod, hdiv, hget]
    dsimp only
    rw [List.eraseIdx_append_of_length_le le_rfl, Nat.sub_self, List.eraseIdx_cons_zero,
      ih _ _ hnodup' hsorted' hpool']
    by_cases hts : t = s
    · subst hts
      simp [hslater]
    · have hval : s.val ≠ t.val := fun e => hts (Fin.ext e.symm)
      simp [hts, hval]

/-! ### The closed form (R180) -/

/-- The place values of 30_encoding.md R105 are the falling factorials of seven. -/
theorem placeValue_eq_descFactorial (k : Sym) : placeValue k = Nat.descFactorial 7 k := by
  revert k
  decide

/-- The digit of the closed form, read off the order: the larger ranks are the symbols behind. -/
theorem closedDigit_eq_countP {row : Vector Sym 7} {done later : List Sym} {s : Sym}
    (horder : (done ++ s :: later).map (fun t => row[t]) = List.finRange 7) :
    (done ++ s :: later).countP (fun t => decide (t < s) && decide (row[s] < row[t])) = later.countP (· < s) := by
  have hascending : (done ++ s :: later).Pairwise fun t u => row[t] < row[u] :=
    List.pairwise_map.1 (horder ▸ List.pairwise_lt_finRange 7)
  obtain ⟨-, hlater, hdone⟩ := List.pairwise_append.1 hascending
  have hsmaller : done.countP (fun t => decide (t < s) && decide (row[s] < row[t])) = 0 :=
    List.countP_eq_zero.2 fun t ht => by simpa using fun _ => (hdone t ht s List.mem_cons_self).le
  have hlarger : later.countP (fun t => decide (t < s) && decide (row[s] < row[t])) = later.countP (· < s) :=
    List.countP_congr fun t ht => by simpa using fun _ => List.rel_of_pairwise_cons hlater ht
  rw [List.countP_append, List.countP_cons, hsmaller, hlarger]
  simp

theorem closedSum_eq_lehmer {row : Vector Sym 7} {order : List Sym}
    (horder : order.map (fun t => row[t]) = List.finRange 7) (rest : List Sym) :
    ∀ done : List Sym, done ++ rest = order →
      (rest.map fun s => order.countP (fun t => decide (t < s) && decide (row[s] < row[t])) * placeValue row[s]).sum =
        Nat.descFactorial 7 done.length * lehmer rest := by
  induction rest with
  | nil => intros; rfl
  | cons s later ih =>
    intro done hdone
    have hlength : done.length + (later.length + 1) = 7 := by simpa [← hdone] using congrArg List.length horder
    have hrank : row[s].val = done.length := by
      have hget := congrArg (fun l => l[done.length]?.map Fin.val) horder
      simpa [← hdone, show done.length < 7 by omega] using hget
    have hplace : Nat.descFactorial 7 (done.length + 1) = Nat.descFactorial 7 done.length * (later.length + 1) := by
      rw [Nat.descFactorial_succ, mul_comm, show 7 - done.length = later.length + 1 by omega]
    have hrest := ih (done ++ [s]) (by simpa using hdone)
    rw [List.length_append, List.length_singleton, hplace] at hrest
    rw [List.map_cons, List.sum_cons, hrest, placeValue_eq_descFactorial, hrank, lehmer]
    subst hdone
    rw [closedDigit_eq_countP horder]
    ring

/-- The closed form of a row is the number of its order. -/
theorem permIdxClosed_eq_lehmer {row : Vector Sym 7} {order : List Sym} (hperm : (List.finRange 7).Perm order)
    (horder : order.map (fun t => row[t]) = List.finRange 7) : permIdxClosed row = lehmer order := by
  rw [permIdxClosed, (hperm.map _).sum_eq]
  simp only [hperm.countP_eq]
  rw [closedSum_eq_lehmer horder order [] rfl]
  exact Nat.one_mul _

/-! ### The statement -/

section
variable {row : Vector Sym 7} (h : IsPermutation row)
include h

theorem permIdx_eq_closed : permIdx row = some (permIdxClosed row) := by
  obtain ⟨order, hperm, horder⟩ := exists_order_of_isPermutation h
  have hidx := permIdxFrom_order h order _ 1 (List.pairwise_lt_finRange 7) hperm
  rw [horder, one_mul] at hidx
  rw [permIdxClosed_eq_lehmer hperm horder]
  exact hidx

theorem permIdxClosed_lt : permIdxClosed row < 5040 := by
  obtain ⟨order, hperm, horder⟩ := exists_order_of_isPermutation h
  rw [permIdxClosed_eq_lehmer hperm horder]
  exact (lehmer_lt_factorial order).trans_eq (congrArg Nat.factorial hperm.length_eq.symm)

theorem permRow_permIdxClosed : permRow (permIdxClosed row) = row := by
  obtain ⟨order, hperm, horder⟩ := exists_order_of_isPermutation h
  have hget (t : Sym) := permRowFrom_order_getElem (row := row) t order _ (Vector.replicate 7 0)
    (hperm.nodup_iff.1 (List.nodup_finRange 7)) (List.pairwise_lt_finRange 7) hperm
  simp only [horder, ← hperm.mem_iff, List.mem_finRange, if_true] at hget
  rw [permIdxClosed_eq_lehmer hperm horder]
  exact Vector.ext fun i hi => hget ⟨i, hi⟩

end

theorem isPermutation_ofFn (ranks : Equiv.Perm Sym) : IsPermutation (Vector.ofFn ranks) :=
  fun k => ⟨ranks.symm k, by simp⟩

/-- The 5040 permutations have different indices below 5040, so every code is one of them. -/
theorem exists_row_of_code {code : Nat} (h : code < 5040) :
    ∃ row : Vector Sym 7, IsPermutation row ∧ permIdxClosed row = code := by
  have hinj : Set.InjOn (fun ranks : Equiv.Perm Sym => permIdxClosed (Vector.ofFn ranks))
      (Finset.univ : Finset (Equiv.Perm Sym)) := fun ranks _ ranks' _ heq => by
    have hrow : Vector.ofFn ranks = Vector.ofFn ranks' := by
      rw [← permRow_permIdxClosed (isPermutation_ofFn ranks), ← permRow_permIdxClosed (isPermutation_ofFn ranks')]
      exact congrArg permRow heq
    exact Equiv.ext fun s => by simpa using congrArg (fun row => row[s]) hrow
  have hcard : (Finset.range 5040).card ≤ (Finset.univ : Finset (Equiv.Perm Sym)).card := by
    rw [Finset.card_range, Finset.card_univ, Fintype.card_perm, Fintype.card_fin]
    rfl
  obtain ⟨ranks, -, hranks⟩ := Finset.surjOn_of_injOn_of_card_le _
    (fun ranks _ => Finset.mem_coe.2 (Finset.mem_range.2 (permIdxClosed_lt (isPermutation_ofFn ranks)))) hinj hcard
    (Finset.mem_coe.2 (Finset.mem_range.2 h))
  exact ⟨_, isPermutation_ofFn ranks, hranks⟩

/-- Settles O4: a row is read back from its index, and every code is the index of some row. -/
theorem permutationIndexRoundTrip : Obligations.PermutationIndexRoundTrip := by
  refine ⟨fun row h => ⟨permIdx_eq_closed h, Nat.le_of_lt_succ (permIdxClosed_lt h), permRow_permIdxClosed h⟩,
    fun code hcode => ?_⟩
  obtain ⟨row, h, rfl⟩ := exists_row_of_code (Nat.lt_succ_of_le hcode)
  rw [permRow_permIdxClosed h]
  exact ⟨h, permIdx_eq_closed h⟩

end Sys2Proof.Machine
end

section
/-! PROOF. The operations that emit (spec/43_bitpacker_serializer.md R181, R183, R186, R188). The layers under the
statements: an emission that the sink takes, the bytes of each operation, and the accumulator in numbers and in bits. -/

namespace Sys2Proof.Machine

/-! ### An emission that the sink takes (44_sequencer_io.md R213) -/

theorem emitThen_of_sinkAccepts {bytes : List Byte} {s : State} (rest : State → State)
    (h : sinkAccepts bytes.length s = true) : emitThen bytes s rest = .next (rest (emit bytes s)) :=
  if_pos h

/-! ### ERK and ETN -/

theorem exec_erk_of_isPermutation {s : State} (hpos : s.pos < 7) (hrow : IsPermutation s.rk[s.pos])
    (hsink : sinkAccepts 2 s = true) :
    exec .erk s = .next (advance .erk (emit (encodeRankWord (permIdxClosed s.rk[s.pos])) s)) := by
  simp only [exec, execErk, rankBytes, hpos, dite_true, permIdx_eq_closed hrow]
  exact emitThen_of_sinkAccepts _ hsink

/-- Settles O33: the row's index is its closed form, and its two bytes are the rank word's. -/
theorem erkEmitsTheRankWord : Obligations.ErkEmitsTheRankWord := by
  intro s hpos hrow hsink
  refine ⟨Nat.le_of_lt_succ (permIdxClosed_lt hrow), _, exec_erk_of_isPermutation hpos hrow hsink,
    advance_out _ _, advance_sinkRoom _ _, advance_point _ _, (advance_frame _ _).trans ?_⟩
  rw [advance_out, advance_sinkRoom]
  rfl

/-- F-NODE as a number (20_memory.md R65). -/
theorem encodeNode_toNat (left right : NodeId) : (encodeNode left right).toNat = left.toNat * 16 + right.toNat := by
  rw [encodeNode, BitVec.toNat_append, ← Nat.shiftLeft_add_eq_or_of_lt right.isLt, Nat.shiftLeft_eq]

theorem exec_etn_of_lt {s : State} (hpos : s.pos < 6) (hsink : sinkAccepts 1 s = true) :
    exec .etn s = .next (advance .etn (emit [encodeNode s.tree[s.pos].left s.tree[s.pos].right] s)) := by
  simp only [exec, execEtn, nodeBytes, hpos, dite_true]
  exact emitThen_of_sinkAccepts _ hsink

/-- Settles O34: the node's byte, read as a number. -/
theorem etnEmitsTheTreeByte : Obligations.EtnEmitsTheTreeByte := by
  intro s hpos hsink
  refine ⟨_, _, exec_etn_of_lt hpos hsink, encodeNode_toNat _ _, advance_out _ _, advance_sinkRoom _ _,
    advance_point _ _, (advance_frame _ _).trans ?_⟩
  rw [advance_out, advance_sinkRoom]
  rfl

/-! ### The accumulator with a codeword behind it (R186) -/

section
variable {bacc : BitVec 7} {bcnt : BitVec 3} {c : Codeword} {acc m : Nat}
  (hacc : acc = bacc.toNat * 2 ^ c.len.toNat + c.bits.toNat) (hm : m = bcnt.toNat + c.len.toNat)
  (hheld : bacc.toNat < 2 ^ bcnt.toNat) (hc : c.Normal)
include hacc hm hheld hc

/-- The held bits and the codeword behind them are a number of `m` bits. -/
theorem accumulated_lt : acc < 2 ^ m := by
  have hshifted : (bacc.toNat + 1) * 2 ^ c.len.toNat ≤ 2 ^ bcnt.toNat * 2 ^ c.len.toNat :=
    Nat.mul_le_mul_right _ hheld
  have hbits := hc.2
  rw [add_one_mul] at hshifted
  rw [hacc, hm, pow_add]
  omega

/-- With eight bits or more the eight oldest go out and fewer than eight stay. -/
theorem packCodeword_of_le (h : 8 ≤ m) :
    (packCodeword bacc bcnt c).bytes = [BitVec.ofNat 8 (acc / 2 ^ (m - 8))] ∧ acc / 2 ^ (m - 8) < 256 ∧
    (packCodeword bacc bcnt c).bacc.toNat = acc % 2 ^ (m - 8) ∧ (packCodeword bacc bcnt c).bcnt.toNat = m - 8 := by
  have hlt := accumulated_lt hacc hm hheld hc
  have hstay : m - 8 ≤ 5 := by
    have hlen := hc.1
    have hcnt := bcnt.isLt
    omega
  have hpow : 2 ^ (m - 8) ≤ 2 ^ 5 := Nat.pow_le_pow_right (by decide) hstay
  have hmod : acc % 2 ^ (m - 8) < 2 ^ (m - 8) := Nat.mod_lt _ (by positivity)
  have hbyte : acc / 2 ^ (m - 8) < 256 := by
    rw [Nat.div_lt_iff_lt_mul (by positivity)]
    calc acc < 2 ^ (8 + (m - 8)) := by rwa [Nat.add_sub_cancel' h]
      _ = 256 * 2 ^ (m - 8) := pow_add 2 8 (m - 8)
  simp only [packCodeword, ← hacc, ← hm, h, if_true, BitVec.toNat_ofNat, true_and]
  exact ⟨hbyte, Nat.mod_eq_of_lt (by omega), Nat.mod_eq_of_lt (by omega)⟩

/-- With fewer than eight bits all of them stay. -/
theorem packCodeword_of_lt (h : m < 8) : (packCodeword bacc bcnt c).bytes = [] ∧
    (packCodeword bacc bcnt c).bacc.toNat = acc ∧ (packCodeword bacc bcnt c).bcnt.toNat = m := by
  have hlt := accumulated_lt hacc hm hheld hc
  have hpow : 2 ^ m ≤ 2 ^ 7 := Nat.pow_le_pow_right (by decide) (Nat.le_of_lt_succ h)
  simp only [packCodeword, ← hacc, ← hm, h.not_ge, if_false, BitVec.toNat_ofNat, true_and]
  exact ⟨Nat.mod_eq_of_lt (hlt.trans_le hpow), Nat.mod_eq_of_lt h⟩

end

/-- PCW's accumulator is empty at POS 0 (70_reset_and_hazards.md R253). -/
theorem packCell_of_cell {s : State} {k : Sym} (hk : s.rs[s.pos]? = some k) :
    packCell s = .ok (packCodeword (if s.pos = 0 then 0 else s.bacc) (if s.pos = 0 then 0 else s.bcnt) s.cw[k]) := by
  simp only [packCell, hk]
  split <;> rfl

theorem exec_pcw_of_packCell {s : State} {p : Packed} (hp : packCell s = .ok p)
    (hsink : sinkAccepts p.bytes.length s = true) :
    exec .pcw s = .next (advance .pcw { emit p.bytes s with bacc := p.bacc, bcnt := p.bcnt }) := by
  simp only [exec, execPcw, hp]
  exact emitThen_of_sinkAccepts _ hsink

/-- Settles O35: what PCW writes is the packed codeword, with eight bits or more and with fewer. -/
theorem pcwPutsOneCodeword : Obligations.PcwPutsOneCodeword := by
  intro s k bacc bcnt len bits hk hbacc hbcnt hlen hbits hacc hlen6 hbits' hsink
  obtain rfl : bacc = (if s.pos = 0 then 0 else s.bacc : BitVec 7).toNat := by rw [hbacc, apply_ite BitVec.toNat]; rfl
  obtain rfl : bcnt = (if s.pos = 0 then 0 else s.bcnt : BitVec 3).toNat := by rw [hbcnt, apply_ite BitVec.toNat]; rfl
  subst hlen hbits
  have hp := packCell_of_cell hk
  have hnormal : s.cw[k].Normal := ⟨hlen6, hbits'⟩
  have hfull := packCodeword_of_le rfl rfl hacc hnormal
  have hshort := packCodeword_of_lt rfl rfl hacc hnormal
  generalize packCodeword _ _ s.cw[k] = p at hp hfull hshort
  have hroom : sinkAccepts p.bytes.length s = true := by
    rcases le_or_gt 8 _ with h | h
    · rw [(hfull h).1]
      exact hsink h
    · rw [(hshort h).1]
      exact sinkAccepts_zero s
  refine ⟨_, exec_pcw_of_packCell hp hroom, fun h => ?_, fun h => ?_, advance_point _ _, (advance_frame _ _).trans ?_⟩
  · obtain ⟨hbytes, hbyte, hheld, hcount⟩ := hfull h
    refine ⟨?_, hbyte, ?_, ?_, ?_⟩
    · rw [advance_out, emit_out, hbytes]
    · rw [advance_bacc, hheld]
    · rw [advance_bcnt, hcount]
    · rw [advance_sinkRoom, emit_sinkRoom, hbytes]
      rfl
  · obtain ⟨hbytes, hheld, hcount⟩ := hshort h
    refine ⟨?_, ?_, ?_, ?_⟩
    · rw [advance_out, hbytes, emit_nil]
    · rw [advance_bacc, hheld]
    · rw [advance_bcnt, hcount]
    · rw [advance_sinkRoom, hbytes, emit_nil]
  · rw [advance_out, advance_sinkRoom, advance_bacc, advance_bcnt]
    rfl

/-! ### FLS (R188) -/

theorem exec_fls_of_sinkAccepts {s : State} (h : 0 < s.bcnt.toNat → sinkAccepts 1 s = true) :
    exec .fls s = .next (enter .lds
      { emit (flushBytes s.bacc s.bcnt) s with bacc := 0, bcnt := 0, frameIdx := s.frameIdx + 1 }) := by
  have hroom : sinkAccepts (flushBytes s.bacc s.bcnt).length s = true := by
    unfold flushBytes
    split
    · exact h ‹_›
    · exact sinkAccepts_zero s
  exact emitThen_of_sinkAccepts (fun u => enter .lds { u with bacc := 0, bcnt := 0, frameIdx := u.frameIdx + 1 }) hroom

theorem accBits_length (bacc : BitVec 7) (bcnt : BitVec 3) : (accBits bacc bcnt).length = bcnt.toNat := by
  simp [accBits]

/-- A number shifted left in a byte: the bits below the shift are zero. -/
theorem shiftedByte_getLsbD (x : Nat) {pad i : Nat} (hi : i < 8) :
    (BitVec.ofNat 8 (x * 2 ^ pad % 256)).getLsbD i = (decide (pad ≤ i) && x.testBit (i - pad)) := by
  rw [BitVec.getLsbD_ofNat, show 256 = 2 ^ 8 from rfl, Nat.testBit_mod_two_pow, Nat.testBit_mul_two_pow]
  simp [hi]

/-- The last byte is the bits left, padded with zeros (R185). -/
theorem flushBytes_bits (bacc : BitVec 7) (bcnt : BitVec 3) :
    (flushBytes bacc bcnt).flatMap bitsOfByte = padBits (accBits bacc bcnt) := by
  have hcnt : bcnt.toNat < 8 := bcnt.isLt
  rcases Nat.eq_zero_or_pos bcnt.toNat with hzero | hpos
  · simp [flushBytes, padBits, accBits, hzero]
  · have hpad : (8 - bcnt.toNat % 8) % 8 = 8 - bcnt.toNat := by omega
    have hrange : List.range 8 = List.range bcnt.toNat ++ (List.range (8 - bcnt.toNat)).map (bcnt.toNat + ·) := by
      rw [← List.range_add, Nat.add_sub_cancel' hcnt.le]
    rw [flushBytes, if_pos hpos, List.flatMap_singleton, padBits, accBits_length, hpad, bitsOfByte, hrange,
      List.map_append, List.map_map]
    congr 1
    · refine List.map_congr_left fun i hi => ?_
      have hi : i < bcnt.toNat := List.mem_range.1 hi
      rw [shiftedByte_getLsbD _ (by omega), decide_eq_true (by omega), Bool.true_and, BitVec.getLsbD,
        show 7 - i - (8 - bcnt.toNat) = bcnt.toNat - 1 - i by omega]
    · refine List.eq_replicate_iff.2 ⟨by simp, List.forall_mem_map.2 fun i hi => ?_⟩
      have hi : i < 8 - bcnt.toNat := List.mem_range.1 hi
      rw [Function.comp_apply, shiftedByte_getLsbD _ (by omega), decide_eq_false (by omega), Bool.false_and]

/-- Settles O37: the byte of the bits left, and the registers as the equation of FLS says. -/
theorem flsEndsTheFrame : Obligations.FlsEndsTheFrame := by
  intro s _ hsink
  refine ⟨_, flushBytes s.bacc s.bcnt, exec_fls_of_sinkAccepts hsink, rfl, fun h => ?_, fun h => if_pos h,
    flushBytes_bits _ _, rfl, rfl, rfl, ?_, rfl, rfl, busy_of_start rfl rfl, rfl⟩
  · rw [h]
    rfl
  · exact BitVec.toNat_add _ _

end Sys2Proof.Machine
end

section
/-! PROOF. LDS (spec/44_sequencer_io.md R202). The layers under the statement: a beat read back from its word, the
load of a cell in either number system, and LDS as one equation for each way it goes. -/

namespace Sys2Proof.Machine

/-! ### The beat (30_encoding.md R90) -/

/-- The layout of F-BEAT: which field each bit belongs to. -/
theorem encodeBeat_getLsbD (b : Beat) (i : Nat) :
    (encodeBeat b).getLsbD i =
      if i < 8 then b.data.getLsbD i else if i = 8 then b.eol else if i = 9 then b.eof else false := by
  change BitVec.getLsbD (w := 1 + 1 + 8) (BitVec.ofBool b.eof ++ BitVec.ofBool b.eol ++ b.data) i = _
  simp only [BitVec.getLsbD_append, BitVec.getLsbD_ofBool, Nat.sub_sub, Nat.lt_one_iff, Nat.sub_eq_zero_iff_le]
  grind

theorem decodeBeat_encodeBeat (b : Beat) : decodeBeat (encodeBeat b) = b := by
  have hdata : (encodeBeat b).extractLsb' 0 8 = b.data :=
    BitVec.eq_of_getLsbD_eq fun i hi => by
      rw [BitVec.getLsbD_extractLsb', Nat.zero_add, encodeBeat_getLsbD]
      simp [hi]
  rw [decodeBeat, hdata, encodeBeat_getLsbD, encodeBeat_getLsbD]
  rfl

theorem beatOkAt_decodeBeat (c : Config) (n : Nat) (w : BeatWord) :
    beatOkAt c n (decodeBeat w) = true ↔ FlagsRight c n w := by
  have hbool (b : Bool) (p : Prop) [Decidable p] : b = decide p ↔ (b = true ↔ p) := by cases b <;> simp
  simp only [beatOkAt, decodeBeat, eolExpected, eofExpected, Bool.and_eq_true, decide_eq_true_eq, hbool]

/-! ### The load of a cell -/

theorem Grid.fits_cases {c : Config} {g : Grid} (h : g.fits c = true) :
    (∃ cells, c.numerics = .exact ∧ g = .exact cells ∧ cells.length = c.npix) ∨
    ∃ fracK accBits cells, c.numerics = .fx fracK accBits ∧ g = .fx cells ∧ cells.length = c.npix := by
  unfold Grid.fits at h
  cases g <;> cases hn : c.numerics <;> simp_all

theorem gridLoad_exact {c : Config} {n : Nat} {v : Byte} {cells : List Rat} (hnum : c.numerics = .exact)
    (hn : n < cells.length) :
    gridLoad c n v (.exact cells) = .ok (.exact (cells.set n ((numExact c.ref).ofByte v))) := by
  simp only [gridLoad, hnum, hn, if_true]

theorem gridLoad_fx {c : Config} {n fracK accBits : Nat} {v : Byte} {cells : List Int}
    (hnum : c.numerics = .fx fracK accBits) (hn : n < cells.length) :
    gridLoad c n v (.fx cells) = .ok (.fx (cells.set n ((numFx fracK accBits c.ref).ofByte v))) := by
  simp only [gridLoad, hnum, hn, if_true]

/-- A cell of a grid of the right shape can be loaded, whatever the number system. -/
theorem exists_gridLoad {c : Config} {n : Nat} (v : Byte) {g : Grid} (hg : g.fits c = true) (hn : n < c.npix) :
    ∃ g', gridLoad c n v g = .ok g' := by
  rcases Grid.fits_cases hg with ⟨cells, hnum, rfl, hlen⟩ | ⟨fracK, accBits, cells, hnum, rfl, hlen⟩
  · exact ⟨_, gridLoad_exact hnum (hlen ▸ hn)⟩
  · exact ⟨_, gridLoad_fx hnum (hlen ▸ hn)⟩

/-! ### The operation -/

section
variable {s : State} {w : BeatWord} {rest : List BeatWord} (hinq : s.inq = w :: rest)
include hinq

theorem exec_lds_of_flagsRight {g : Grid} (hflags : FlagsRight s.cfg s.pos w)
    (hload : gridLoad s.cfg s.pos (decodeBeat w).data s.g = .ok g) :
    exec .lds s = .next (advance .lds { s with inq := rest, g := g }) := by
  simp only [exec, execLds, takeBeat, hinq, (beatOkAt_decodeBeat s.cfg s.pos w).2 hflags, if_true, hload]

theorem exec_lds_of_not_flagsRight (hflags : ¬ FlagsRight s.cfg s.pos w) :
    exec .lds s = .next (raiseFault .dimMismatch s.pos { s with inq := rest }) := by
  rw [← beatOkAt_decodeBeat] at hflags
  simp only [exec, execLds, takeBeat, hinq, hflags, Bool.false_eq_true, if_false]

end

theorem exec_lds_of_empty {s : State} (hinq : s.inq = []) : exec .lds s = .next s := by
  simp only [exec, execLds, takeBeat, hinq]

/-- After an LDS that raises nothing a frame is in progress: OP is QDF, or POS is above 0. -/
theorem busy_advance_lds {s : State} (hfault : s.fault = false) : busy (advance .lds s) = true := by
  rw [busy_iff, advance_point]
  refine ⟨by rw [advance_fault, hfault], ?_⟩
  split <;> simp [Instr.successor]

/-- Settles O14, from the equations of LDS; what the cell holds is told per number system. -/
theorem ldsLoadsTheSampleOrFaults : Obligations.LdsLoadsTheSampleOrFaults := by
  refine ⟨fun s w rest hinq hmem hpos => ⟨fun hflags => ?_, exec_lds_of_not_flagsRight hinq⟩,
    fun s => exec_lds_of_empty⟩
  obtain ⟨hfits, -, -⟩ := (memory_wf_iff s).1 hmem
  obtain ⟨g, hload⟩ := exists_gridLoad (decodeBeat w).data hfits hpos
  refine ⟨_, exec_lds_of_flagsRight hinq hflags hload, advance_inq _ _, ?_, advance_point _ _,
    fun hfault => busy_advance_lds hfault, (advance_frame _ _).trans (by rw [advance_inq, advance_g])⟩
  rw [advance_g]
  rcases Grid.fits_cases hfits with ⟨cells, hnum, hg, hlen⟩ | ⟨fracK, accBits, cells, hnum, hg, hlen⟩
  · rw [hg, gridLoad_exact hnum (hlen ▸ hpos)] at hload
    cases hload
    simp only [hnum, hg]
    rfl
  · rw [hg, gridLoad_fx hnum (hlen ▸ hpos)] at hload
    cases hload
    simp only [hnum, hg]
    rfl

end Sys2Proof.Machine
end

section
/-! PROOF. Runs (spec/44_sequencer_io.md R201). The loop of one operation over its indices, packaged once, so that a
stage of a frame is proved by what one index does. -/

namespace Sys2Proof.Machine

theorem run_trans {s t : State} {j k : Nat} {r : Result} (hst : core.run j s = .next t) (htr : core.run k t = r) :
    core.run (j + k) s = r := by
  induction j generalizing s with
  | zero =>
    cases hst
    rwa [Nat.zero_add]
  | succ j ih =>
    rw [Nat.succ_add]
    simp only [Host.Core.run] at hst ⊢
    cases hstep : core.step s with
    | next u =>
      simp only [hstep] at hst
      exact ih hst
    | fault r | refused r => simp only [hstep, reduceCtorEq] at hst

/-- `s` with the sequencer at index `n` of operation `i`. -/
def State.atPoint (s : State) (i : Instr) (n : Nat) : State := { s with op := i, pos := n }

theorem advance_atPoint_of_lt {s : State} {i : Instr} {n : Nat} (h : n < i.lastIndex s.cfg) :
    advance i (s.atPoint i n) = s.atPoint i (n + 1) :=
  if_neg h.ne

theorem advance_atPoint_of_eq {s : State} {i : Instr} {n : Nat} (h : n = i.lastIndex s.cfg) :
    advance i (s.atPoint i n) = s.atPoint i.successor 0 :=
  if_pos h

theorem step_atPoint {s : State} (hfault : s.fault = false) (i : Instr) (n : Nat) :
    step (s.atPoint i n) = exec i (s.atPoint i n) :=
  step_of_op (s := s.atPoint i n) rfl hfault

/-- The operation writes some values `a : α` of the state, and (OP, POS). If it leads from `P` at each index to `P` at
the next one, then its loop ends at the next operation with `P` at the number of its indices, and nothing else of the
state has changed. -/
theorem run_loop {α : Type} {c : Config} {i : Instr} (body : α → State) {P : Nat → α → Prop}
    (hcfg : ∀ a, (body a).cfg = c) (hfault : ∀ a, (body a).fault = false)
    (hstep : ∀ n a, n < i.lastIndex c + 1 → P n a →
      ∃ b, exec i ((body a).atPoint i n) = .next (advance i ((body b).atPoint i n)) ∧ P (n + 1) b)
    {a : α} (ha : P 0 a) :
    ∃ b, core.run (i.lastIndex c + 1) ((body a).atPoint i 0) = .next ((body b).atPoint i.successor 0) ∧
      P (i.lastIndex c + 1) b := by
  suffices h : ∀ k n a, n + k = i.lastIndex c → P n a →
      ∃ b, core.run (k + 1) ((body a).atPoint i n) = .next ((body b).atPoint i.successor 0) ∧
        P (i.lastIndex c + 1) b from
    h (i.lastIndex c) 0 a (Nat.zero_add _) ha
  intro k
  induction k with
  | zero =>
    intro n a hn ha
    have hlast : n = i.lastIndex c := hn
    obtain ⟨b, hexec, hb⟩ := hstep n a (by omega) ha
    rw [advance_atPoint_of_eq (by rw [hcfg, hlast]), ← step_atPoint (hfault a)] at hexec
    exact ⟨b, run_succ 0 hexec, hlast ▸ hb⟩
  | succ k ih =>
    intro n a hn ha
    obtain ⟨b, hexec, hb⟩ := hstep n a (by omega) ha
    rw [advance_atPoint_of_lt (by rw [hcfg]; omega), ← step_atPoint (hfault a)] at hexec
    obtain ⟨d, hrun, hd⟩ := ih (n + 1) b (by omega) hb
    exact ⟨d, (run_succ (k + 1) hexec).trans hrun, hd⟩

theorem npix_pos {c : Config} (h : c.wf = true) : 0 < c.npix := by
  simp only [Config.wf, Bool.and_eq_true, decide_eq_true_eq] at h
  obtain ⟨⟨hw, hh⟩, -⟩ := h
  exact Nat.mul_pos hw hh

/-- A buffer written in ascending order: what stands in front of the next index. -/
theorem take_set_concat {α : Type} {l : List α} {n : Nat} (h : n < l.length) (x : α) :
    (l.set n x).take (n + 1) = l.take n ++ [x] := by
  rw [List.take_add_one, List.take_set, List.set_eq_of_length_le (by simp), List.getElem?_set_self h]
  rfl

end Sys2Proof.Machine
end

section
/-! PROOF. The Disperser's stage, LDS and QDF over a frame, is DISPERSE (spec/40_disperser.md R131): the grid holds the
samples loaded so far, and then the cells not yet visited are those that DISPERSE goes on with. -/

namespace Sys2Proof.Machine

/-! ### The frame's beats and the grid they load (30_encoding.md R90, R112) -/

/-- The beat of cell `n` of a frame. -/
def frameBeat (c : Config) (n : Nat) (v : Byte) : Beat where
  data := v
  eol := eolExpected c n
  eof := eofExpected c n

theorem drop_beatsOf {c : Config} {frame : List Byte} {n : Nat} (h : n < frame.length) :
    (beatsOf c frame).drop n = encodeBeat (frameBeat c n frame[n]) :: (beatsOf c frame).drop (n + 1) := by
  rw [List.drop_eq_getElem_cons (by simpa [beatsOf] using h)]
  simp [beatsOf, frameBeat]

theorem flagsRight_frameBeat (c : Config) (n : Nat) (v : Byte) : FlagsRight c n (encodeBeat (frameBeat c n v)) := by
  rw [← beatOkAt_decodeBeat, decodeBeat_encodeBeat]
  simp [beatOkAt, frameBeat]

/-- The first `n` samples of a grid. -/
def Grid.take (n : Nat) : Grid → Grid
  | .exact cells => .exact (cells.take n)
  | .fx cells => .fx (cells.take n)

theorem Grid.take_npix {c : Config} {g : Grid} (h : g.fits c = true) : g.take c.npix = g := by
  rcases Grid.fits_cases h with ⟨cells, -, rfl, hlen⟩ | ⟨-, -, cells, -, rfl, hlen⟩
  · exact congrArg Grid.exact (List.take_of_length_le hlen.le)
  · exact congrArg Grid.fx (List.take_of_length_le hlen.le)

theorem Grid.take_zero_eq {c : Config} {g g' : Grid} (h : g.fits c = true) (h' : g'.fits c = true) :
    g.take 0 = g'.take 0 := by
  rcases Grid.fits_cases h with ⟨cells, hnum, rfl, -⟩ | ⟨fracK, accBits, cells, hnum, rfl, -⟩ <;>
    rcases Grid.fits_cases h' with ⟨cells', hnum', rfl, -⟩ | ⟨fracK', accBits', cells', hnum', rfl, -⟩
  · rfl
  · cases hnum.symm.trans hnum'
  · cases hnum.symm.trans hnum'
  · rfl

theorem loadedGrid_fits {c : Config} {frame : List Byte} (h : frame.length = c.npix) :
    (loadedGrid c frame).fits c = true := by
  cases hnum : c.numerics <;> simp [loadedGrid, Grid.fits, hnum, h]

theorem take_set_eq_take {α β : Type} {l : List α} {l' : List β} {f : β → α} {n : Nat}
    (h : l.take n = (l'.map f).take n) (hn : n < l.length) (hn' : n < l'.length) :
    (l.set n (f l'[n])).take (n + 1) = (l'.map f).take (n + 1) := by
  rw [take_set_concat hn, h, ← List.take_append_getElem (by simpa using hn'), List.getElem_map]

/-- One more sample of the frame is in its place. -/
theorem Grid.take_of_gridLoad {c : Config} {frame : List Byte} {n : Nat} {g g' : Grid} (hg : g.fits c = true)
    (hn : n < c.npix) (hframe : n < frame.length) (hload : gridLoad c n frame[n] g = .ok g')
    (hdone : g.take n = (loadedGrid c frame).take n) : g'.take (n + 1) = (loadedGrid c frame).take (n + 1) := by
  rcases Grid.fits_cases hg with ⟨cells, hnum, rfl, hlen⟩ | ⟨fracK, accBits, cells, hnum, rfl, hlen⟩
  · cases (gridLoad_exact hnum (hlen ▸ hn)).symm.trans hload
    simp only [loadedGrid, hnum, Grid.take, Grid.exact.injEq] at hdone ⊢
    exact take_set_eq_take hdone (hlen ▸ hn) hframe
  · cases (gridLoad_fx hnum (hlen ▸ hn)).symm.trans hload
    simp only [loadedGrid, hnum, Grid.take, Grid.fx.injEq] at hdone ⊢
    exact take_set_eq_take hdone (hlen ▸ hn) hframe

/-- Under NUM_FX an input sample is below `2 ^ (FRAC_K + 11)`, well within ACC_BITS bits (R122). -/
theorem loadedGrid_inRange {c : Config} (h : c.numericsOk = true) (frame : List Byte) :
    (loadedGrid c frame).inRange c = true := by
  cases hnum : c.numerics with
  | exact => simp [Grid.inRange, hnum]
  | fx fracK accBits =>
    have hbits : fracK + 13 ≤ accBits := by
      simp only [Config.numericsOk, hnum, Bool.and_eq_true, decide_eq_true_eq] at h
      exact h.1
    have hpow : (2 : Int) ^ (11 + fracK) ≤ 2 ^ (accBits - 1) := pow_le_pow_right₀ (by decide) (by omega)
    have hrange (v : Byte) : FitsAcc accBits ((numFx fracK accBits c.ref).ofByte v) := by
      have hv : 6 * (v.toNat : Int) < 2 ^ 11 := by
        have := v.isLt
        omega
      have hsample : 6 * (v.toNat : Int) * 2 ^ fracK < 2 ^ (11 + fracK) := by
        rw [pow_add]
        exact mul_lt_mul_of_pos_right hv (by positivity)
      have hnonneg : 0 ≤ 6 * (v.toNat : Int) * 2 ^ fracK := by positivity
      change -_ ≤ 6 * (v.toNat : Int) * 2 ^ fracK ∧ 6 * (v.toNat : Int) * 2 ^ fracK < _
      constructor <;> omega
    simpa [Grid.inRange, loadedGrid, hnum, fxInRange_iff] using fun v _ => hrange v

/-! ### The loads -/

theorem run_lds {s : State} {frame : List Byte} {rest : List BeatWord} (hfault : s.fault = false)
    (hpix : 0 < s.cfg.npix) (hg : s.g.fits s.cfg = true) (hframe : frame.length = s.cfg.npix)
    (hinq : s.inq = beatsOf s.cfg frame ++ rest) :
    core.run s.cfg.npix (s.atPoint .lds 0) =
      .next (State.atPoint { s with inq := rest, g := loadedGrid s.cfg frame } .qdf 0) := by
  have hlast : Instr.lastIndex s.cfg .lds + 1 = s.cfg.npix := Nat.sub_add_cancel hpix
  have hloop := run_loop (c := s.cfg) (i := .lds)
    (fun a : List BeatWord × Grid => { s with inq := a.1, g := a.2 })
    (P := fun n a => a.1 = (beatsOf s.cfg frame).drop n ++ rest ∧ a.2.fits s.cfg = true ∧
      a.2.take n = (loadedGrid s.cfg frame).take n)
    (fun _ => rfl) (fun _ => hfault) ?step
    (a := (s.inq, s.g)) ⟨hinq, hg, Grid.take_zero_eq hg (loadedGrid_fits hframe)⟩
  case step =>
    rintro n ⟨beats, g⟩ hn ⟨hbeats, hfits, hdone⟩
    dsimp only at hbeats hfits hdone
    have hn : n < s.cfg.npix := hlast ▸ hn
    have hcell : n < frame.length := hframe ▸ hn
    obtain ⟨g', hload⟩ := exists_gridLoad frame[n] hfits hn
    rw [drop_beatsOf hcell, List.cons_append] at hbeats
    refine ⟨(_, g'), exec_lds_of_flagsRight (s := State.atPoint { s with inq := beats, g := g } .lds n) hbeats
      (flagsRight_frameBeat _ _ _) ?_, rfl, gridLoad_fits hload hfits, Grid.take_of_gridLoad hfits hn hcell hload hdone⟩
    rw [decodeBeat_encodeBeat]
    exact hload
  obtain ⟨⟨beats, g⟩, hrun, hbeats, hfits, hdone⟩ := hloop
  dsimp only at hbeats hfits hdone
  rw [hlast] at hrun hbeats hdone
  rw [Grid.take_npix hfits, Grid.take_npix (loadedGrid_fits hframe)] at hdone
  rw [List.drop_of_length_le (by simp [beatsOf, hframe]), List.nil_append] at hbeats
  subst hbeats hdone
  exact hrun

/-! ### The levels -/

theorem exec_qdf_of_level {s : State} {level : Sym} {g : Grid} (hlevel : gridQuantize s.cfg s.pos s.g = .ok (level, g))
    (hcell : s.pos < s.q.length) :
    exec .qdf s = .next (advance .qdf { s with g := g, q := s.q.set s.pos level }) := by
  simp only [exec, execQdf, hlevel, hcell, if_true]

theorem quantizeFrom_succ_eq_ok {c : Config} {k n : Nat} {g : Grid} {levels : List Sym} :
    quantizeFrom c (k + 1) n g = .ok levels ↔ ∃ level g' later, gridQuantize c n g = .ok (level, g') ∧
      quantizeFrom c k (n + 1) g' = .ok later ∧ levels = level :: later := by
  rw [quantizeFrom]
  rcases gridQuantize c n g with e | ⟨level, g'⟩
  · simp
  · cases hlater : quantizeFrom c k (n + 1) g' <;> simp [hlater, Except.map, eq_comm]

/-- A diffusion writes only what ADD answers. -/
theorem forall_mem_of_spread {Sample : Type} {num : Numerics Sample} {e : Sample} {p : Sample → Prop}
    (hadd : ∀ a b z, num.add a b = some z → p z) (targets : List (Nat × Nat)) :
    ∀ {cells cells' : List Sample}, (∀ x ∈ cells, p x) → spread num e targets cells = .ok cells' →
      ∀ x ∈ cells', p x := by
  induction targets with
  | nil =>
    intro cells cells' hp h
    cases h
    exact hp
  | cons target rest ih =>
    intro cells cells' hp h
    rw [spread] at h
    split at h
    · cases h
    · split at h
      · cases h
      · rename_i z hz
        refine ih (fun x hx => ?_) h
        rcases List.mem_or_eq_of_mem_set hx with hx | rfl
        · exact hp x hx
        · exact hadd _ _ _ hz

/-- QDF keeps the samples in the range of NUM_FX: every sum is checked before it is written (R130). -/
theorem gridQuantize_inRange {c : Config} {n : Nat} {g g' : Grid} {level : Sym}
    (h : gridQuantize c n g = .ok (level, g')) (hg : g.inRange c = true) : g'.inRange c = true := by
  cases hnum : c.numerics with
  | exact => simp [Grid.inRange, hnum]
  | fx fracK accBits =>
    cases g with
    | exact cells => simp [gridQuantize, hnum] at h
    | fx cells =>
      have hadd (a b z : Int) (hz : fxCheck accBits (a + b) = some z) : fxInRange accBits z = true := by
        obtain ⟨hin, rfl⟩ := fxCheck_eq_some.1 hz
        exact hin
      simp only [gridQuantize, hnum] at h
      rcases quantizeCell_cases (numFx fracK accBits c.ref) c n cells with
        ⟨-, hq⟩ | ⟨x, -, ⟨-, hq⟩ | ⟨e, -, ⟨r, -, hq⟩ | ⟨cells', hspread, hq⟩⟩⟩ <;> rw [hq] at h <;> cases h
      simp only [Grid.inRange, hnum, List.all_eq_true] at hg ⊢
      exact forall_mem_of_spread hadd _ hg hspread

theorem run_qdf {s : State} {levels : List Sym} (hfault : s.fault = false) (hpix : 0 < s.cfg.npix)
    (hg : s.g.fits s.cfg = true) (hrange : s.g.inRange s.cfg = true) (hq : s.q.length = s.cfg.npix)
    (hlevels : quantizeFrom s.cfg s.cfg.npix 0 s.g = .ok levels) :
    ∃ g, core.run s.cfg.npix (s.atPoint .qdf 0) = .next (State.atPoint { s with g := g, q := levels } .tcn 0) ∧
      g.fits s.cfg = true ∧ g.inRange s.cfg = true ∧ levels.length = s.cfg.npix := by
  have hlast : Instr.lastIndex s.cfg .qdf + 1 = s.cfg.npix := Nat.sub_add_cancel hpix
  have hloop := run_loop (c := s.cfg) (i := .qdf)
    (fun a : Grid × List Sym => { s with g := a.1, q := a.2 })
    (P := fun n a => a.1.fits s.cfg = true ∧ a.1.inRange s.cfg = true ∧ a.2.length = s.cfg.npix ∧
      ∃ later, quantizeFrom s.cfg (s.cfg.npix - n) n a.1 = .ok later ∧ a.2.take n ++ later = levels)
    (fun _ => rfl) (fun _ => hfault) ?step (a := (s.g, s.q)) ⟨hg, hrange, hq, levels, hlevels, rfl⟩
  case step =>
    rintro n ⟨g, q⟩ hn ⟨hfits, hrange, hlen, later, hlater, hall⟩
    dsimp only at hfits hrange hlen hlater hall
    have hcell : n < q.length := by omega
    have hmore : s.cfg.npix - n = s.cfg.npix - (n + 1) + 1 := by omega
    rw [hmore, quantizeFrom_succ_eq_ok] at hlater
    obtain ⟨level, g', later, hlevel, hlater, rfl⟩ := hlater
    refine ⟨(g', _), exec_qdf_of_level (s := State.atPoint { s with g := g, q := q } .qdf n) hlevel hcell,
      gridQuantize_fits hlevel hfits, gridQuantize_inRange hlevel hrange, (List.length_set ..).trans hlen, later,
      hlater, ?_⟩
    rw [← hall]
    exact (congrArg (· ++ later) (take_set_concat hcell level)).trans (List.append_assoc _ _ _)
  obtain ⟨⟨g, q⟩, hrun, hfits, hrange, hlen, later, hlater, hall⟩ := hloop
  dsimp only at hfits hrange hlen hlater hall
  rw [hlast] at hrun hall hlater
  rw [Nat.sub_self] at hlater
  cases hlater
  rw [List.append_nil, List.take_of_length_le hlen.le] at hall
  subst hall
  exact ⟨g, hrun, hfits, hrange, hlen⟩

/-! ### The stage -/

/-- What the Disperser writes. -/
def afterDisperser (s : State) (rest : List BeatWord) (g : Grid) (levels : List Sym) : State :=
  { s with inq := rest, g := g, q := levels }

/-- From LDS@0 to TCN@0. -/
theorem run_disperser {s : State} {frame : List Byte} {rest : List BeatWord} {levels : List Sym}
    (hfault : s.fault = false) (hcfg : s.cfg.wf = true) (hmem : Memory.wf s = true)
    (hframe : frame.length = s.cfg.npix) (hinq : s.inq = beatsOf s.cfg frame ++ rest)
    (hlevels : disperse s.cfg frame = .ok levels) :
    ∃ g, core.run (s.cfg.npix + s.cfg.npix) (s.atPoint .lds 0) =
        .next ((afterDisperser s rest g levels).atPoint .tcn 0) ∧
      g.fits s.cfg = true ∧ g.inRange s.cfg = true ∧ levels.length = s.cfg.npix := by
  have hpix := npix_pos hcfg
  obtain ⟨hfits, hq, -⟩ := (memory_wf_iff s).1 hmem
  obtain ⟨-, hnum⟩ := (Bool.and_eq_true _ _).mp hcfg
  obtain ⟨g, hqdf, hg⟩ := run_qdf (s := { s with inq := rest, g := loadedGrid s.cfg frame }) hfault hpix
    (loadedGrid_fits hframe) (loadedGrid_inRange hnum frame) hq hlevels
  exact ⟨g, run_trans (run_lds hfault hpix hfits hframe hinq) hqdf, hg⟩

end Sys2Proof.Machine
end

section
/-! PROOF. The Transition Modeler's stage, TCN, RNK and RMP over a frame, is MARKOV (spec/41_transition_modeler.md
R149). The layer under it: what one more symbol does to each of MARKOV's functions. -/

namespace Sys2Proof.Machine

/-! ### One more symbol -/

theorem transitions_concat (q : List Sym) (x : Sym) :
    transitions (q ++ [x]) = transitions q ++ [(q.getLastD 0, x)] := by
  suffices h : ∀ p : Sym, (p :: (q ++ [x])).zip (q ++ [x]) = (p :: q).zip q ++ [(q.getLastD p, x)] from h 0
  induction q with
  | nil => exact fun p => rfl
  | cons y q ih =>
    intro p
    rw [List.cons_append, List.zip_cons_cons, ih y, List.zip_cons_cons, List.cons_append, List.getLastD_cons]

theorem transitionMatrix_concat (q : List Sym) (x : Sym) :
    transitionMatrix (q ++ [x]) = bumpTransition (transitionMatrix q) (q.getLastD 0) x := by
  have hentry (q : List Sym) (i j : Sym) : (transitionMatrix q)[i][j] = (transitions q).count (i, j) := by
    simp [transitionMatrix]
  refine Vector.ext fun i hi => Vector.ext fun j hj => ?_
  have hbump := bumpTransition_getElem (transitionMatrix q) (q.getLastD 0) x ⟨i, hi⟩ ⟨j, hj⟩
  refine (hentry _ ⟨i, hi⟩ ⟨j, hj⟩).trans (Eq.trans ?_ hbump.symm)
  rw [transitions_concat, List.count_append, List.count_singleton, hentry]
  refine congrArg _ (if_congr ?_ rfl rfl)
  rw [beq_iff_eq, Prod.mk.injEq]
  exact and_congr eq_comm eq_comm

theorem remap_concat (rk : Vector (Vector Sym 7) 7) (q : List Sym) (x : Sym) :
    remap rk (q ++ [x]) = remap rk q ++ [rk[q.getLastD 0][x]] := by
  rw [remap, transitions_concat, List.map_append, List.map_singleton]
  rfl

theorem remap_length (rk : Vector (Vector Sym 7) 7) (q : List Sym) : (remap rk q).length = q.length := by
  simp [remap, transitions]

theorem histogramOf_concat (rs : List Sym) (k : Sym) :
    histogramOf (rs ++ [k]) = (histogramOf rs).set k ((histogramOf rs)[k] + 1) := by
  refine Vector.ext fun j hj => ?_
  have hset := getElem_set_succ (histogramOf rs) k ⟨j, hj⟩
  refine (histogramOf_getElem _ ⟨j, hj⟩).trans (Eq.trans ?_ hset.symm)
  rw [List.count_append, List.count_singleton, histogramOf_getElem]
  refine congrArg _ (if_congr ?_ rfl rfl)
  rw [beq_iff_eq, eq_comm]

theorem rankMatrix_isPermutation (tie : RankTie) (t : Vector (Vector Nat 7) 7) (i : Sym) :
    IsPermutation (rankMatrix tie t)[i] := by
  have hrow : (rankMatrix tie t)[i] = rankRow tie t[i] := by simp [rankMatrix]
  rw [hrow]
  exact rankRow_isPermutation tie t[i]

/-! ### TCN and RMP, with the cells before POS done -/

section
variable {s : State}

/-- TCN's clearing at POS 0 makes T and PREV those of no cell (R141, 70_reset_and_hazards.md R253). -/
theorem startCount_eq_transitionMatrix
    (h : 0 < s.pos → s.t = transitionMatrix (s.q.take s.pos) ∧ s.prev = (s.q.take s.pos).getLastD 0) :
    (startCount s).t = transitionMatrix (s.q.take s.pos) ∧ (startCount s).prev = (s.q.take s.pos).getLastD 0 := by
  have hnone : Vector.replicate 7 (Vector.replicate 7 0) = transitionMatrix [] := by decide
  rw [startCount_t, startCount_prev]
  rcases Nat.eq_zero_or_pos s.pos with hzero | hpos
  · rw [if_pos hzero, if_pos hzero, hzero]
    exact ⟨hnone, rfl⟩
  · rw [if_neg hpos.ne', if_neg hpos.ne']
    exact h hpos

theorem exec_tcn_of_counted (hcell : s.pos < s.q.length)
    (h : 0 < s.pos → s.t = transitionMatrix (s.q.take s.pos) ∧ s.prev = (s.q.take s.pos).getLastD 0) :
    exec .tcn s = .next (advance .tcn { s with
      t := transitionMatrix (s.q.take (s.pos + 1)), prev := (s.q.take (s.pos + 1)).getLastD 0 }) := by
  obtain ⟨ht, hprev⟩ := startCount_eq_transitionMatrix h
  rw [exec_tcn_of_cell (List.getElem?_eq_getElem hcell), ht, hprev, ← transitionMatrix_concat,
    List.take_append_getElem hcell, ← List.take_append_getElem hcell, List.getLastD_concat]

/-- RMP's clearing at POS 0 makes HIST and PREV those of no cell (R146, 70_reset_and_hazards.md R253). -/
theorem startRemap_eq_histogramOf
    (h : 0 < s.pos → s.hist = histogramOf (s.rs.take s.pos) ∧ s.prev = (s.q.take s.pos).getLastD 0) :
    (startRemap s).hist = histogramOf (s.rs.take s.pos) ∧
      (if s.pos = 0 then 0 else s.prev) = (s.q.take s.pos).getLastD 0 := by
  have hnone : Vector.replicate 7 0 = histogramOf [] := by decide
  rw [startRemap_hist]
  rcases Nat.eq_zero_or_pos s.pos with hzero | hpos
  · rw [if_pos hzero, if_pos hzero, hzero]
    exact ⟨hnone, rfl⟩
  · rw [if_neg hpos.ne', if_neg hpos.ne']
    exact h hpos

theorem exec_rmp_of_remapped {k : Sym} (hcell : s.pos < s.q.length) (hslot : s.pos < s.rs.length)
    (hk : k = s.rk[(s.q.take s.pos).getLastD 0][s.q[s.pos]])
    (h : 0 < s.pos → s.hist = histogramOf (s.rs.take s.pos) ∧ s.prev = (s.q.take s.pos).getLastD 0) :
    exec .rmp s = .next (advance .rmp { s with
      rs := s.rs.set s.pos k
      hist := histogramOf ((s.rs.set s.pos k).take (s.pos + 1))
      prev := (s.q.take (s.pos + 1)).getLastD 0 }) := by
  obtain ⟨hhist, hprev⟩ := startRemap_eq_histogramOf h
  rw [exec_rmp_of_cell (List.getElem?_eq_getElem hcell) hslot (hk.trans (by simp only [hprev])), hhist,
    take_set_concat hslot, histogramOf_concat, ← List.take_append_getElem hcell, List.getLastD_concat]

end

/-! ### The loops -/

section
variable {s : State} (hfault : s.fault = false)
include hfault

theorem run_tcn (hpix : 0 < s.cfg.npix) (hq : s.q.length = s.cfg.npix) : core.run s.cfg.npix (s.atPoint .tcn 0) =
    .next (State.atPoint { s with t := transitionMatrix s.q, prev := s.q.getLastD 0 } .rnk 0) := by
  have hlast : Instr.lastIndex s.cfg .tcn + 1 = s.cfg.npix := Nat.sub_add_cancel hpix
  have hloop := run_loop (c := s.cfg) (i := .tcn)
    (fun a : Vector (Vector Nat 7) 7 × Sym => { s with t := a.1, prev := a.2 })
    (P := fun n a => 0 < n → a.1 = transitionMatrix (s.q.take n) ∧ a.2 = (s.q.take n).getLastD 0)
    (fun _ => rfl) (fun _ => hfault) ?step (a := (s.t, s.prev)) (fun h => absurd h (lt_irrefl 0))
  case step =>
    rintro n ⟨t, prev⟩ hn hcounts
    have hcell : n < s.q.length := by omega
    exact ⟨(_, _), exec_tcn_of_counted (s := State.atPoint { s with t := t, prev := prev } .tcn n) hcell hcounts,
      fun _ => ⟨rfl, rfl⟩⟩
  obtain ⟨⟨t, prev⟩, hrun, hcounts⟩ := hloop
  rw [hlast] at hrun hcounts
  rw [List.take_of_length_le hq.le] at hcounts
  obtain ⟨rfl, rfl⟩ := hcounts hpix
  exact hrun

theorem run_rnk : core.run 7 (s.atPoint .rnk 0) =
    .next (State.atPoint { s with rk := rankMatrix s.cfg.rankTie s.t } .rmp 0) := by
  have hloop := run_loop (c := s.cfg) (i := .rnk) (fun rk => { s with rk := rk })
    (P := fun n rk => ∀ i : Sym, i.val < n → rk[i] = rankRow s.cfg.rankTie s.t[i])
    (fun _ => rfl) (fun _ => hfault) ?step (a := s.rk) (fun i hi => absurd hi i.val.not_lt_zero)
  case step =>
    refine fun n rk hn hrk => ⟨_, exec_rnk_of_lt (s := State.atPoint { s with rk := rk } .rnk n) hn, fun i hi => ?_⟩
    rcases Nat.lt_succ_iff_lt_or_eq.1 hi with hlt | rfl
    · exact (Vector.getElem_set_ne hn i.isLt hlt.ne').trans (hrk i hlt)
    · exact Vector.getElem_set_self hn
  obtain ⟨rk, hrun, hrk⟩ := hloop
  obtain rfl : rk = rankMatrix s.cfg.rankTie s.t :=
    Vector.ext fun i hi => (hrk ⟨i, hi⟩ hi).trans (by simp [rankMatrix])
  exact hrun

theorem run_rmp (hpix : 0 < s.cfg.npix) (hq : s.q.length = s.cfg.npix) (hrs : s.rs.length = s.cfg.npix) :
    core.run s.cfg.npix (s.atPoint .rmp 0) = .next (State.atPoint { s with
      rs := remap s.rk s.q, hist := histogramOf (remap s.rk s.q), prev := s.q.getLastD 0 } .hsd 0) := by
  have hlast : Instr.lastIndex s.cfg .rmp + 1 = s.cfg.npix := Nat.sub_add_cancel hpix
  have hloop := run_loop (c := s.cfg) (i := .rmp)
    (fun a : List Sym × Vector Nat 7 × Sym => { s with rs := a.1, hist := a.2.1, prev := a.2.2 })
    (P := fun n a => a.1.length = s.cfg.npix ∧ a.1.take n = remap s.rk (s.q.take n) ∧
      (0 < n → a.2.1 = histogramOf (a.1.take n) ∧ a.2.2 = (s.q.take n).getLastD 0))
    (fun _ => rfl) (fun _ => hfault) ?step
    (a := (s.rs, s.hist, s.prev)) ⟨hrs, rfl, fun h => absurd h (lt_irrefl 0)⟩
  case step =>
    rintro n ⟨rs, hist, prev⟩ hn ⟨hlen, hmap, hcounts⟩
    dsimp only at hlen hmap hcounts
    have hcell : n < s.q.length := by omega
    have hslot : n < rs.length := by omega
    refine ⟨(_, _, _), exec_rmp_of_remapped (s := State.atPoint { s with rs := rs, hist := hist, prev := prev } .rmp n)
      hcell hslot rfl hcounts, (List.length_set ..).trans hlen, ?_, fun _ => ⟨rfl, rfl⟩⟩
    rw [← List.take_append_getElem hcell, remap_concat, ← hmap]
    exact take_set_concat hslot _
  obtain ⟨⟨rs, hist, prev⟩, hrun, hlen, hmap, hcounts⟩ := hloop
  dsimp only at hlen hmap hcounts
  rw [hlast] at hrun hmap hcounts
  rw [List.take_of_length_le hlen.le, List.take_of_length_le hq.le] at hmap hcounts
  obtain ⟨rfl, rfl⟩ := hcounts hpix
  rwa [hmap] at hrun

end

/-! ### The stage -/

/-- What the Transition Modeler writes: MARKOV of Q. -/
def afterMarkov (s : State) : State :=
  { s with
    t := transitionMatrix s.q
    rk := rankMatrix s.cfg.rankTie (transitionMatrix s.q)
    rs := remap (rankMatrix s.cfg.rankTie (transitionMatrix s.q)) s.q
    hist := histogramOf (remap (rankMatrix s.cfg.rankTie (transitionMatrix s.q)) s.q)
    prev := s.q.getLastD 0 }

/-- From TCN@0 to HSD@0. -/
theorem run_markov {s : State} (hfault : s.fault = false) (hpix : 0 < s.cfg.npix) (hq : s.q.length = s.cfg.npix)
    (hrs : s.rs.length = s.cfg.npix) :
    core.run (s.cfg.npix + (7 + s.cfg.npix)) (s.atPoint .tcn 0) = .next ((afterMarkov s).atPoint .hsd 0) := by
  have hrnk := run_rnk (s := { s with t := transitionMatrix s.q, prev := s.q.getLastD 0 }) hfault
  have hrmp := run_rmp (s := { s with
    t := transitionMatrix s.q, prev := s.q.getLastD 0
    rk := rankMatrix s.cfg.rankTie (transitionMatrix s.q) }) hfault hpix hq hrs
  exact run_trans (run_tcn hfault hpix hq) (run_trans hrnk hrmp)

end Sys2Proof.Machine
end

section
/-! PROOF. The Huffman stage as a run from HSD@0, with the codewords it leaves in normal form (spec/42_huffman_coder.md
R172). -/

namespace Sys2Proof.Machine

/-- `s` with what `a` holds of the Huffman Coder's registers and buffers. -/
def withHuffmanOf (s a : State) : State :=
  { s with hl := a.hl, tree := a.tree, cw := a.cw, hlen := a.hlen, nnode := a.nnode }

/-- From HSD@0 to ERK@0. -/
theorem run_huffman {s : State} (hfault : s.fault = false) : ∃ a : State,
    core.run 7 (s.atPoint .hsd 0) = .next ((withHuffmanOf s a).atPoint .erk 0) ∧
    codeOf a = (huff s.hist).code ∧ a.tree.toList.map TreeNode.pair = (huff s.hist).nodes ∧
    ∀ m : Sym, a.cw[m].Normal := by
  have hseed : step (s.atPoint .hsd 0) = .next ((withHuffmanOf s (seedHuffman s)).atPoint .hmg 0) :=
    (step_atPoint hfault .hsd 0).trans (exec_hsd _)
  have hloop := run_loop (c := s.cfg) (i := .hmg) (withHuffmanOf s)
    (P := fun n a => BetweenMerges ((withHuffmanOf s a).atPoint .hmg n))
    (fun _ => rfl) (fun _ => hfault) ?step (a := seedHuffman s) (betweenMerges_seedHuffman s)
  case step =>
    intro n a hn ha
    obtain ⟨left, right, hnode, hexec, hnext⟩ := ha.exec_hmg hn
    exact ⟨mergeHuffman _ left right hnode, hexec, hnext⟩
  obtain ⟨a, hmerges, h⟩ := hloop
  obtain ⟨hcode, hnodes⟩ := h.treeSoFar_eq_huff rfl
  exact ⟨a, (run_succ 6 hseed).trans hmerges, hcode, hnodes, h.normal⟩

end Sys2Proof.Machine
end

section
/-! PROOF. The Bit Packer's and Frame Serializer's stage, ERK, ETN, PCW and FLS, is SERIALIZE
(spec/43_bitpacker_serializer.md R190). The layers under it: numbers as bit strings, bytes of bit strings, PCW on bit
strings, and the fields of a record. -/

namespace Sys2Proof.Machine

/-! ### Bit strings of numbers (20_memory.md R64) -/

/-- The low `n` bits of a number, the highest first. -/
def msbBits (n x : Nat) : List Bool := (List.range n).map fun i => x.testBit (n - 1 - i)

theorem accBits_eq_msbBits (bacc : BitVec 7) (bcnt : BitVec 3) :
    accBits bacc bcnt = msbBits bcnt.toNat bacc.toNat := rfl

theorem toBits_eq_msbBits (c : Codeword) : c.toBits = msbBits c.len.toNat c.bits.toNat := rfl

theorem bitsOfByte_eq_msbBits (b : Byte) : bitsOfByte b = msbBits 8 b.toNat := rfl

theorem msbBits_succ (n x : Nat) : msbBits (n + 1) x = x.testBit n :: msbBits n x := by
  rw [msbBits, List.range_succ_eq_map, List.map_cons, List.map_map]
  refine congrArg _ (List.map_congr_left fun i _ => ?_)
  rw [Function.comp_apply, Nat.succ_eq_add_one, Nat.add_sub_cancel, Nat.add_comm i, Nat.sub_add_eq]

theorem msbBits_mul_add (m x : Nat) {n y : Nat} (hy : y < 2 ^ n) :
    msbBits (m + n) (x * 2 ^ n + y) = msbBits m x ++ msbBits n y := by
  induction m with
  | zero =>
    rw [Nat.zero_add]
    refine List.map_congr_left fun i hi => ?_
    have hi : i < n := List.mem_range.1 hi
    rw [Nat.mul_comm, Nat.testBit_two_pow_mul_add _ hy, if_pos (by omega)]
  | succ m ih =>
    rw [Nat.succ_add, msbBits_succ, ih, msbBits_succ, List.cons_append, Nat.mul_comm, Nat.testBit_two_pow_mul_add _ hy,
      if_neg (by omega), Nat.add_sub_cancel]

theorem foldl_msbBits (n x acc : Nat) :
    (msbBits n x).foldl (fun acc b => 2 * acc + b.toNat) acc = acc * 2 ^ n + x % 2 ^ n := by
  induction n generalizing acc with
  | zero => simp [msbBits, Nat.mod_one]
  | succ n ih =>
    rw [msbBits_succ, List.foldl_cons, ih, Nat.mod_pow_succ, Nat.toNat_testBit]
    ring

/-! ### Bytes of bit strings (R185) -/

theorem byteOfBits_bitsOfByte (b : Byte) : byteOfBits (bitsOfByte b) = b := by
  rw [byteOfBits, bitsOfByte_eq_msbBits, foldl_msbBits, Nat.zero_mul, Nat.zero_add, Nat.mod_eq_of_lt b.isLt,
    BitVec.ofNat_toNat, BitVec.setWidth_eq]

theorem bitsOfByte_length (b : Byte) : (bitsOfByte b).length = 8 := by
  simp [bitsOfByte]

theorem flatMap_bitsOfByte_length (bytes : List Byte) : (bytes.flatMap bitsOfByte).length = 8 * bytes.length := by
  simp [List.length_flatMap, bitsOfByte_length, Nat.mul_comm]

theorem bytesMsbFirst_flatMap_bitsOfByte (bytes : List Byte) : bytesMsbFirst (bytes.flatMap bitsOfByte) = bytes := by
  induction bytes with
  | nil => rfl
  | cons b bytes ih =>
    rw [bytesMsbFirst, flatMap_bitsOfByte_length, Nat.mul_div_cancel_left _ (by decide)] at ih ⊢
    rw [List.length_cons, List.range_succ_eq_map, List.map_cons, List.map_map, List.flatMap_cons]
    refine congrArg₂ List.cons ?_ (Eq.trans (List.map_congr_left fun k _ => ?_) ih)
    · rw [Nat.mul_zero, List.drop_zero, List.take_left' (bitsOfByte_length b), byteOfBits_bitsOfByte]
    · rw [Function.comp_apply, Nat.mul_succ, Nat.add_comm, ← List.drop_drop, List.drop_left' (bitsOfByte_length b)]

/-- Padding looks at the length modulo 8 only. -/
theorem padBits_bytes_append (bytes : List Byte) (bits : List Bool) :
    padBits (bytes.flatMap bitsOfByte ++ bits) = bytes.flatMap bitsOfByte ++ padBits bits := by
  rw [padBits, List.length_append, flatMap_bitsOfByte_length, Nat.mul_add_mod, List.append_assoc, padBits]

/-- The bytes of a padded bit string are the bytes completed, and the flush of the bits that are left (R188). -/
theorem bytesMsbFirst_padBits {bits : List Bool} {packed : List Byte} {bacc : BitVec 7} {bcnt : BitVec 3}
    (h : packed.flatMap bitsOfByte ++ accBits bacc bcnt = bits) :
    bytesMsbFirst (padBits bits) = packed ++ flushBytes bacc bcnt := by
  rw [← h, padBits_bytes_append, ← flushBytes_bits, ← List.flatMap_append, bytesMsbFirst_flatMap_bitsOfByte]

/-! ### PCW on bit strings (R185) -/

/-- No bit is lost, moved or invented. -/
theorem packCodeword_keeps_bits {bacc : BitVec 7} {bcnt : BitVec 3} {c : Codeword} (hheld : bacc.toNat < 2 ^ bcnt.toNat)
    (hc : c.Normal) :
    (packCodeword bacc bcnt c).bytes.flatMap bitsOfByte ++
        accBits (packCodeword bacc bcnt c).bacc (packCodeword bacc bcnt c).bcnt = accBits bacc bcnt ++ c.toBits ∧
      (packCodeword bacc bcnt c).bacc.toNat < 2 ^ (packCodeword bacc bcnt c).bcnt.toNat := by
  rw [accBits_eq_msbBits, accBits_eq_msbBits, toBits_eq_msbBits, ← msbBits_mul_add _ _ hc.2]
  rcases le_or_gt 8 (bcnt.toNat + c.len.toNat) with h | h
  · obtain ⟨hbytes, hbyte, hacc, hcnt⟩ := packCodeword_of_le rfl rfl hheld hc h
    have hstay : (bacc.toNat * 2 ^ c.len.toNat + c.bits.toNat) % 2 ^ (bcnt.toNat + c.len.toNat - 8) <
        2 ^ (bcnt.toNat + c.len.toNat - 8) := Nat.mod_lt _ (by positivity)
    rw [hbytes, hacc, hcnt, List.flatMap_singleton, bitsOfByte_eq_msbBits, BitVec.toNat_ofNat, Nat.mod_eq_of_lt hbyte,
      ← msbBits_mul_add _ _ hstay, Nat.div_add_mod', Nat.add_sub_cancel' h]
    exact ⟨rfl, hstay⟩
  · obtain ⟨hbytes, hacc, hcnt⟩ := packCodeword_of_lt rfl rfl hheld hc h
    rw [hbytes, hacc, hcnt]
    exact ⟨rfl, accumulated_lt rfl rfl hheld hc⟩

/-! ### The fields of a record (30_encoding.md R100) -/

theorem rankField_succ (s : State) {n : Nat} (h : n < 7) :
    rankField s (n + 1) = rankField s n ++ encodeRankWord (permIdxClosed s.rk[n]) := by
  simp [rankField, List.take_add_one, h]

theorem treeField_succ (s : State) {n : Nat} (h : n < 6) :
    treeField s (n + 1) = treeField s n ++ [encodeNode s.tree[n].left s.tree[n].right] := by
  simp [treeField, List.take_add_one, h]

/-- The bytes `packed` with the bits of the accumulator behind them are the codewords of the first `n` cells (R186). -/
structure PackedCells (s : State) (n : Nat) (packed : List Byte) (bacc : BitVec 7) (bcnt : BitVec 3) : Prop where
  held : bacc.toNat < 2 ^ bcnt.toNat
  bits : packed.flatMap bitsOfByte ++ accBits bacc bcnt = frameBits (codeOf s) (s.rs.take n)

section
variable {s : State} {n : Nat} {packed : List Byte} {bacc : BitVec 7} {bcnt : BitVec 3}

theorem packedCells_zero (s : State) : PackedCells s 0 [] 0 0 := ⟨by decide, rfl⟩

theorem PackedCells.succ (h : PackedCells s n packed bacc bcnt) (hcell : n < s.rs.length)
    (hcw : s.cw[s.rs[n]].Normal) :
    PackedCells s (n + 1) (packed ++ (packCodeword bacc bcnt s.cw[s.rs[n]]).bytes)
      (packCodeword bacc bcnt s.cw[s.rs[n]]).bacc (packCodeword bacc bcnt s.cw[s.rs[n]]).bcnt := by
  obtain ⟨hbits, hheld⟩ := packCodeword_keeps_bits h.held hcw
  refine ⟨hheld, ?_⟩
  rw [List.flatMap_append, List.append_assoc, hbits, ← List.append_assoc, h.bits, ← List.take_append_getElem hcell,
    frameBits, frameBits, List.flatMap_append, List.flatMap_singleton, codeOf_getElem]

theorem PackedCells.append_flushBytes (h : PackedCells s s.rs.length packed bacc bcnt) :
    packed ++ flushBytes bacc bcnt = bytesMsbFirst (padBits (frameBits (codeOf s) s.rs)) := by
  rw [bytesMsbFirst_padBits (h.bits.trans (by rw [List.take_length]))]

end

theorem serialize_eq_fields {s : State} {tree : RefTree} (hcode : codeOf s = tree.code)
    (hnodes : s.tree.toList.map TreeNode.pair = tree.nodes) : serialize s.rk tree s.rs =
      rankField s 7 ++ treeField s 6 ++ bytesMsbFirst (padBits (frameBits (codeOf s) s.rs)) := by
  have hnode (n : TreeNode) : encodeNode n.left n.right = BitVec.ofNat 8 (n.pair.1 * 16 + n.pair.2) :=
    BitVec.eq_of_toNat_eq (by
      rw [TreeNode.pair, ← encodeNode_toNat, BitVec.ofNat_toNat, BitVec.setWidth_eq])
  have hrank : rankField s 7 = s.rk.toList.flatMap fun row => encodeRankWord (permIdxClosed row) := by
    rw [rankField, List.take_of_length_le (by simp)]
  have htree : treeField s 6 = tree.nodes.map fun n => BitVec.ofNat 8 (n.1 * 16 + n.2) := by
    rw [treeField, List.take_of_length_le (by simp), ← hnodes, List.map_map]
    exact List.map_congr_left fun n _ => hnode n
  rw [serialize, hrank, htree, hcode]

/-! ### The operations, with a sink that always accepts (44_sequencer_io.md R213) -/

theorem emit_of_sinkRoom_none {s : State} (h : s.sinkRoom = none) (bytes : List Byte) :
    emit bytes s = { s with out := s.out ++ bytes } := by
  simp only [emit, h, Option.map_none]

section
variable {s : State} (hsink : s.sinkRoom = none)
include hsink

theorem exec_erk_of_sinkRoom_none (hpos : s.pos < 7) (hrow : IsPermutation s.rk[s.pos]) :
    exec .erk s = .next (advance .erk { s with out := s.out ++ encodeRankWord (permIdxClosed s.rk[s.pos]) }) := by
  rw [exec_erk_of_isPermutation hpos hrow (sinkAccepts_of_none 2 hsink), emit_of_sinkRoom_none hsink]

theorem exec_etn_of_sinkRoom_none (hpos : s.pos < 6) : exec .etn s = .next (advance .etn
    { s with out := s.out ++ [encodeNode s.tree[s.pos].left s.tree[s.pos].right] }) := by
  rw [exec_etn_of_lt hpos (sinkAccepts_of_none 1 hsink), emit_of_sinkRoom_none hsink]

theorem exec_pcw_of_sinkRoom_none {p : Packed} (hp : packCell s = .ok p) : exec .pcw s = .next (advance .pcw
    { s with out := s.out ++ p.bytes, bacc := p.bacc, bcnt := p.bcnt }) := by
  rw [exec_pcw_of_packCell hp (sinkAccepts_of_none _ hsink), emit_of_sinkRoom_none hsink]

theorem exec_fls_of_sinkRoom_none : exec .fls s = .next (enter .lds
    { s with out := s.out ++ flushBytes s.bacc s.bcnt, bacc := 0, bcnt := 0, frameIdx := s.frameIdx + 1 }) := by
  rw [exec_fls_of_sinkAccepts fun _ => sinkAccepts_of_none 1 hsink, emit_of_sinkRoom_none hsink]

end

/-! ### The loops -/

section
variable {s : State} (hfault : s.fault = false) (hsink : s.sinkRoom = none)
include hfault hsink

theorem run_erk (hrk : ∀ i : Sym, IsPermutation s.rk[i]) : core.run 7 (s.atPoint .erk 0) =
    .next (State.atPoint { s with out := s.out ++ rankField s 7 } .etn 0) := by
  have hloop := run_loop (c := s.cfg) (i := .erk) (fun out => { s with out := out })
    (P := fun n out => out = s.out ++ rankField s n)
    (fun _ => rfl) (fun _ => hfault) ?step (a := s.out) (List.append_nil _).symm
  case step =>
    rintro n _ hn rfl
    refine ⟨_, exec_erk_of_sinkRoom_none (s := State.atPoint { s with out := s.out ++ rankField s n } .erk n) hsink hn
      (hrk ⟨n, hn⟩), ?_⟩
    rw [rankField_succ s hn, ← List.append_assoc]
    rfl
  obtain ⟨_, hrun, rfl⟩ := hloop
  exact hrun

theorem run_etn : core.run 6 (s.atPoint .etn 0) =
    .next (State.atPoint { s with out := s.out ++ treeField s 6 } .pcw 0) := by
  have hloop := run_loop (c := s.cfg) (i := .etn) (fun out => { s with out := out })
    (P := fun n out => out = s.out ++ treeField s n)
    (fun _ => rfl) (fun _ => hfault) ?step (a := s.out) (List.append_nil _).symm
  case step =>
    rintro n _ hn rfl
    refine ⟨_, exec_etn_of_sinkRoom_none (s := State.atPoint { s with out := s.out ++ treeField s n } .etn n) hsink hn,
      ?_⟩
    rw [treeField_succ s hn, ← List.append_assoc]
    rfl
  obtain ⟨_, hrun, rfl⟩ := hloop
  exact hrun

/-- PCW's clearing at POS 0 makes the accumulator empty (70_reset_and_hazards.md R253). -/
theorem run_pcw (hpix : 0 < s.cfg.npix) (hrs : s.rs.length = s.cfg.npix) (hcw : ∀ m : Sym, s.cw[m].Normal) :
    ∃ packed bacc bcnt, core.run s.cfg.npix (s.atPoint .pcw 0) =
        .next (State.atPoint { s with out := s.out ++ packed, bacc := bacc, bcnt := bcnt } .fls 0) ∧
      PackedCells s s.rs.length packed bacc bcnt := by
  have hlast : Instr.lastIndex s.cfg .pcw + 1 = s.cfg.npix := Nat.sub_add_cancel hpix
  have hloop := run_loop (c := s.cfg) (i := .pcw)
    (fun a : List Byte × BitVec 7 × BitVec 3 => { s with out := s.out ++ a.1, bacc := a.2.1, bcnt := a.2.2 })
    (P := fun n a => PackedCells s n a.1 (if n = 0 then 0 else a.2.1) (if n = 0 then 0 else a.2.2))
    (fun _ => rfl) (fun _ => hfault) ?step (a := ([], s.bacc, s.bcnt)) (packedCells_zero s)
  case step =>
    rintro n ⟨packed, bacc, bcnt⟩ hn h
    have hcell : n < s.rs.length := by omega
    refine ⟨(_, _, _), (exec_pcw_of_sinkRoom_none
      (s := State.atPoint { s with out := s.out ++ packed, bacc := bacc, bcnt := bcnt } .pcw n) hsink
      (packCell_of_cell (List.getElem?_eq_getElem hcell))).trans ?_, h.succ hcell (hcw _)⟩
    rw [← List.append_assoc]
    rfl
  obtain ⟨⟨packed, bacc, bcnt⟩, hrun, h⟩ := hloop
  dsimp only at hrun h
  rw [hlast, List.append_nil] at hrun
  rw [hlast, if_neg hpix.ne', if_neg hpix.ne', ← hrs] at h
  exact ⟨packed, bacc, bcnt, hrun, h⟩

theorem run_fls : core.run 1 (s.atPoint .fls 0) = .next (State.atPoint
    { s with out := s.out ++ flushBytes s.bacc s.bcnt, bacc := 0, bcnt := 0, frameIdx := s.frameIdx + 1 } .lds 0) :=
  run_succ 0 ((step_atPoint hfault .fls 0).trans (exec_fls_of_sinkRoom_none (s := s.atPoint .fls 0) hsink))

end

/-! ### The stage -/

/-- What a record's end leaves (R188). -/
def afterRecord (s : State) (record : List Byte) : State :=
  { s with out := s.out ++ record, bacc := 0, bcnt := 0, frameIdx := s.frameIdx + 1 }

/-- From ERK@0 to LDS@0. -/
theorem run_serializer {s : State} {tree : RefTree} (hfault : s.fault = false) (hsink : s.sinkRoom = none)
    (hpix : 0 < s.cfg.npix) (hrk : ∀ i : Sym, IsPermutation s.rk[i]) (hrs : s.rs.length = s.cfg.npix)
    (hcw : ∀ m : Sym, s.cw[m].Normal) (hcode : codeOf s = tree.code)
    (hnodes : s.tree.toList.map TreeNode.pair = tree.nodes) :
    core.run (7 + (6 + (s.cfg.npix + 1))) (s.atPoint .erk 0) =
      .next ((afterRecord s (serialize s.rk tree s.rs)).atPoint .lds 0) := by
  have herk := run_erk hfault hsink hrk
  have hetn := run_etn (s := { s with out := s.out ++ rankField s 7 }) hfault hsink
  obtain ⟨packed, bacc, bcnt, hpcw, hpacked⟩ := run_pcw
    (s := { s with out := s.out ++ rankField s 7 ++ treeField s 6 }) hfault hsink hpix hrs hcw
  have hfls := run_fls (s := { s with
    out := s.out ++ rankField s 7 ++ treeField s 6 ++ packed, bacc := bacc, bcnt := bcnt }) hfault hsink
  have hend : packed ++ flushBytes bacc bcnt = bytesMsbFirst (padBits (frameBits (codeOf s) s.rs)) :=
    hpacked.append_flushBytes
  rw [serialize_eq_fields hcode hnodes, ← hend, afterRecord, ← List.append_assoc, ← List.append_assoc,
    ← List.append_assoc]
  exact run_trans herk (run_trans hetn (run_trans hpcw hfls))

end Sys2Proof.Machine
end

section
/-! PROOF. A frame becomes its record (spec/44_sequencer_io.md R204): the four stages one behind the other, and the
shape of the idle state that they end in. -/

namespace Sys2Proof.Machine

theorem idle_iff (s : State) : idle s = true ↔ s.op = .lds ∧ s.pos = 0 ∧ s.fault = false := by
  simp [idle, and_assoc]

theorem atPoint_of_idle {s : State} (h : idle s = true) : s.atPoint .lds 0 = s := by
  obtain ⟨hop, hpos, -⟩ := (idle_iff s).1 h
  rw [State.atPoint, ← hop, ← hpos]

theorem idle_atPoint {s : State} (hfault : s.fault = false) : idle (s.atPoint .lds 0) = true :=
  (idle_iff _).2 ⟨rfl, rfl, hfault⟩

/-- At idle the clauses of `ShapeInv` on OP's progress say nothing. -/
theorem shapeInv_of_idle {s : State} (hidle : idle s = true) (hcfg : s.cfg.wf = true) (hmem : Memory.wf s = true)
    (hrange : s.g.inRange s.cfg = true) (hrk : ∀ i : Sym, IsPermutation s.rk[i]) (hcause : s.cause = .none)
    (hinfo : s.faultInfo = 0) : ShapeInv s := by
  obtain ⟨hop, hpos, hfault⟩ := (idle_iff s).1 hidle
  refine ⟨hcfg, hmem, hrange, ?_, hrk, ?_, ?_, ?_, ?_⟩
  · simpa [Instr.wfAt, Instr.runs, hop, hpos] using npix_pos hcfg
  · simp [hop]
  · simp [hop, hfault]
  · simp [hcause, hfault]
  · simp [hinfo, hfault]

theorem encodeFrame_eq_ok {c : Config} {frame record : List Byte} : encodeFrame c frame = .ok record ↔
    ∃ levels, disperse c frame = .ok levels ∧ record = encodeLevels c.rankTie levels := by
  cases h : disperse c frame <;> simp [encodeFrame, h, Except.map, eq_comm]

/-- Settles O50: the run through the Disperser, the Transition Modeler, the Huffman Coder and the Serializer. -/
theorem frameEncodesToItsRecord : Obligations.FrameEncodesToItsRecord := by
  intro s frame rest record hshape hidle hsink hframe hinq hrecord
  obtain ⟨-, -, hfault⟩ := (idle_iff s).1 hidle
  have hpix := npix_pos hshape.config
  obtain ⟨-, -, hrs⟩ := (memory_wf_iff s).1 hshape.memory
  obtain ⟨levels, hlevels, rfl⟩ := encodeFrame_eq_ok.1 hrecord
  obtain ⟨g, hdisperser, hfits, hrange, hlength⟩ :=
    run_disperser hfault hshape.config hshape.memory hframe hinq hlevels
  have hmarkov := run_markov (s := afterDisperser s rest g levels) hfault hpix hlength hrs
  obtain ⟨a, hhuffman, hcode, hnodes, hnormal⟩ :=
    run_huffman (s := afterMarkov (afterDisperser s rest g levels)) hfault
  have hranks := rankMatrix_isPermutation s.cfg.rankTie (transitionMatrix levels)
  have hremap := (remap_length (rankMatrix s.cfg.rankTie (transitionMatrix levels)) levels).trans hlength
  have hserializer := run_serializer (s := withHuffmanOf (afterMarkov (afterDisperser s rest g levels)) a)
    hfault hsink hpix hranks hremap hnormal hcode hnodes
  have hrun := run_trans hdisperser (run_trans hmarkov (run_trans hhuffman hserializer))
  have hsteps : 5 * s.cfg.npix + 28 = s.cfg.npix + s.cfg.npix +
      (s.cfg.npix + (7 + s.cfg.npix) + (7 + (7 + (6 + (s.cfg.npix + 1))))) := by omega
  have hinfo : s.faultInfo = 0 := by simpa [hfault] using hshape.info
  rw [atPoint_of_idle hidle] at hrun
  rw [hsteps]
  exact ⟨_, hrun, shapeInv_of_idle (idle_atPoint hfault) hshape.config ((memory_wf_iff _).2 ⟨hfits, hlength, hremap⟩)
    hrange hranks (hshape.causes.2 hfault) hinfo, idle_atPoint hfault, rfl, rfl, rfl, hsink, rfl⟩

end Sys2Proof.Machine
end

section
/-! PROOF. Fault entry (spec/60_exceptions.md R225, R229): FAULT is written by LDS and QDF alone, and each writes it
through `raiseFault`. -/

namespace Sys2Proof.Machine

/-! ### The operations that raise nothing -/

theorem emitThen_keeps_fault {bytes : List Byte} {s t : State} {rest : State → State}
    (hrest : ∀ u, (rest u).fault = u.fault) (h : emitThen bytes s rest = .next t) : t.fault = s.fault := by
  rcases emitThen_cases bytes s rest with ⟨-, he⟩ | ⟨-, he⟩ <;> rw [he] at h <;> cases h
  · rfl
  · rw [hrest, emit_fault]

theorem exec_keeps_fault {i : Instr} {s t : State} (hlds : i ≠ .lds) (hqdf : i ≠ .qdf)
    (h : exec i s = .next t) : t.fault = s.fault := by
  cases i <;> simp only [exec] at h
  case lds => exact absurd rfl hlds
  case qdf => exact absurd rfl hqdf
  case tcn =>
    unfold execTcn at h
    split at h <;> cases h
    rw [advance_fault, startCount_fault]
  case rnk =>
    unfold execRnk at h
    split at h <;> cases h
    rw [advance_fault]
  case rmp =>
    unfold execRmp at h
    split at h
    · cases h
    · dsimp only at h
      split at h <;> cases h
      rw [advance_fault, startRemap_fault]
  case hsd => cases h; rfl
  case hmg =>
    unfold execHmg at h
    split at h
    · split at h <;> cases h
      rw [advance_fault]
    · cases h
  case erk =>
    unfold execErk at h
    split at h
    · cases h
    · exact emitThen_keeps_fault (advance_fault .erk) h
  case etn =>
    unfold execEtn at h
    split at h
    · cases h
    · exact emitThen_keeps_fault (advance_fault .etn) h
  case pcw =>
    rcases execPcw_cases s with ⟨f, -, he⟩ | ⟨p, -, he⟩ <;> rw [he] at h
    · cases h
    · exact emitThen_keeps_fault (fun u => by rw [advance_fault]) h
  case fls =>
    unfold execFls at h
    exact emitThen_keeps_fault (fun u => by rw [enter_fault]) h
  case flt => cases h; rfl

/-! ### The two operations that can raise a fault -/

section
variable {s t : State} (hclear : s.fault = false) (hraised : t.fault = true)
include hclear hraised

theorem exec_lds_eq_raiseFault (h : exec .lds s = .next t) :
    ∃ w rest, s.inq = w :: rest ∧ ¬ FlagsRight s.cfg s.pos w ∧
      t = raiseFault .dimMismatch s.pos { s with inq := rest } := by
  have hne : t.fault ≠ s.fault := by simp [hclear, hraised]
  rcases execLds_cases s with ⟨-, he⟩ | ⟨w, rest, hinq, ⟨hflags, he⟩ | ⟨-, ⟨f, -, he⟩ | ⟨g', -, he⟩⟩⟩ <;>
    rw [exec, he] at h <;> cases h
  · exact absurd rfl hne
  · exact ⟨w, rest, hinq, by rw [← beatOkAt_decodeBeat, hflags]; exact Bool.false_ne_true, rfl⟩
  · exact absurd (advance_fault _ _) hne

theorem exec_qdf_eq_raiseFault (h : exec .qdf s = .next t) : t = raiseFault .accOverflow s.pos s := by
  by_cases hover : gridQuantize s.cfg s.pos s.g = .error .overflow
  · rw [exec, execQdf_of_overflow hover] at h
    cases h
    rfl
  · obtain ⟨hkept, -, -⟩ := execQdf_keeps_fault hover h
    simp [hclear, hraised] at hkept

end

/-- Settles O39: the step is the operation that OP names, only LDS and QDF can have set FAULT, and `raiseFault` is the
frame of each. -/
theorem faultEntryIsPrecise : Obligations.FaultEntryIsPrecise := by
  intro s t hclear hstep hraised
  rw [step_of_op rfl hclear] at hstep
  by_cases hlds : s.op = .lds
  · rw [hlds] at hstep
    obtain ⟨w, rest, hinq, hflags, rfl⟩ := exec_lds_eq_raiseFault hclear hraised hstep
    exact ⟨.inl ⟨rfl, hlds, w, hinq, hflags⟩, rfl⟩
  · by_cases hqdf : s.op = .qdf
    · rw [hqdf] at hstep
      obtain rfl := exec_qdf_eq_raiseFault hclear hraised hstep
      exact ⟨.inr ⟨rfl, hqdf, rfl⟩, rfl⟩
    · have hkept := exec_keeps_fault hlds hqdf hstep
      simp [hclear, hraised] at hkept

end Sys2Proof.Machine
end

section
/-! PROOF. What one step can do (spec/44_sequencer_io.md R200), said once: a step that is not enabled leaves the state,
and an enabled one has one of the effects below, from whatever state. The statements on the streams follow from it. -/

namespace Sys2Proof.Machine

/-! ### The effects -/

/-- The effects of the operations on `s`: what each of them leaves when it is performed, and when that is. -/
inductive Performs (s : State) : Instr → State → Prop where
  /-- A beat with a wrong flag is taken (R202). -/
  | malformed {w : BeatWord} {rest : List BeatWord} (hinq : s.inq = w :: rest) (hflags : ¬ FlagsRight s.cfg s.pos w) :
      Performs s .lds (raiseFault .dimMismatch s.pos { s with inq := rest })
  | loaded {w : BeatWord} {rest : List BeatWord} {g : Grid} (hinq : s.inq = w :: rest)
      (hflags : FlagsRight s.cfg s.pos w) (hload : gridLoad s.cfg s.pos (decodeBeat w).data s.g = .ok g) :
      Performs s .lds (advance .lds { s with inq := rest, g := g })
  /-- An error or a sum leaves the range (40_disperser.md R130). -/
  | overflowed (hover : gridQuantize s.cfg s.pos s.g = .error .overflow) :
      Performs s .qdf (raiseFault .accOverflow s.pos s)
  | quantized {level : Sym} {g : Grid} (hlevel : gridQuantize s.cfg s.pos s.g = .ok (level, g))
      (hcell : s.pos < s.q.length) :
      Performs s .qdf (advance .qdf { s with g := g, q := s.q.set s.pos level })
  | counted {x : Sym} (hx : s.q[s.pos]? = some x) :
      Performs s .tcn (advance .tcn { s with
        t := bumpTransition (if s.pos = 0 then Vector.replicate 7 (Vector.replicate 7 0) else s.t)
          (if s.pos = 0 then 0 else s.prev) x
        prev := x })
  | ranked (hpos : s.pos < 7) :
      Performs s .rnk (advance .rnk { s with rk := s.rk.set s.pos (rankRow s.cfg.rankTie s.t[s.pos]) })
  | remapped {x k : Sym} {hist : Vector Nat 7} (hx : s.q[s.pos]? = some x) (hslot : s.pos < s.rs.length)
      (hk : k = s.rk[(if s.pos = 0 then 0 else s.prev : Sym)][x])
      (hhist : hist = if s.pos = 0 then Vector.replicate 7 0 else s.hist) :
      Performs s .rmp (advance .rmp { s with
        rs := s.rs.set s.pos k, hist := hist.set k (hist[k] + 1), prev := x })
  | seeded : Performs s .hsd (enter .hmg (seedHuffman s))
  | merged {rest : List HEntry} {left right : HEntry} (hlist : validList s = rest ++ [right, left])
      (hlow : 7 ≤ s.nnode.toNat) (hnode : s.nnode.toNat - 7 < 6) :
      Performs s .hmg (advance .hmg (mergeHuffman s left right hnode))
  | rankWord {bytes : List Byte} (hbytes : rankBytes s = .ok bytes) (hsink : sinkAccepts bytes.length s = true) :
      Performs s .erk (advance .erk (emit bytes s))
  | treeByte {bytes : List Byte} (hbytes : nodeBytes s = .ok bytes) (hsink : sinkAccepts bytes.length s = true) :
      Performs s .etn (advance .etn (emit bytes s))
  | packed {p : Packed} (hp : packCell s = .ok p) (hsink : sinkAccepts p.bytes.length s = true) :
      Performs s .pcw (advance .pcw { emit p.bytes s with bacc := p.bacc, bcnt := p.bcnt })
  | flushed (hsink : sinkAccepts (flushBytes s.bacc s.bcnt).length s = true) :
      Performs s .fls (enter .lds
        { emit (flushBytes s.bacc s.bcnt) s with bacc := 0, bcnt := 0, frameIdx := s.frameIdx + 1 })

theorem rankBytes_length {s : State} {bytes : List Byte} (h : rankBytes s = .ok bytes) : bytes.length = 2 := by
  unfold rankBytes at h
  split at h
  · split at h <;> cases h
    rfl
  · cases h

theorem rankBytes_of_isPermutation {s : State} (hpos : s.pos < 7) (hrow : IsPermutation s.rk[s.pos]) :
    rankBytes s = .ok (encodeRankWord (permIdxClosed s.rk[s.pos])) := by
  simp only [rankBytes, hpos, dite_true, permIdx_eq_closed hrow]

theorem nodeBytes_of_lt {s : State} (hpos : s.pos < 6) :
    nodeBytes s = .ok [encodeNode s.tree[s.pos].left s.tree[s.pos].right] := by
  simp only [nodeBytes, hpos, dite_true]

theorem nodeBytes_length {s : State} {bytes : List Byte} (h : nodeBytes s = .ok bytes) : bytes.length = 1 := by
  unfold nodeBytes at h
  split at h <;> cases h
  rfl

theorem packCell_bytes_length {s : State} {p : Packed} (h : packCell s = .ok p) : p.bytes.length ≤ 1 := by
  unfold packCell at h
  split at h
  · cases h
  · split at h <;> cases h <;> exact packCodeword_bytes_length _ _ _

theorem flushBytes_length (bacc : BitVec 7) (bcnt : BitVec 3) : (flushBytes bacc bcnt).length ≤ 1 := by
  unfold flushBytes
  split <;> simp

/-! ### Every effect is the operation's, and an operation that answers has one or waits -/

theorem exec_of_performs {s t : State} {i : Instr} (h : Performs s i t) : exec i s = .next t := by
  cases h with
  | malformed hinq hflags => exact exec_lds_of_not_flagsRight hinq hflags
  | loaded hinq hflags hload => exact exec_lds_of_flagsRight hinq hflags hload
  | overflowed hover => exact execQdf_of_overflow hover
  | quantized hlevel hcell => exact exec_qdf_of_level hlevel hcell
  | counted hx => rw [exec_tcn_of_cell hx, startCount_t, startCount_prev]
  | ranked hpos => exact exec_rnk_of_lt hpos
  | remapped hx hslot hk hhist => rw [exec_rmp_of_cell hx hslot hk, startRemap_hist, hhist]
  | seeded => exact exec_hsd s
  | merged hlist hlow hnode => exact exec_hmg hlist hlow hnode
  | rankWord hbytes hsink =>
    simp only [exec, execErk, hbytes]
    exact emitThen_of_sinkAccepts _ hsink
  | treeByte hbytes hsink =>
    simp only [exec, execEtn, hbytes]
    exact emitThen_of_sinkAccepts _ hsink
  | packed hp hsink => exact exec_pcw_of_packCell hp hsink
  | flushed hsink =>
    exact emitThen_of_sinkAccepts
      (fun u => enter .lds { u with bacc := 0, bcnt := 0, frameIdx := u.frameIdx + 1 }) hsink

theorem enabled_iff (s : State) : enabled s = true ↔ s.fault = false ∧ s.op ≠ .flt ∧ (s.op = .lds → s.inq ≠ []) ∧
    sinkAccepts (offeredBytes s).length s = true := by
  simp [enabled, and_assoc, imp_iff_not_or]

theorem enabled_eq_false_iff (s : State) : enabled s = false ↔ s.fault = true ∨ s.op = .flt ∨
    (s.op = .lds ∧ s.inq = []) ∨ sinkAccepts (offeredBytes s).length s = false := by
  simp only [enabled, Bool.and_eq_false_iff, Bool.not_eq_false', decide_eq_false_iff_not, not_not, Bool.and_eq_true,
    decide_eq_true_eq, List.isEmpty_iff, or_assoc]

theorem Performs.of_exec {s t u : State} {i : Instr} (hp : Performs s i u) (h : exec i s = .next t) : Performs s i t :=
  Host.Outcome.next.inj ((exec_of_performs hp).symm.trans h) ▸ hp

section
variable {s : State}

theorem offeredBytes_of_rankBytes {bytes : List Byte} (hop : s.op = .erk) (h : rankBytes s = .ok bytes) :
    offeredBytes s = bytes := by
  simp [offeredBytes, hop, h, Except.toOption]

theorem offeredBytes_of_nodeBytes {bytes : List Byte} (hop : s.op = .etn) (h : nodeBytes s = .ok bytes) :
    offeredBytes s = bytes := by
  simp [offeredBytes, hop, h, Except.toOption]

theorem offeredBytes_of_packCell {p : Packed} (hop : s.op = .pcw) (h : packCell s = .ok p) :
    offeredBytes s = p.bytes := by
  simp [offeredBytes, hop, h, Except.toOption]

theorem offeredBytes_of_fls (hop : s.op = .fls) : offeredBytes s = flushBytes s.bacc s.bcnt := by
  simp [offeredBytes, hop]

end

theorem exists_validList_eq {s : State} (h : 2 ≤ s.hlen.toNat) :
    ∃ rest right left, validList s = rest ++ [right, left] := by
  have hlength : (validList s).length = s.hlen.toNat - 2 + 2 := by
    have := s.hlen.isLt
    simp only [validList, List.length_take, Vector.length_toList]
    omega
  obtain ⟨rest, right, left, hlist, -⟩ := exists_eq_append_pair hlength
  exact ⟨rest, right, left, hlist⟩

/-- An operation that emits waits for its sink, or has its effect. -/
theorem performs_or_waits_of_emitThen {s t : State} {bytes : List Byte} {rest : State → State}
    (hoffered : offeredBytes s = bytes)
    (hperforms : sinkAccepts bytes.length s = true → Performs s s.op (rest (emit bytes s)))
    (h : emitThen bytes s rest = .next t) : (enabled s = false ∧ t = s) ∨ Performs s s.op t := by
  rcases emitThen_cases bytes s rest with ⟨hwait, he⟩ | ⟨hsink, he⟩ <;> rw [he] at h <;> cases h
  · exact .inl ⟨(enabled_eq_false_iff s).2 (.inr (.inr (.inr (hoffered ▸ hwait)))), rfl⟩
  · exact .inr (hperforms hsink)

theorem performs_or_waits_of_exec {s t : State} (h : exec s.op s = .next t) :
    (enabled s = false ∧ t = s) ∨ Performs s s.op t := by
  cases hop : s.op <;> rw [hop] at h
  case lds =>
    rcases execLds_cases s with ⟨hinq, he⟩ | ⟨w, rest, hinq, ⟨hflags, he⟩ | ⟨hflags, ⟨f, -, he⟩ | ⟨g, hload, he⟩⟩⟩ <;>
      rw [exec, he] at h <;> cases h
    · exact .inl ⟨(enabled_eq_false_iff s).2 (.inr (.inr (.inl ⟨hop, hinq⟩))), rfl⟩
    · exact .inr (.malformed hinq (by rw [← beatOkAt_decodeBeat, hflags]; exact Bool.false_ne_true))
    · exact .inr (.loaded hinq ((beatOkAt_decodeBeat _ _ _).1 hflags) hload)
  case qdf =>
    rcases execQdf_cases s with ⟨hover, he⟩ | ⟨f, he⟩ | ⟨level, g, hlevel, hcell, he⟩ <;> rw [exec, he] at h <;> cases h
    · exact .inr (.overflowed hover)
    · exact .inr (.quantized hlevel hcell)
  case tcn =>
    cases hx : s.q[s.pos]? with
    | none => simp [exec, execTcn, hx] at h
    | some x => exact .inr ((Performs.counted hx).of_exec h)
  case rnk =>
    by_cases hpos : s.pos < 7
    · exact .inr ((Performs.ranked hpos).of_exec h)
    · simp [exec, execRnk, hpos] at h
  case rmp =>
    cases hx : s.q[s.pos]? with
    | none => simp [exec, execRmp, hx] at h
    | some x =>
      by_cases hslot : s.pos < s.rs.length
      · exact .inr ((Performs.remapped hx hslot rfl rfl).of_exec h)
      · simp [exec, execRmp, hx, hslot] at h
  case hsd =>
    cases h
    exact .inr .seeded
  case hmg =>
    by_cases hlen : 2 ≤ s.hlen.toNat
    · by_cases hnode : 7 ≤ s.nnode.toNat ∧ s.nnode.toNat - 7 < 6
      · obtain ⟨rest, right, left, hlist⟩ := exists_validList_eq hlen
        exact .inr ((Performs.merged hlist hnode.1 hnode.2).of_exec h)
      · simp [exec, execHmg, hlen, hnode] at h
    · rw [exec, execHmg_of_not (Nat.lt_of_not_le hlen)] at h
      cases h
  case erk =>
    cases hbytes : rankBytes s with
    | error f => simp [exec, execErk, hbytes] at h
    | ok bytes =>
      simp only [exec, execErk, hbytes] at h
      rw [← hop]
      exact performs_or_waits_of_emitThen (offeredBytes_of_rankBytes hop hbytes)
        (fun hsink => hop ▸ .rankWord hbytes hsink) h
  case etn =>
    cases hbytes : nodeBytes s with
    | error f => simp [exec, execEtn, hbytes] at h
    | ok bytes =>
      simp only [exec, execEtn, hbytes] at h
      rw [← hop]
      exact performs_or_waits_of_emitThen (offeredBytes_of_nodeBytes hop hbytes)
        (fun hsink => hop ▸ .treeByte hbytes hsink) h
  case pcw =>
    rcases execPcw_cases s with ⟨f, -, he⟩ | ⟨p, hp, he⟩ <;> rw [exec, he] at h
    · cases h
    · rw [← hop]
      exact performs_or_waits_of_emitThen (offeredBytes_of_packCell hop hp)
        (fun hsink => hop ▸ .packed hp hsink) h
  case fls =>
    rw [← hop]
    exact performs_or_waits_of_emitThen (rest := fun u => enter .lds _) (offeredBytes_of_fls hop)
      (fun hsink => hop ▸ .flushed hsink) h
  case flt =>
    cases h
    exact .inl ⟨(enabled_eq_false_iff s).2 (.inr (.inl hop)), rfl⟩

/-- What a step can do. -/
theorem waits_or_performs {s t : State} (h : step s = .next t) :
    (enabled s = false ∧ t = s) ∨ (s.fault = false ∧ Performs s s.op t) := by
  rcases step_cases s with ⟨hfault, he⟩ | ⟨hfault, he⟩ <;> rw [he] at h
  · cases h
    exact .inl ⟨(enabled_eq_false_iff s).2 (.inl hfault), rfl⟩
  · exact (performs_or_waits_of_exec h).imp_right fun hp => ⟨hfault, hp⟩

theorem step_of_performs {s t : State} (hfault : s.fault = false) (h : Performs s s.op t) : step s = .next t :=
  (step_of_op rfl hfault).trans (exec_of_performs h)

theorem emitThen_of_not_sinkAccepts {bytes : List Byte} {s : State} (rest : State → State)
    (h : sinkAccepts bytes.length s = false) : emitThen bytes s rest = .next s := by
  simp [emitThen, h]

/-- An operation waits for a sink that does not take what it offers (R213). -/
theorem exec_of_not_sinkAccepts {s : State} (h : sinkAccepts (offeredBytes s).length s = false) :
    exec s.op s = .next s := by
  cases hop : s.op <;> simp only [offeredBytes, hop, List.length_nil, sinkAccepts_zero, Bool.true_eq_false] at h
  case erk =>
    cases hbytes : rankBytes s <;> simp [hbytes, Except.toOption] at h
    simpa only [exec, execErk, hbytes] using emitThen_of_not_sinkAccepts _ h
  case etn =>
    cases hbytes : nodeBytes s <;> simp [hbytes, Except.toOption] at h
    simpa only [exec, execEtn, hbytes] using emitThen_of_not_sinkAccepts _ h
  case pcw =>
    cases hp : packCell s <;> simp [hp, Except.toOption] at h
    simpa only [exec, execPcw, hp] using emitThen_of_not_sinkAccepts _ h
  case fls =>
    exact emitThen_of_not_sinkAccepts
      (fun u => enter .lds { u with bacc := 0, bcnt := 0, frameIdx := u.frameIdx + 1 }) h

/-! ### The agents outside (R211 to R214) -/

/-- `s` with more beats behind those in IN, and with another readiness of the sink. -/
def outside (beats : List BeatWord) (room : Option Nat) (s : State) : State := sinkOffers room (offerBeats beats s)

theorem advance_outside (i : Instr) (beats : List BeatWord) (room : Option Nat) (s : State) :
    advance i (outside beats room s) = outside beats room (advance i s) := by
  rcases advance_cases i s with ⟨h, -⟩ | ⟨h, -⟩ <;> simp [advance, h, outside, offerBeats, sinkOffers, enter]

/-- Some bytes went to the sink: what is left of its room, and the effect on `s` with the agents' doings on top. -/
def PerformsOutside (s : State) (i : Instr) (t : State) (beats : List BeatWord) (room : Option Nat) : Prop :=
  ∃ n, t.sinkRoom = s.sinkRoom.map (· - n) ∧
    Performs (outside beats room s) i (outside beats (room.map (· - n)) t)

section
variable {s u : State} {i : Instr} {beats : List BeatWord} {room : Option Nat}

theorem performsOutside_of_silent (h : Performs (outside beats room s) i (outside beats room u))
    (hroom : u.sinkRoom = s.sinkRoom) : PerformsOutside s i u beats room :=
  ⟨0, by simpa using hroom, by simpa using h⟩

theorem performsOutside_of_silent_advance (h : Performs (outside beats room s) i (advance i (outside beats room u)))
    (hroom : u.sinkRoom = s.sinkRoom) : PerformsOutside s i (advance i u) beats room :=
  performsOutside_of_silent (advance_outside i beats room u ▸ h) ((advance_sinkRoom i u).trans hroom)

theorem performsOutside_of_emit {n : Nat}
    (h : Performs (outside beats room s) i (advance i (outside beats (room.map (· - n)) u)))
    (hroom : u.sinkRoom = s.sinkRoom.map (· - n)) : PerformsOutside s i (advance i u) beats room :=
  ⟨n, (advance_sinkRoom i u).trans hroom, advance_outside i beats _ u ▸ h⟩

end

/-- No effect looks behind the oldest beat, nor at the sink beyond its taking the bytes. -/
theorem Performs.outside {s t : State} {i : Instr} (h : Performs s i t) (hop : s.op = i) (beats : List BeatWord)
    {room : Option Nat} (hroom : sinkAccepts (offeredBytes s).length (sinkOffers room s) = true) :
    PerformsOutside s i t beats room := by
  cases h with
  | malformed hinq hflags =>
    exact performsOutside_of_silent
      (.malformed (s := Machine.outside beats room s) (congrArg (· ++ beats) hinq) hflags) rfl
  | loaded hinq hflags hload =>
    exact performsOutside_of_silent_advance
      (.loaded (s := Machine.outside beats room s) (congrArg (· ++ beats) hinq) hflags hload) rfl
  | overflowed hover => exact performsOutside_of_silent (.overflowed (s := Machine.outside beats room s) hover) rfl
  | quantized hlevel hcell =>
    exact performsOutside_of_silent_advance (.quantized (s := Machine.outside beats room s) hlevel hcell) rfl
  | counted hx => exact performsOutside_of_silent_advance (.counted (s := Machine.outside beats room s) hx) rfl
  | ranked hpos => exact performsOutside_of_silent_advance (.ranked (s := Machine.outside beats room s) hpos) rfl
  | remapped hx hslot hk hhist =>
    exact performsOutside_of_silent_advance (.remapped (s := Machine.outside beats room s) hx hslot hk hhist) rfl
  | seeded => exact performsOutside_of_silent (.seeded (s := Machine.outside beats room s)) rfl
  | merged hlist hlow hnode =>
    exact performsOutside_of_silent_advance (.merged (s := Machine.outside beats room s) hlist hlow hnode) rfl
  | rankWord hbytes =>
    rw [offeredBytes_of_rankBytes hop hbytes] at hroom
    exact performsOutside_of_emit (.rankWord (s := Machine.outside beats room s) hbytes hroom) rfl
  | treeByte hbytes =>
    rw [offeredBytes_of_nodeBytes hop hbytes] at hroom
    exact performsOutside_of_emit (.treeByte (s := Machine.outside beats room s) hbytes hroom) rfl
  | packed hp =>
    rw [offeredBytes_of_packCell hop hp] at hroom
    exact performsOutside_of_emit (.packed (s := Machine.outside beats room s) hp hroom) rfl
  | flushed =>
    rw [offeredBytes_of_fls hop] at hroom
    exact ⟨_, rfl, .flushed (s := Machine.outside beats room s) hroom⟩

/-! ### The statements -/

/-- Settles O8: each reason for which a step is not enabled makes its operation leave the state. -/
theorem notEnabledStepChangesNothing : Obligations.NotEnabledStepChangesNothing := by
  intro s h
  rcases step_cases s with ⟨-, he⟩ | ⟨hfault, he⟩
  · exact he
  · rw [he]
    rcases (enabled_eq_false_iff s).1 h with hset | hop | ⟨hop, hinq⟩ | hsink
    · rw [hfault] at hset
      cases hset
    · rw [hop]
      rfl
    · rw [hop]
      exact exec_lds_of_empty hinq
    · exact exec_of_not_sinkAccepts hsink

/-- Settles O42: read off the effects one by one. -/
theorem streamsAndParameters : Obligations.StreamsAndParameters := by
  intro s t h
  refine ⟨?_, ?_, ?_, step_keeps_cfg h⟩ <;> rcases waits_or_performs h with ⟨-, rfl⟩ | ⟨-, hp⟩
  case refine_1.inl => exact ⟨[], by simp⟩
  case refine_1.inr =>
    generalize s.op = i at hp
    cases hp with
    | rankWord hbytes => exact ⟨_, advance_out _ _, (rankBytes_length hbytes).le, by simp⟩
    | treeByte hbytes => exact ⟨_, advance_out _ _, by rw [nodeBytes_length hbytes]; decide, by simp⟩
    | packed hp => exact ⟨_, advance_out _ _, (packCell_bytes_length hp).trans (by decide), by simp⟩
    | flushed => exact ⟨_, rfl, (flushBytes_length _ _).trans (by decide), by simp⟩
    | _ => exact ⟨[], by simp [mergeHuffman]⟩
  case refine_2.inl => exact .inl rfl
  case refine_2.inr =>
    generalize s.op = i at hp
    cases hp with
    | malformed hinq | loaded hinq => exact .inr ⟨rfl, _, by simpa using hinq⟩
    | _ => exact .inl (by simp [mergeHuffman])
  case refine_3.inl => exact .inl rfl
  case refine_3.inr =>
    generalize s.op = i at hp
    cases hp with
    | flushed => exact .inr ⟨rfl, rfl⟩
    | _ => exact .inl (by simp [mergeHuffman])

theorem performs_of_enabled {s t : State} (henabled : enabled s = true) (h : step s = .next t) :
    s.fault = false ∧ Performs s s.op t ∧ sinkAccepts (offeredBytes s).length s = true := by
  rcases waits_or_performs h with ⟨hwait, -⟩ | ⟨hfault, hp⟩
  · rw [henabled] at hwait
    cases hwait
  · obtain ⟨-, -, -, hsink⟩ := (enabled_iff s).1 henabled
    exact ⟨hfault, hp, hsink⟩

/-- Settles O43: an effect does not look behind the oldest beat, and a wait that is not for a beat goes on. -/
theorem offeredBeatsAreHeld : Obligations.OfferedBeatsAreHeld := by
  intro s t beats hready h
  cases henabled : enabled s with
  | true =>
    obtain ⟨hfault, hp, hsink⟩ := performs_of_enabled henabled h
    obtain ⟨n, hroom, hp⟩ := hp.outside rfl beats (room := s.sinkRoom) hsink
    rw [← hroom] at hp
    exact step_of_performs (s := offerBeats beats s) hfault hp
  | false =>
    cases (notEnabledStepChangesNothing s henabled).symm.trans h
    refine notEnabledStepChangesNothing _ ((enabled_eq_false_iff _).2 ?_)
    rcases (enabled_eq_false_iff s).1 henabled with hfault | hop | ⟨hop, hinq⟩ | hsink
    · exact .inl hfault
    · exact .inr (.inl hop)
    · exact .inl ((hready.resolve_left (not_not.2 hop)).resolve_left (not_not.2 hinq))
    · exact .inr (.inr (.inr hsink))

/-- Settles O44: too little room is a reason to wait, and an effect looks at the sink no further than that. -/
theorem backPressureOnlyDelays : Obligations.BackPressureOnlyDelays := by
  intro s t hnone h room
  have hsame : sinkOffers none s = s := by rw [sinkOffers, ← hnone]
  refine ⟨fun hshort _ => ?_, fun hroom => ?_⟩
  · refine notEnabledStepChangesNothing _ ((enabled_eq_false_iff _).2 (.inr (.inr (.inr ?_))))
    exact decide_eq_false (Nat.not_le.2 hshort)
  · cases henabled : enabled s with
    | true =>
      obtain ⟨hfault, hp, -⟩ := performs_of_enabled henabled h
      obtain ⟨n, htnone, hp⟩ := hp.outside rfl [] (room := some room) (decide_eq_true hroom)
      rw [hnone, Option.map_none] at htnone
      have hbeats (r : Option Nat) (u : State) : outside [] r u = sinkOffers r u := by simp [outside, offerBeats]
      rw [hbeats, hbeats] at hp
      exact ⟨_, step_of_performs (s := sinkOffers (some room) s) hfault hp, by rw [sinkOffers, sinkOffers, ← htnone]⟩
    | false =>
      cases (notEnabledStepChangesNothing s henabled).symm.trans h
      refine ⟨sinkOffers (some room) s, notEnabledStepChangesNothing _ ((enabled_eq_false_iff _).2 ?_), hsame⟩
      rcases (enabled_eq_false_iff s).1 henabled with hfault | hop | hinq | hsink
      · exact .inl hfault
      · exact .inr (.inl hop)
      · exact .inr (.inr (.inl hinq))
      · rw [sinkAccepts_of_none _ hnone] at hsink
        cases hsink

end Sys2Proof.Machine
end

section
/-! PROOF. The shape that every step keeps (spec/10_state.md R22, R30 to R33, spec/44_sequencer_io.md R201): where
(OP, POS) goes, what the effects keep of each clause, and that an enabled step has an effect. -/

namespace Sys2Proof.Machine

/-! ### Where (OP, POS) goes (R201) -/

theorem runs_eq_lastIndex_succ {c : Config} {i : Instr} (hop : i ≠ .flt) (hpix : 0 < c.npix) :
    i.runs c = i.lastIndex c + 1 := by
  cases i with
  | lds | qdf | tcn | rmp | pcw => exact (Nat.sub_add_cancel hpix).symm
  | rnk | hsd | hmg | erk | etn | fls => rfl
  | flt => exact absurd rfl hop

theorem wfAt_iff {c : Config} {i : Instr} {n : Nat} (hop : i ≠ .flt) : i.wfAt c n = true ↔ n < i.runs c := by
  cases i <;> simp_all [Instr.wfAt]

theorem successor_ne_flt {i : Instr} (hop : i ≠ .flt) : i.successor ≠ .flt := by
  cases i <;> simp_all [Instr.successor]

theorem op_of_nextPoint_eq_hmg {s : State} (h : (nextPoint s).1 = .hmg) : s.op = .hsd ∨ s.op = .hmg := by
  unfold nextPoint at h
  split at h
  · exact .inr h
  · cases hop : s.op <;> simp_all [Instr.successor]

theorem advance_point_cases {i : Instr} {s t : State} (h : advance i s = t) :
    (s.pos = i.lastIndex s.cfg ∧ t.op = i.successor ∧ t.pos = 0) ∨
    (s.pos ≠ i.lastIndex s.cfg ∧ t.op = s.op ∧ t.pos = s.pos + 1) := by
  rcases advance_cases i s with ⟨hlast, he⟩ | ⟨hlast, he⟩ <;> simp [← h, he, hlast]

/-- No operation of a frame is without a run. -/
theorem runs_pos {c : Config} {i : Instr} (hop : i ≠ .flt) (hpix : 0 < c.npix) : 0 < i.runs c := by
  rw [runs_eq_lastIndex_succ hop hpix]
  exact Nat.succ_pos _

section
variable {s : State} (hop : s.op ≠ .flt) (hpix : 0 < s.cfg.npix)
include hop hpix

theorem nextPoint_wfAt : (nextPoint s).1 ≠ .flt ∧ (nextPoint s).1.wfAt s.cfg (nextPoint s).2 = true := by
  unfold nextPoint
  split
  · exact ⟨hop, (wfAt_iff hop).2 ‹_›⟩
  · have hnext := successor_ne_flt hop
    exact ⟨hnext, (wfAt_iff hnext).2 (runs_pos hnext hpix)⟩

/-- The last line of an operation is the table's row. -/
theorem advance_point_eq_nextPoint (hpoint : s.op.wfAt s.cfg s.pos = true) {u : State} (hu : u.op = s.op)
    (hpos : u.pos = s.pos) (hcfg : u.cfg = s.cfg) :
    ((advance s.op u).op, (advance s.op u).pos) = nextPoint s := by
  rw [wfAt_iff hop] at hpoint
  rw [advance_point, nextPoint, hu, hpos, hcfg]
  rw [runs_eq_lastIndex_succ hop hpix] at hpoint ⊢
  by_cases hlast : s.pos = s.op.lastIndex s.cfg
  · rw [if_pos hlast, if_neg (by omega)]
  · rw [if_neg hlast, if_pos (by omega)]

end

/-- An effect that raised nothing: the fault registers are kept and (OP, POS) goes by the table. -/
structure Moves (s t : State) : Prop where
  fault : t.fault = s.fault
  cause : t.cause = s.cause
  info : t.faultInfo = s.faultInfo
  point : (t.op, t.pos) = nextPoint s

/-- An effect that raised a fault: POS is frozen and is the context (60_exceptions.md R225). -/
structure Raises (s t : State) : Prop where
  fault : t.fault = true
  cause : t.cause ≠ .none
  info : t.faultInfo = BitVec.ofNat 32 s.pos
  op : t.op = .flt
  pos : t.pos = s.pos
  from_op : s.op = .lds ∨ s.op = .qdf

theorem Performs.moves_or_raises {s t : State} (h : Performs s s.op t) (hpix : 0 < s.cfg.npix)
    (hpoint : s.op.wfAt s.cfg s.pos = true) : Moves s t ∨ Raises s t := by
  have hadvance {u : State} (hop : s.op ≠ .flt) (hu : u.op = s.op) (hpos : u.pos = s.pos) (hcfg : u.cfg = s.cfg)
      (hfault : u.fault = s.fault) (hcause : u.cause = s.cause) (hinfo : u.faultInfo = s.faultInfo) :
      Moves s (advance s.op u) :=
    ⟨by simpa, by simpa, by simpa, advance_point_eq_nextPoint hop hpix hpoint hu hpos hcfg⟩
  generalize hop : s.op = i at h
  cases h with
  | malformed => exact .inr ⟨rfl, by simp, rfl, rfl, rfl, .inl hop⟩
  | overflowed => exact .inr ⟨rfl, by simp, rfl, rfl, rfl, .inr hop⟩
  | seeded => exact .inl ⟨rfl, rfl, rfl, by simp [nextPoint, hop, Instr.runs, Instr.successor]⟩
  | flushed => exact .inl ⟨rfl, rfl, rfl, by simp [nextPoint, hop, Instr.runs, Instr.successor]⟩
  | _ => exact .inl (hop ▸ hadvance (by simp [hop]) rfl rfl rfl rfl rfl rfl)

/-! ### What the effects keep of the buffers -/

theorem gridLoad_inRange {c : Config} {n : Nat} {v : Byte} {g g' : Grid} (hnum : c.numericsOk = true)
    (h : gridLoad c n v g = .ok g') (hg : g.inRange c = true) : g'.inRange c = true := by
  cases hsystem : c.numerics with
  | exact => simp [Grid.inRange, hsystem]
  | fx fracK accBits =>
    have hsample := loadedGrid_inRange hnum [v]
    cases g with
    | exact cells => simp [gridLoad, hsystem] at h
    | fx cells =>
      simp only [gridLoad, hsystem] at h
      split at h <;> cases h
      simp only [Grid.inRange, loadedGrid, hsystem, List.map_cons, List.map_nil, List.all_eq_true,
        List.forall_mem_singleton] at hsample hg ⊢
      intro x hx
      rcases List.mem_or_eq_of_mem_set hx with hx | rfl
      · exact hg x hx
      · exact hsample

/-- A target within the grid leaves a diffusion two ways to end. -/
theorem spread_ok_or_overflow {Sample : Type} (num : Numerics Sample) (e : Sample) (targets : List (Nat × Nat)) :
    ∀ cells : List Sample, (∀ t ∈ targets, t.1 < cells.length) →
      (∃ cells', spread num e targets cells = .ok cells') ∨ spread num e targets cells = .error .overflow := by
  induction targets with
  | nil => exact fun cells _ => .inl ⟨cells, rfl⟩
  | cons t rest ih =>
    intro cells hin
    obtain ⟨ht, hrest⟩ := List.forall_mem_cons.1 hin
    rw [spread, List.getElem?_eq_getElem ht]
    cases hsum : num.add cells[t.1] (num.share e t.2) with
    | none => exact .inr (by simp [hsum])
    | some z => simpa [hsum] using ih (cells.set t.1 z) (by simpa using hrest)

theorem quantizeCell_ok_or_overflow {Sample : Type} (num : Numerics Sample) {c : Config} {n : Nat}
    {cells : List Sample} (hw : 1 ≤ c.w) (hlen : cells.length = c.npix) (hn : n < c.npix) :
    (∃ r, quantizeCell num c n cells = .ok r) ∨ quantizeCell num c n cells = .error .overflow := by
  have hin : ∀ t ∈ diffusionTargets c n, t.1 < cells.length := fun t ht => hlen ▸ diffusionTargets_lt_npix hw hn ht
  rcases quantizeCell_cases num c n cells with
    ⟨hnone, -⟩ | ⟨x, -, ⟨-, hq⟩ | ⟨e, -, ⟨r, hspread, hq⟩ | ⟨cells', -, hq⟩⟩⟩
  · simp [hlen ▸ hn] at hnone
  · exact .inr hq
  · rcases spread_ok_or_overflow num e _ cells hin with ⟨cells', hok⟩ | hover
    · rw [hok] at hspread
      cases hspread
    · rw [hover] at hspread
      cases hspread
      exact .inr hq
  · exact .inl ⟨_, hq⟩

/-- On a grid of the right shape QDF has a level or an overflow, never one of the model's own stops. -/
theorem gridQuantize_ok_or_overflow {c : Config} {n : Nat} {g : Grid} (hw : 1 ≤ c.w) (hg : g.fits c = true)
    (hn : n < c.npix) :
    (∃ level g', gridQuantize c n g = .ok (level, g')) ∨ gridQuantize c n g = .error .overflow := by
  rcases Grid.fits_cases hg with ⟨cells, hnum, rfl, hlen⟩ | ⟨fracK, accBits, cells, hnum, rfl, hlen⟩
  · rcases quantizeCell_ok_or_overflow (numExact c.ref) hw hlen hn with ⟨⟨level, cells'⟩, hq⟩ | hq
    · exact .inl ⟨level, .exact cells', by simp only [gridQuantize, hnum, hq]⟩
    · exact .inr (by simp only [gridQuantize, hnum, hq])
  · rcases quantizeCell_ok_or_overflow (numFx fracK accBits c.ref) hw hlen hn with ⟨⟨level, cells'⟩, hq⟩ | hq
    · exact .inl ⟨level, .fx cells', by simp only [gridQuantize, hnum, hq]⟩
    · exact .inr (by simp only [gridQuantize, hnum, hq])

section
variable {s t : State} {i : Instr} (h : Performs s i t)
include h

theorem Performs.samples (hnum : s.cfg.numericsOk = true) (hg : s.g.inRange s.cfg = true) :
    t.g.inRange s.cfg = true := by
  cases h with
  | loaded hinq hflags hload =>
    rw [advance_g]
    exact gridLoad_inRange hnum hload hg
  | quantized hlevel =>
    rw [advance_g]
    exact gridQuantize_inRange hlevel hg
  | _ => simpa [mergeHuffman] using hg

theorem Performs.ranks (hrk : ∀ k : Sym, IsPermutation s.rk[k]) (k : Sym) : IsPermutation t.rk[k] := by
  cases h with
  | ranked hpos =>
    rw [advance_rk]
    by_cases hk : s.pos = k.val
    · have hrow : (s.rk.set s.pos (rankRow s.cfg.rankTie s.t[s.pos]))[k] = rankRow s.cfg.rankTie s.t[s.pos] := by
        simp [hk]
      rw [hrow]
      exact rankRow_isPermutation _ _
    · have hrow : (s.rk.set s.pos (rankRow s.cfg.rankTie s.t[s.pos]))[k] = s.rk[k] :=
        Vector.getElem_set_ne hpos k.isLt hk
      rw [hrow]
      exact hrk k
  | _ => simpa [mergeHuffman] using hrk k

/-- HLEN and NNODE count the merges: HSD sets them, HMG moves both by one (42_huffman_coder.md R162). -/
theorem Performs.merges (hmerges : i = .hmg → s.hlen.toNat = 7 - s.pos ∧ s.nnode.toNat = 7 + s.pos)
    (hpos : i = .hmg → s.pos < 6) (hi : i = .hsd ∨ i = .hmg) (ht : t.op = .hmg) :
    t.hlen.toNat = 7 - t.pos ∧ t.nnode.toNat = 7 + t.pos := by
  cases h with
  | seeded => exact ⟨rfl, rfl⟩
  | merged hlist hlow hnode =>
    obtain ⟨hhlen, hnnode⟩ := hmerges rfl
    have hpos := hpos rfl
    have hnext := mergeHuffman_hlen hlist hnode
    have hold := hlen_of_validList hlist
    have hone : (1 : BitVec 4).toNat = 1 := rfl
    rcases advance_cases .hmg (mergeHuffman s _ _ hnode) with ⟨-, he⟩ | ⟨-, he⟩ <;> rw [he] at ht ⊢
    · cases ht
    · dsimp only
      rw [hnext, mergeHuffman_nnode, BitVec.toNat_add, hone]
      change _ = 7 - (s.pos + 1) ∧ _ = 7 + (s.pos + 1)
      omega
  | _ => simp at hi

end

/-! ### The shape -/

section
variable {s : State} (hs : ShapeInv s)
include hs

theorem ShapeInv.npix_pos : 0 < s.cfg.npix := Machine.npix_pos hs.config

theorem ShapeInv.w_pos : 1 ≤ s.cfg.w := Nat.pos_of_mul_pos_right hs.npix_pos

theorem ShapeInv.numericsOk : s.cfg.numericsOk = true := by
  have hcfg := hs.config
  rw [Config.wf, Bool.and_eq_true] at hcfg
  exact hcfg.2

theorem ShapeInv.q_length : s.q.length = s.cfg.npix := ((memory_wf_iff s).1 hs.memory).2.1

theorem ShapeInv.rs_length : s.rs.length = s.cfg.npix := ((memory_wf_iff s).1 hs.memory).2.2

theorem ShapeInv.fits : s.g.fits s.cfg = true := ((memory_wf_iff s).1 hs.memory).1

theorem ShapeInv.op_ne_flt (hfault : s.fault = false) : s.op ≠ .flt := fun hop => by
  rw [hs.faulted.2 hop] at hfault
  cases hfault

/-- POS is in the range of an operation of the frame. -/
theorem ShapeInv.pos_lt {i : Instr} (hop : s.op = i) (hi : i ≠ .flt) : s.pos < i.runs s.cfg := by
  have hpoint := hs.point
  rw [hop] at hpoint
  exact (wfAt_iff hi).1 hpoint

variable (hfault : s.fault = false) {t : State} (h : Performs s s.op t)
include hfault h

theorem Performs.shapeInv : ShapeInv t := by
  have hexec := exec_of_performs h
  have hcfg : t.cfg = s.cfg := exec_keeps_cfg hexec
  have hmem := exec_keeps_memory hexec hs.memory
  have hsamples := hcfg ▸ h.samples hs.numericsOk hs.samples
  have hop := hs.op_ne_flt hfault
  rcases h.moves_or_raises hs.npix_pos hs.point with hmoves | hraises
  · have htfault : t.fault = false := hmoves.fault.trans hfault
    obtain ⟨htop, htpos⟩ : t.op = (nextPoint s).1 ∧ t.pos = (nextPoint s).2 := Prod.mk.injEq .. ▸ hmoves.point
    obtain ⟨hnext, hwf⟩ := nextPoint_wfAt hop hs.npix_pos
    rw [← htop] at hnext hwf
    refine ⟨hcfg ▸ hs.config, hmem, hsamples, hcfg ▸ htpos ▸ hwf, h.ranks hs.ranks, fun hhmg => ?_, ?_, ?_, ?_⟩
    · exact h.merges hs.merges (fun hi => hs.pos_lt hi (by simp)) (op_of_nextPoint_eq_hmg (htop ▸ hhmg)) hhmg
    · simp [htfault, hnext]
    · rw [hmoves.cause, hmoves.fault]
      exact hs.causes
    · rw [hmoves.info, hs.info, hmoves.fault, hfault]
      rfl
  · have hpos : s.pos < s.cfg.npix := by
      rcases hraises.from_op with hi | hi <;> exact hs.pos_lt hi (by simp)
    refine ⟨hcfg ▸ hs.config, hmem, hsamples, ?_, h.ranks hs.ranks, ?_, ?_, ?_, ?_⟩
    · rw [hraises.op, hraises.pos, hcfg]
      exact decide_eq_true hpos
    · simp [hraises.op]
    · simp [hraises.op, hraises.fault]
    · simp [hraises.cause, hraises.fault]
    · simp [hraises.info, hraises.fault, hraises.pos]

end

section
variable {s : State} (hs : ShapeInv s) (henabled : enabled s = true)
include hs henabled

/-- In a state of the right shape an enabled step has an effect: no access is outside a buffer (10_state.md R46). -/
theorem ShapeInv.exists_performs : ∃ t, Performs s s.op t := by
  obtain ⟨-, hflt, hbeat, hsink⟩ := (enabled_iff s).1 henabled
  have hpos {i : Instr} (hop : s.op = i) (hi : i ≠ .flt) := hs.pos_lt hop hi
  cases hop : s.op with
  | lds =>
    obtain ⟨w, rest, hinq⟩ := List.exists_cons_of_ne_nil (hbeat hop)
    by_cases hflags : FlagsRight s.cfg s.pos w
    · obtain ⟨g, hload⟩ := exists_gridLoad (decodeBeat w).data hs.fits (hpos hop (by simp))
      exact ⟨_, .loaded hinq hflags hload⟩
    · exact ⟨_, .malformed hinq hflags⟩
  | qdf =>
    have hcell : s.pos < s.cfg.npix := hpos hop (by simp)
    rcases gridQuantize_ok_or_overflow hs.w_pos hs.fits hcell with ⟨level, g, hlevel⟩ | hover
    · exact ⟨_, .quantized hlevel (hs.q_length ▸ hcell)⟩
    · exact ⟨_, .overflowed hover⟩
  | tcn => exact ⟨_, .counted (List.getElem?_eq_getElem (hs.q_length ▸ hpos hop (by simp)))⟩
  | rnk => exact ⟨_, .ranked (hpos hop (by simp))⟩
  | rmp =>
    have hcell : s.pos < s.cfg.npix := hpos hop (by simp)
    exact ⟨_, .remapped (List.getElem?_eq_getElem (hs.q_length ▸ hcell)) (hs.rs_length ▸ hcell) rfl rfl⟩
  | hsd => exact ⟨_, .seeded⟩
  | hmg =>
    have hmerge : s.pos < 6 := hpos hop (by simp)
    obtain ⟨hhlen, hnnode⟩ := hs.merges hop
    obtain ⟨rest, right, left, hlist⟩ := exists_validList_eq (s := s) (by omega)
    exact ⟨_, .merged hlist (by omega) (by omega)⟩
  | erk =>
    have hrow : s.pos < 7 := hpos hop (by simp)
    have hbytes := rankBytes_of_isPermutation hrow (hs.ranks ⟨s.pos, hrow⟩)
    exact ⟨_, .rankWord hbytes (offeredBytes_of_rankBytes hop hbytes ▸ hsink)⟩
  | etn =>
    have hbytes := nodeBytes_of_lt (s := s) (hpos hop (by simp))
    exact ⟨_, .treeByte hbytes (offeredBytes_of_nodeBytes hop hbytes ▸ hsink)⟩
  | pcw =>
    have hcell : s.pos < s.rs.length := hs.rs_length ▸ hpos hop (by simp)
    have hp := packCell_of_cell (List.getElem?_eq_getElem hcell)
    exact ⟨_, .packed hp (offeredBytes_of_packCell hop hp ▸ hsink)⟩
  | fls => exact ⟨_, .flushed (offeredBytes_of_fls hop ▸ hsink)⟩
  | flt => exact absurd hop hflt

end

/-! ### The reset state (R45, log 3) -/

theorem inRange_zeros (c : Config) (n : Nat) : (Grid.zeros c n).inRange c = true := by
  have hzero (accBits : Nat) : fxInRange accBits 0 = true := by
    have : (0 : Int) < 2 ^ (accBits - 1) := by positivity
    rw [fxInRange_iff]
    omega
  cases hnum : c.numerics <;> simp [Grid.inRange, Grid.zeros, hnum, hzero]

theorem shapeInv_resetWith {c : Config} (hcfg : c.wf = true) : ShapeInv (State.resetWith c) := by
  refine shapeInv_of_idle rfl hcfg (memory_wf_resetWith c) (inRange_zeros c c.npix) (fun i k => ⟨k, ?_⟩) rfl rfl
  simp [State.resetWith]

theorem shapeInv_assertReset {s : State} (hcfg : s.cfg.wf = true) : ShapeInv (assertReset s) := by
  have h := shapeInv_resetWith hcfg
  exact ⟨h.config, h.memory, h.samples, h.point, h.ranks, h.merges, h.faulted, h.causes, h.info⟩

/-! ### The statements -/

/-- Settles O46: a step that is not enabled leaves the state; an enabled one has an effect, and that keeps the shape. -/
theorem stepKeepsTheShape : Obligations.StepKeepsTheShape := by
  intro s hs
  refine ⟨?_, shapeInv_assertReset hs.config⟩
  cases henabled : enabled s with
  | false => exact ⟨s, notEnabledStepChangesNothing s henabled, hs⟩
  | true =>
    obtain ⟨t, h⟩ := hs.exists_performs henabled
    obtain ⟨hfault, -⟩ := (enabled_iff s).1 henabled
    exact ⟨t, step_of_performs hfault h, h.shapeInv hs hfault⟩

/-- Settles O9: an enabled step has an effect, which moves (OP, POS) or raises a fault. -/
theorem enabledStepFollowsTheTable : Obligations.EnabledStepFollowsTheTable := by
  intro s hs henabled
  obtain ⟨⟨t, hstep, -⟩, -⟩ := stepKeepsTheShape s hs
  obtain ⟨hfault, h, -⟩ := performs_of_enabled henabled hstep
  refine ⟨t, hstep, ?_⟩
  rcases h.moves_or_raises hs.npix_pos hs.point with hmoves | hraises
  · exact .inl ⟨hmoves.fault.trans hfault, hmoves.point⟩
  · exact .inr ⟨hraises.fault, hraises.op, hraises.pos, hraises.from_op⟩

end Sys2Proof.Machine
end

section
/-! PROOF. What every step keeps of the Transition Modeler's progress (spec/41_transition_modeler.md R142, R149): the
progress told by the operation that OP names, and one more cell or row for each operation of the stage. -/

namespace Sys2Proof.Machine

/-! ### The progress, by how far it has come -/

theorem atOrAfter_of_le {a b i : Instr} (hab : (encode a).toNat ≤ (encode b).toNat)
    (h : Instr.atOrAfter b i = true) : Instr.atOrAfter a i = true := by
  simp only [Instr.atOrAfter, Bool.and_eq_true, decide_eq_true_eq] at h ⊢
  exact ⟨hab.trans h.1, h.2⟩

/-- T, RK, RS and HIST are MARKOV of Q. -/
structure MarkovDone (s : State) : Prop where
  counted : s.t = transitionMatrix s.q
  ranked : s.rk = rankMatrix s.cfg.rankTie s.t
  remapped : s.rs = remap s.rk s.q
  histogram : s.hist = histogramOf s.rs

section
variable {s : State}

theorem MarkovInv.done (h : MarkovInv s) (hop : Instr.atOrAfter .hsd s.op = true) : MarkovDone s where
  counted := h.counted (atOrAfter_of_le (by decide) hop)
  ranked := h.ranked (atOrAfter_of_le (by decide) hop)
  remapped := (h.remapped hop).1
  histogram := (h.remapped hop).2

theorem MarkovDone.inv (h : MarkovDone s) (hop : Instr.atOrAfter .hsd s.op = true) : MarkovInv s where
  counting htcn := absurd hop (by rw [htcn]; decide)
  counted _ := h.counted
  ranking hrnk := absurd hop (by rw [hrnk]; decide)
  ranked _ := h.ranked
  remapping hrmp := absurd hop (by rw [hrmp]; decide)
  remapped _ := ⟨h.remapped, h.histogram⟩

/-- Before TCN, and in FLT, nothing is claimed. -/
theorem markovInv_of_early (hop : s.op = .lds ∨ s.op = .qdf ∨ s.op = .flt) : MarkovInv s := by
  rcases hop with hop | hop | hop
  all_goals constructor <;> simp [hop, Instr.atOrAfter, encode]

theorem markovInv_of_tcn (hop : s.op = .tcn)
    (hcounting : 0 < s.pos → s.t = transitionMatrix (s.q.take s.pos) ∧ s.prev = (s.q.take s.pos).getLastD 0) :
    MarkovInv s where
  counting _ := hcounting
  counted h := absurd h (by rw [hop]; decide)
  ranking h := absurd (hop.symm.trans h) (by decide)
  ranked h := absurd h (by rw [hop]; decide)
  remapping h := absurd (hop.symm.trans h) (by decide)
  remapped h := absurd h (by rw [hop]; decide)

theorem markovInv_of_rnk (hop : s.op = .rnk) (hcounted : s.t = transitionMatrix s.q)
    (hranking : ∀ i : Sym, i.val < s.pos → s.rk[i] = rankRow s.cfg.rankTie s.t[i]) : MarkovInv s where
  counting h := absurd (hop.symm.trans h) (by decide)
  counted _ := hcounted
  ranking _ := hranking
  ranked h := absurd h (by rw [hop]; decide)
  remapping h := absurd (hop.symm.trans h) (by decide)
  remapped h := absurd h (by rw [hop]; decide)

theorem markovInv_of_rmp (hop : s.op = .rmp) (hcounted : s.t = transitionMatrix s.q)
    (hranked : s.rk = rankMatrix s.cfg.rankTie s.t)
    (hremapping : 0 < s.pos → s.rs.take s.pos = remap s.rk (s.q.take s.pos) ∧
      s.prev = (s.q.take s.pos).getLastD 0 ∧ s.hist = histogramOf (s.rs.take s.pos)) : MarkovInv s where
  counting h := absurd (hop.symm.trans h) (by decide)
  counted _ := hcounted
  ranking h := absurd (hop.symm.trans h) (by decide)
  ranked _ := hranked
  remapping _ := hremapping
  remapped h := absurd h (by rw [hop]; decide)

end

/-! ### The three operations of the stage -/

section
variable {s t : State} (hs : ShapeInv s) (hm : MarkovInv s)
include hs hm

theorem markovInv_of_exec_tcn (hop : s.op = .tcn) (h : exec .tcn s = .next t) : MarkovInv t := by
  have hcell : s.pos < s.q.length := hs.q_length ▸ hs.pos_lt hop (by simp)
  rw [exec_tcn_of_counted hcell (hm.counting hop)] at h
  have ht := Host.Outcome.next.inj h
  rcases advance_point_cases ht with ⟨hlast, hop', hpos'⟩ | ⟨-, hop', hpos'⟩ <;> subst ht
  · have hall : s.q.take (s.pos + 1) = s.q := by
      refine List.take_of_length_le ?_
      change s.pos = s.cfg.npix - 1 at hlast
      have := hs.q_length
      omega
    exact markovInv_of_rnk hop' (by rw [advance_t, advance_q, hall]) fun i hi => absurd (hpos' ▸ hi) (Nat.not_lt_zero _)
  · refine markovInv_of_tcn (hop'.trans hop) fun _ => ?_
    rw [hpos', advance_t, advance_q, advance_prev]
    exact ⟨rfl, rfl⟩

theorem markovInv_of_exec_rnk (hop : s.op = .rnk) (h : exec .rnk s = .next t) : MarkovInv t := by
  have hpos : s.pos < 7 := hs.pos_lt hop (by simp)
  have hcounted : s.t = transitionMatrix s.q := hm.counted (by rw [hop]; rfl)
  have hrows (i : Sym) (hi : i.val < s.pos + 1) :
      (s.rk.set s.pos (rankRow s.cfg.rankTie s.t[s.pos]))[i] = rankRow s.cfg.rankTie s.t[i] := by
    rcases Nat.lt_succ_iff_lt_or_eq.1 hi with hlt | heq
    · exact (Vector.getElem_set_ne hpos i.isLt hlt.ne').trans (hm.ranking hop i hlt)
    · simp [heq]
  rw [exec_rnk_of_lt hpos] at h
  have ht := Host.Outcome.next.inj h
  rcases advance_point_cases ht with ⟨hlast, hop', hpos'⟩ | ⟨-, hop', hpos'⟩ <;> subst ht
  · have hlast : s.pos = 6 := hlast
    refine markovInv_of_rmp hop' (by simpa using hcounted) ?_ fun hi => absurd (hpos' ▸ hi) (Nat.lt_irrefl 0)
    rw [advance_rk, advance_t, advance_cfg]
    exact Vector.ext fun i hi => (hrows ⟨i, hi⟩ (by rw [hlast]; exact hi)).trans (by simp [rankMatrix])
  · refine markovInv_of_rnk (hop'.trans hop) (by simpa using hcounted) fun i hi => ?_
    rw [hpos'] at hi
    rw [advance_rk, advance_t, advance_cfg]
    exact hrows i hi

theorem markovInv_of_exec_rmp (hop : s.op = .rmp) (h : exec .rmp s = .next t) : MarkovInv t := by
  have hpix : s.pos < s.cfg.npix := hs.pos_lt hop (by simp)
  have hcell : s.pos < s.q.length := hs.q_length ▸ hpix
  have hslot : s.pos < s.rs.length := hs.rs_length ▸ hpix
  have hcounted : s.t = transitionMatrix s.q := hm.counted (by rw [hop]; rfl)
  have hranked : s.rk = rankMatrix s.cfg.rankTie s.t := hm.ranked (by rw [hop]; rfl)
  have hdone : s.rs.take s.pos = remap s.rk (s.q.take s.pos) := by
    rcases Nat.eq_zero_or_pos s.pos with hzero | hpos
    · rw [hzero]
      rfl
    · exact (hm.remapping hop hpos).1
  rw [exec_rmp_of_remapped hcell hslot rfl fun hpos =>
    ⟨(hm.remapping hop hpos).2.2, (hm.remapping hop hpos).2.1⟩] at h
  generalize hk : s.rk[(s.q.take s.pos).getLastD 0][s.q[s.pos]] = k at h
  have hnext : (s.rs.set s.pos k).take (s.pos + 1) = remap s.rk (s.q.take (s.pos + 1)) := by
    rw [take_set_concat hslot, hdone, ← hk, ← remap_concat, List.take_append_getElem hcell]
  have ht := Host.Outcome.next.inj h
  rcases advance_point_cases ht with ⟨hlast, hop', hpos'⟩ | ⟨-, hop', hpos'⟩ <;> subst ht
  · have hlast : s.pos + 1 = s.cfg.npix := by
      change s.pos = s.cfg.npix - 1 at hlast
      omega
    have hall : (s.rs.set s.pos k).take (s.pos + 1) = s.rs.set s.pos k :=
      List.take_of_length_le (by simp [hlast, hs.rs_length])
    rw [hall, List.take_of_length_le (by simp [hlast, hs.q_length])] at hnext
    refine MarkovDone.inv ⟨by simpa using hcounted, by simpa using hranked, by simpa using hnext, ?_⟩ ?_
    · rw [advance_hist, advance_rs, hall]
    · rw [hop']
      rfl
  · refine markovInv_of_rmp (hop'.trans hop) (by simpa using hcounted) (by simpa using hranked) fun _ => ?_
    rw [hpos', advance_rs, advance_rk, advance_q, advance_prev, advance_hist]
    exact ⟨hnext, rfl, rfl⟩

end

/-- From HSD on nothing writes Q, T, RK, RS or HIST until the frame ends. -/
theorem Performs.markovDone {s t : State} {i : Instr} (h : Performs s i t) (hop : s.op = i)
    (hi : Instr.atOrAfter .hsd i = true) (hd : MarkovDone s) :
    MarkovDone t ∧ (Instr.atOrAfter .hsd t.op = true ∨ t.op = .lds) := by
  obtain ⟨hcounted, hranked, hremapped, hhist⟩ := hd
  cases h with
  | malformed | loaded | overflowed | quantized | counted | ranked | remapped => cases hi
  | seeded => exact ⟨⟨hcounted, hranked, hremapped, hhist⟩, .inl rfl⟩
  | flushed => exact ⟨⟨hcounted, hranked, hremapped, hhist⟩, .inr rfl⟩
  | merged | rankWord | treeByte | packed =>
    refine ⟨⟨by simpa [mergeHuffman] using hcounted, by simpa [mergeHuffman] using hranked,
      by simpa [mergeHuffman] using hremapped, by simpa [mergeHuffman] using hhist⟩, .inl ?_⟩
    rw [advance_op]
    split
    · rfl
    · exact hop ▸ hi

theorem Performs.markovInv {s t : State} (h : Performs s s.op t) (hs : ShapeInv s) (hm : MarkovInv s) :
    MarkovInv t := by
  have hexec := exec_of_performs h
  generalize hop : s.op = i at h hexec
  have hlate (hi : Instr.atOrAfter .hsd i = true) : MarkovInv t := by
    obtain ⟨hdone, hop' | hop'⟩ := h.markovDone hop hi (hm.done (hop ▸ hi))
    · exact hdone.inv hop'
    · exact markovInv_of_early (.inl hop')
  cases i with
  | lds =>
    cases h with
    | malformed => exact markovInv_of_early (.inr (.inr rfl))
    | loaded =>
      refine markovInv_of_early ?_
      rw [advance_op]
      split
      · exact .inr (.inl rfl)
      · exact .inl hop
  | qdf =>
    cases h with
    | overflowed => exact markovInv_of_early (.inr (.inr rfl))
    | quantized =>
      rcases advance_point_cases rfl with ⟨-, hop', hpos'⟩ | ⟨-, hop', -⟩
      · exact markovInv_of_tcn hop' fun hpos => absurd (hpos' ▸ hpos) (Nat.lt_irrefl 0)
      · exact markovInv_of_early (.inr (.inl (hop'.trans hop)))
  | tcn => exact markovInv_of_exec_tcn hs hm hop hexec
  | rnk => exact markovInv_of_exec_rnk hs hm hop hexec
  | rmp => exact markovInv_of_exec_rmp hs hm hop hexec
  | hsd | hmg | erk | etn | pcw | fls => exact hlate rfl
  | flt => cases h

/-- Settles O47: each operation of the stage does one more cell or row, and no later one writes its buffers. -/
theorem stepKeepsMarkov : Obligations.StepKeepsMarkov := by
  intro s t hs hm h
  rcases waits_or_performs h with ⟨-, rfl⟩ | ⟨-, hp⟩
  · exact hm
  · exact hp.markovInv hs hm

end Sys2Proof.Machine
end

section
/-! PROOF. The sums of a frame's counts (spec/41_transition_modeler.md R142, R147). -/

namespace Sys2Proof.Machine

/-! ### Counts of a list over a finite type -/

section
variable {α : Type} [Fintype α] [BEq α] [LawfulBEq α]

theorem sum_count_eq_length (l : List α) : (∑ a : α, l.count a) = l.length := by
  classical
  induction l with
  | nil => simp
  | cons x l ih => simp [List.count_cons, Finset.sum_add_distrib, ih]

/-- How often a function takes a value along a list, collected over its arguments. -/
theorem count_map_eq_sum {β : Type} [DecidableEq β] (f : α → β) (l : List α) (b : β) :
    (l.map f).count b = ∑ a : α, if f a = b then l.count a else 0 := by
  have hcount (a : α) : (if f a = b then l.count a else 0) = (l.filter fun x => decide (f x = b)).count a := by
    split
    · exact (List.count_filter (by simpa)).symm
    · exact (List.count_eq_zero.2 (by simp [*])).symm
  rw [Finset.sum_congr rfl fun a _ => hcount a, sum_count_eq_length, ← List.countP_eq_length_filter, List.count,
    List.countP_map]
  rfl

end

theorem transitions_length (q : List Sym) : (transitions q).length = q.length := by
  simp [transitions]

theorem transitionMatrix_getElem (q : List Sym) (i j : Sym) :
    (transitionMatrix q)[i][j] = (transitions q).count (i, j) := by
  simp [transitionMatrix]

/-- Every cell is one transition (R142). -/
theorem sum_transitionMatrix (q : List Sym) : (∑ i : Sym, ∑ j : Sym, (transitionMatrix q)[i][j]) = q.length := by
  simp only [transitionMatrix_getElem]
  rw [← Fintype.sum_prod_type fun p => (transitions q).count p, sum_count_eq_length, transitions_length]

theorem transitionMatrix_le (q : List Sym) (i j : Sym) : (transitionMatrix q)[i][j] ≤ q.length := by
  rw [transitionMatrix_getElem, ← transitions_length]
  exact List.count_le_length

theorem sum_histogramOf (rs : List Sym) : (∑ k : Sym, (histogramOf rs)[k]) = rs.length := by
  simp only [histogramOf_getElem]
  exact sum_count_eq_length rs

/-- The Histogram is the Transition Matrix collected by rank (R147). -/
theorem histogramOf_remap (rk : Vector (Vector Sym 7) 7) (q : List Sym) (k : Sym) :
    (histogramOf (remap rk q))[k] = ∑ i : Sym, ∑ j : Sym, if rk[i][j] = k then (transitionMatrix q)[i][j] else 0 := by
  rw [histogramOf_getElem, remap, count_map_eq_sum, Fintype.sum_prod_type]
  simp only [transitionMatrix_getElem]

/-- A row's counts are at most seven times that of rank 0, which is the largest (R145, R147). -/
theorem sum_row_le (tie : RankTie) (cnt : Vector Nat 7) :
    (∑ j : Sym, cnt[j]) ≤ 7 * ∑ j : Sym, if (rankRow tie cnt)[j] = 0 then cnt[j] else 0 := by
  obtain ⟨x, hx⟩ := rankRow_isPermutation tie cnt 0
  have hlargest (j : Sym) : cnt[j] ≤ cnt[x] := count_le_of_rank_le (tie := tie) (hx ▸ Fin.zero_le _)
  calc (∑ j : Sym, cnt[j]) ≤ ∑ _j : Sym, cnt[x] := Finset.sum_le_sum fun j _ => hlargest j
    _ = 7 * cnt[x] := by simp
    _ = 7 * if (rankRow tie cnt)[x] = 0 then cnt[x] else 0 := by rw [if_pos hx]
    _ ≤ _ := Nat.mul_le_mul_left 7
      (Finset.single_le_sum (f := fun j : Sym => if (rankRow tie cnt)[j] = 0 then cnt[j] else 0)
        (fun _ _ => Nat.zero_le _) (Finset.mem_univ x))

/-- Settles O26: T counts the transitions of a frame of NPIX cells, and HIST is T collected by rank. -/
theorem histogramConservation : Obligations.HistogramConservation := by
  intro s hs hm
  refine ⟨fun hop => ?_, fun hop => ?_⟩
  · rw [hm.counted hop, ← hs.q_length]
    exact ⟨sum_transitionMatrix s.q, transitionMatrix_le s.q⟩
  · obtain ⟨hcounted, hranked, hremapped, hhist⟩ := hm.done hop
    have hcollected (k : Sym) : s.hist[k] = ∑ i : Sym, ∑ j : Sym, if s.rk[i][j] = k then s.t[i][j] else 0 := by
      rw [hhist, hremapped, hcounted, histogramOf_remap]
    refine ⟨?_, fun k => ?_, hcollected, ?_⟩
    · rw [hhist, sum_histogramOf, hs.rs_length]
    · rw [hhist, histogramOf_getElem, ← hs.rs_length]
      exact List.count_le_length
    · have hrow (i : Sym) : s.rk[i] = rankRow s.cfg.rankTie s.t[i] := by simp [hranked, rankMatrix]
      rw [hcollected, ← hs.q_length, ← sum_transitionMatrix, ← hcounted, Finset.mul_sum]
      exact Finset.sum_le_sum fun i _ => by simpa only [hrow] using sum_row_le s.cfg.rankTie s.t[i]

end Sys2Proof.Machine
end

section
/-! PROOF. What every step keeps of the Huffman Coder's progress (spec/42_huffman_coder.md R166, R169, R172): HSD makes
the state before the first merge, each HMG does one merge, and no other operation writes CW or TREE. -/

namespace Sys2Proof.Machine

/-! ### What the other operations leave -/

section
variable {s t : State} {i : Instr} (h : Performs s i t)
include h

theorem Performs.op_cases (hop : s.op = i) : t.op = i ∨ t.op = i.successor ∨ t.op = .flt := by
  have hadvance {u : State} (hu : u.op = i) : (advance i u).op = i ∨ (advance i u).op = i.successor := by
    rw [advance_op]
    split
    · exact .inr rfl
    · exact .inl hu
  cases h with
  | malformed | overflowed => exact .inr (.inr rfl)
  | seeded | flushed => exact .inr (.inl rfl)
  | _ =>
    refine (hadvance ?_).imp_right .inl
    exact hop

theorem Performs.keeps_code (hhsd : i ≠ .hsd) (hhmg : i ≠ .hmg) : t.cw = s.cw ∧ t.tree = s.tree := by
  cases h with
  | seeded => exact absurd rfl hhsd
  | merged => exact absurd rfl hhmg
  | _ => simp

theorem Performs.keeps_hist (hrmp : i ≠ .rmp) : t.hist = s.hist := by
  cases h with
  | remapped => exact absurd rfl hrmp
  | _ => simp [mergeHuffman]

end

/-! ### The progress -/

/-- Before HSD, and in FLT, only the codewords' form is claimed. -/
theorem huffmanInv_of_early {s : State} (hnormal : ∀ m : Sym, s.cw[m].Normal) (hhmg : s.op ≠ .hmg)
    (herk : ¬ Instr.atOrAfter .erk s.op = true) : HuffmanInv s :=
  ⟨hnormal, fun h => absurd h hhmg, fun h => absurd h herk⟩

theorem HuffmanInv.betweenMerges {s : State} (hh : HuffmanInv s) (hs : ShapeInv s) (hop : s.op = .hmg) :
    BetweenMerges s :=
  ⟨hh.merging hop, hh.normal, (hs.merges hop).1, (hs.merges hop).2⟩

/-- After the last merge CW and TREE are HUFF's; after any other, one merge more is done. -/
theorem BetweenMerges.huffmanInv_of_exec {s t : State} (h : BetweenMerges s) (hop : s.op = .hmg) (hpos : s.pos < 6)
    (hexec : exec .hmg s = .next t) : HuffmanInv t := by
  obtain ⟨left, right, hnode, he, hnext⟩ := h.exec_hmg hpos
  rw [he] at hexec
  have hpoint := advance_point_cases (Host.Outcome.next.inj hexec)
  obtain rfl := Host.Outcome.next.inj hexec
  have hnormal (m : Sym) : (advance .hmg (mergeHuffman s left right hnode)).cw[m].Normal := by
    rw [advance_cw]
    exact hnext.normal m
  rcases hpoint with ⟨hlast, hop', -⟩ | ⟨hmore, hop', -⟩
  · have hlast : s.pos = 5 := hlast
    have hcode := hnext.treeSoFar_eq_huff (congrArg (· + 1) hlast)
    refine ⟨hnormal, fun hhmg => ?_, fun _ => ?_⟩
    · rw [hop'] at hhmg
      cases hhmg
    · rw [codeOf, advance_cw, advance_tree, advance_hist]
      exact hcode
  · have hmore : advance .hmg (mergeHuffman s left right hnode) = afterMerge s left right hnode := if_neg hmore
    refine ⟨hnormal, fun _ => hmore ▸ hnext.merging, fun herk => ?_⟩
    rw [hop'] at herk
    exact absurd (hop ▸ herk : Instr.atOrAfter .erk .hmg = true) (by decide)

theorem Performs.huffmanInv {s t : State} (h : Performs s s.op t) (hs : ShapeInv s) (hh : HuffmanInv s) :
    HuffmanInv t := by
  have hexec := exec_of_performs h
  generalize hop : s.op = i at h hexec
  have hop' := h.op_cases hop
  cases i with
  | lds | qdf | tcn | rnk | rmp =>
    obtain ⟨hcw, -⟩ := h.keeps_code (by simp) (by simp)
    refine huffmanInv_of_early (hcw ▸ hh.normal) ?_ ?_ <;> rcases hop' with hop' | hop' | hop' <;> rw [hop'] <;> decide
  | hsd =>
    cases h
    have hseeds := betweenMerges_seedHuffman s
    exact ⟨hseeds.normal, fun _ => hseeds.merging, fun herk => absurd herk (by rw [enter_op]; decide)⟩
  | hmg => exact (hh.betweenMerges hs hop).huffmanInv_of_exec hop (hs.pos_lt hop (by simp)) hexec
  | erk | etn | pcw =>
    obtain ⟨hcw, htree⟩ := h.keeps_code (by simp) (by simp)
    have hhist := h.keeps_hist (by simp)
    refine ⟨hcw ▸ hh.normal, fun hhmg => ?_, fun _ => ?_⟩
    · rw [hhmg] at hop'
      simp [Instr.successor] at hop'
    · rw [codeOf, hcw, htree, hhist]
      exact hh.built (by rw [hop]; rfl)
  | fls =>
    obtain ⟨hcw, -⟩ := h.keeps_code (by simp) (by simp)
    refine huffmanInv_of_early (hcw ▸ hh.normal) ?_ ?_ <;> cases h <;> rw [enter_op] <;> decide
  | flt => cases h

/-- Settles O48: HSD makes the loop's first state, HMG does one turn of it, and nothing else writes what they leave. -/
theorem stepKeepsHuffman : Obligations.StepKeepsHuffman := by
  intro s t hs hh h
  rcases waits_or_performs h with ⟨-, rfl⟩ | ⟨-, hp⟩
  · exact hh
  · exact hp.huffmanInv hs hh

end Sys2Proof.Machine
end

section
/-! PROOF. The tree that the Huffman stage leaves (spec/42_huffman_coder.md R166). The loop of R172 keeps a forest: each
id so far is an entry of the list or a child, once, and the counts of the list sum to the whole. -/

namespace Sys2Proof.Machine

/-! ### The forest -/

/-- The child ids of some nodes, in order. -/
def childIds (nodes : List (Nat × Nat)) : List Nat := nodes.flatMap fun n => [n.1, n.2]

/-- What holds between two merges, with `id` the next node's id and `total` the sum of HIST. -/
structure Forest (total : Nat) (list : List RefEntry) (id : Nat) (nodes : List (Nat × Nat)) : Prop where
  next : nodes.length + 7 = id
  ids : (list.map RefEntry.id ++ childIds nodes).Perm (List.range id)
  counts : (list.map RefEntry.count).sum = total
  earlier : ∀ (k : Nat) (h : k < nodes.length), nodes[k].1 < k + 7 ∧ nodes[k].2 < k + 7

section
variable {total id : Nat} {list rest : List RefEntry} {right left root : RefEntry} {nodes : List (Nat × Nat)}

theorem Forest.map_normalize (h : Forest total list id nodes) :
    Forest total (list.map RefEntry.normalize) id nodes where
  next := h.next
  ids := by simpa [Function.comp_def, RefEntry.normalize] using h.ids
  counts := by simpa [Function.comp_def, RefEntry.normalize] using h.counts
  earlier := h.earlier

theorem Forest.merge (h : Forest total (rest ++ [right, left]) id nodes) :
    Forest total (refInsert (refMerge left right id) rest) (id + 1) (nodes ++ [(left.id, right.id)]) := by
  have hperm := refInsert_perm (refMerge left right id) rest
  refine ⟨by simp [← h.next], ?_, ?_, fun k hk => ?_⟩
  · have hnew : (rest.map RefEntry.id ++ childIds (nodes ++ [(left.id, right.id)])).Perm
        ((rest ++ [right, left]).map RefEntry.id ++ childIds nodes) := by
      simp only [childIds, List.flatMap_append, List.map_append, List.append_assoc, List.flatMap_singleton]
      exact (List.perm_append_comm.trans (List.Perm.append_right _ (List.Perm.swap _ _ _))).append_left _
    have hall : (id :: List.range id).Perm (List.range (id + 1)) := by
      rw [List.range_succ]
      exact (List.perm_append_singleton _ _).symm
    exact ((hperm.map _).append_right _).trans (((hnew.trans h.ids).cons id).trans hall)
  · rw [(hperm.map _).sum_eq]
    simpa [refMerge, Nat.add_assoc, Nat.add_comm, Nat.add_left_comm] using h.counts
  · have hid (e : RefEntry) (he : e ∈ rest ++ [right, left]) : e.id < id :=
      List.mem_range.1 (h.ids.subset (List.mem_append_left _ (List.mem_map_of_mem he)))
    rcases Nat.lt_succ_iff_lt_or_eq.1 (by simpa using hk) with hlt | rfl
    · simpa [List.getElem_append_left hlt] using h.earlier k hlt
    · simpa [h.next] using ⟨hid left (by simp), hid right (by simp)⟩

/-- The one entry that the last merge leaves is the last node: no node has it as a child. -/
theorem Forest.root_eq (h : Forest total [root] (id + 1) nodes) : root.id = id := by
  have hmem : id ∈ [root].map RefEntry.id ++ childIds nodes := h.ids.mem_iff.2 List.self_mem_range_succ
  rcases List.mem_append.1 hmem with hroot | hchild
  · exact (List.mem_singleton.1 hroot).symm
  · obtain ⟨n, hn, hmem⟩ := List.mem_flatMap.1 hchild
    obtain ⟨k, hk, rfl⟩ := List.getElem_of_mem hn
    obtain ⟨hleft, hright⟩ := h.earlier k hk
    have hnext := h.next
    simp only [List.mem_cons, List.not_mem_nil, or_false] at hmem
    omega

/-- Every other id is a child exactly once. -/
theorem Forest.childIds_perm (h : Forest total [root] (id + 1) nodes) : (childIds nodes).Perm (List.range id) := by
  have hids := h.ids
  rw [List.map_singleton, h.root_eq, List.range_succ] at hids
  exact (hids.trans (List.perm_append_singleton id _)).cons_inv

end

theorem forest_refSeeds (hist : Vector Nat 7) : Forest (∑ k : Sym, hist[k]) (refSeeds hist) 7 [] where
  next := rfl
  ids := by
    have hids : ((seedOrder hist).map Fin.val).Perm (List.range 7) := (seedOrder_perm hist).map Fin.val
    simpa [refSeeds_eq_map, childIds, Function.comp_def] using hids
  counts := by
    have hsum : ((List.finRange 7).map fun k => hist[k]).sum = ∑ k : Sym, hist[k] := by
      rw [← List.ofFn_eq_map, List.sum_ofFn]
    rw [refSeeds_eq_map, List.map_map, ← hsum]
    exact ((seedOrder_perm hist).map _).sum_eq
  earlier k hk := absurd hk (Nat.not_lt_zero k)

/-! ### The machine's forest -/

/-- The forest that the machine's list and tree stand for, with POS as the number of merges done. -/
def ForestOf (s : State) : Prop := Forest (∑ k : Sym, s.hist[k]) (listed s) (7 + s.pos) (treeSoFar s).nodes

theorem BetweenMerges.forestOf_afterMerge {s : State} (h : BetweenMerges s) (hpos : s.pos < 6) (hf : ForestOf s)
    {rest : List HEntry} {left right : HEntry} (hlist : validList s = rest ++ [right, left])
    (hnode : s.nnode.toNat - 7 < 6) : ForestOf (afterMerge s left right hnode) := by
  have hlisted : listed s = rest.map HEntry.toRef ++ [right.toRef, left.toRef] := by
    rw [listed_eq_map, hlist, List.map_append]
    rfl
  have hlisted' : listed (afterMerge s left right hnode) = _ := listed_mergeHuffman hlist hnode
  rw [ForestOf, hlisted] at hf
  rw [ForestOf, hlisted', h.treeSoFar_afterMerge hpos hlist hnode, h.nnode]
  exact hf.merge.map_normalize

/-- The Huffman stage once more, with the forest beside what holds between two merges. -/
theorem run_huffman_forest {s : State} (hfault : s.fault = false) : ∃ a : State,
    core.run 7 (s.atPoint .hsd 0) = .next ((withHuffmanOf s a).atPoint .erk 0) ∧
    BetweenMerges ((withHuffmanOf s a).atPoint .hmg 6) ∧ ForestOf ((withHuffmanOf s a).atPoint .hmg 6) := by
  have hseed : step (s.atPoint .hsd 0) = .next ((withHuffmanOf s (seedHuffman s)).atPoint .hmg 0) :=
    (step_atPoint hfault .hsd 0).trans (exec_hsd _)
  have hfirst : ForestOf ((withHuffmanOf s (seedHuffman s)).atPoint .hmg 0) := by
    have hlisted : listed ((withHuffmanOf s (seedHuffman s)).atPoint .hmg 0) = refSeeds s.hist :=
      listed_seedHuffman s
    rw [ForestOf, hlisted]
    exact forest_refSeeds s.hist
  have hloop := run_loop (c := s.cfg) (i := .hmg) (withHuffmanOf s)
    (P := fun n a => BetweenMerges ((withHuffmanOf s a).atPoint .hmg n) ∧
      ForestOf ((withHuffmanOf s a).atPoint .hmg n))
    (fun _ => rfl) (fun _ => hfault) ?step (a := seedHuffman s) ⟨betweenMerges_seedHuffman s, hfirst⟩
  case step =>
    rintro n a hn ⟨hmerges, hforest⟩
    have hhlen := hmerges.hlen
    have hnnode := hmerges.nnode
    have hpos : ((withHuffmanOf s a).atPoint .hmg n).pos < 6 := hn
    obtain ⟨rest, right, left, hlist⟩ := exists_validList_eq (s := (withHuffmanOf s a).atPoint .hmg n) (by omega)
    have hnode : ((withHuffmanOf s a).atPoint .hmg n).nnode.toNat - 7 < 6 := by omega
    exact ⟨mergeHuffman _ left right hnode, exec_hmg hlist (by omega) hnode, hmerges.merge hpos hlist hnode,
      hmerges.forestOf_afterMerge hpos hforest hlist hnode⟩
  obtain ⟨a, hrun, hend⟩ := hloop
  exact ⟨a, (run_succ 6 hseed).trans hrun, hend⟩

/-! ### The laws of the tree -/

section
variable {s : State} (hpos : s.pos = 6)
include hpos

theorem BetweenMerges.listed_eq_root (h : BetweenMerges s) : s.hlen = 1 ∧ listed s = [s.hl[(0 : Sym)].toRef] := by
  have hhlen : s.hlen = 1 := BitVec.eq_of_toNat_eq (by rw [h.hlen, hpos]; rfl)
  have hfirst : (List.finRange 7).filter (fun q : Sym => decide (q.val < (1 : BitVec 3).toNat)) = [0] := by decide
  rw [listed_eq_map, validList_eq_map, hhlen, hfirst]
  exact ⟨rfl, rfl⟩

/-- The members of the one entry left are all seven symbols. -/
theorem BetweenMerges.root_mem (h : BetweenMerges s) : s.hl[(0 : Sym)].mem = 0b1111111#7 := by
  obtain ⟨hhlen, -⟩ := h.listed_eq_root hpos
  refine BitVec.eq_of_getLsbD_eq fun m hm => ?_
  obtain ⟨q, hq, hmem, -⟩ := h.merging.partition ⟨m, hm⟩
  obtain rfl : q = 0 := Fin.ext (by simpa [hhlen] using hq)
  have hall : ∀ m : Fin 7, (0b1111111#7).getLsbD m.val = true := by decide
  rw [hall ⟨m, hm⟩]
  exact hmem

theorem ForestOf.treeSoFar_nodes : (treeSoFar s).nodes = s.tree.toList.map TreeNode.pair := by
  rw [treeSoFar, List.take_of_length_le (by simp [hpos])]

end

theorem childIds_map_pair (nodes : List TreeNode) :
    childIds (nodes.map TreeNode.pair) = (nodes.flatMap fun n => [n.left, n.right]).map BitVec.toNat := by
  simp [childIds, List.flatMap_map, List.map_flatMap, TreeNode.pair]

/-- Settles O30: after six merges the forest is one tree, with node 12 as its root. -/
theorem huffmanTreeLaws : Obligations.HuffmanTreeLaws := by
  intro s t hop hpos hfault hrun
  obtain ⟨a, hrun', hmerges, hforest⟩ := run_huffman_forest hfault
  have hstart : s.atPoint .hsd 0 = s := by rw [State.atPoint, ← hop, ← hpos]
  rw [hstart] at hrun'
  obtain rfl := Host.Outcome.next.inj (hrun.symm.trans hrun')
  obtain ⟨hhlen, hlisted⟩ := hmerges.listed_eq_root rfl
  have hmem := hmerges.root_mem rfl
  rw [ForestOf, hlisted, ForestOf.treeSoFar_nodes rfl] at hforest
  have hchildren := hforest.childIds_perm
  rw [childIds_map_pair] at hchildren
  refine ⟨fun k => ?_, fun c hc => ?_, hhlen, BitVec.eq_of_toNat_eq hforest.root_eq, hmem, ?_⟩
  · have hearlier := hforest.earlier k.val (by simp)
    simp only [List.getElem_map, Vector.getElem_toList] at hearlier
    exact hearlier
  · have hcount := hchildren.count_eq c.toNat
    rw [List.count_map_of_injective _ _ (fun _ _ => BitVec.eq_of_toNat_eq),
      List.count_eq_one_of_mem List.nodup_range (List.mem_range.2 (Nat.lt_succ_of_le hc))] at hcount
    exact hcount
  · have hcounts := hforest.counts
    rw [List.map_singleton, List.sum_singleton] at hcounts
    exact hcounts

end Sys2Proof.Machine
end

section
/-! PROOF. Degenerate histograms (spec/42_huffman_coder.md R170). HUFF compares counts and adds them, nothing else, so
it does not change when every count is multiplied by the same positive number; what is left is one evaluation each. -/

namespace Sys2Proof.Machine

/-- The entry with its count multiplied. -/
def RefEntry.scale (c : Nat) (e : RefEntry) : RefEntry := { e with count := c * e.count }

section
variable {c : Nat} (hc : 1 ≤ c)
include hc

theorem refInsert_map_scale (e : RefEntry) (l : List RefEntry) :
    refInsert (e.scale c) (l.map (RefEntry.scale c)) = (refInsert e l).map (RefEntry.scale c) := by
  have hle (x : RefEntry) : (x.scale c).count ≤ (e.scale c).count ↔ x.count ≤ e.count :=
    Nat.mul_le_mul_left_iff hc
  induction l with
  | nil => rfl
  | cons x rest ih => by_cases h : x.count ≤ e.count <;> simp [refInsert, hle, h, ih]

omit hc in
theorem refMerge_scale (left right : RefEntry) (id : Nat) :
    refMerge (left.scale c) (right.scale c) id = (refMerge left right id).scale c := by
  simp [refMerge, RefEntry.scale, Nat.mul_add]

theorem huffLoop_map_scale (fuel : Nat) : ∀ (l : List RefEntry) (id : Nat) (acc : RefTree),
    huffLoop fuel (l.map (RefEntry.scale c)) id acc = huffLoop fuel l id acc := by
  induction fuel with
  | zero => exact fun _ _ _ => rfl
  | succ fuel ih =>
    intro l id acc
    rcases lt_or_ge l.length 2 with hl | hl
    · match l with
      | [] | [_] => rfl
    · obtain ⟨rest, right, left, rfl, -⟩ := exists_eq_append_pair (Nat.sub_add_cancel hl).symm
      have hgraft : refGraft (left.scale c) (right.scale c) acc = refGraft left right acc := rfl
      simp only [List.map_append, List.map_cons, List.map_nil, huffLoop_succ, hgraft, refMerge_scale,
        refInsert_map_scale hc, ih]

theorem seedOrder_map_mul (hist : Vector Nat 7) : seedOrder (hist.map (c * ·)) = seedOrder hist := by
  refine insertionSort_congr (List.pairwise_of_forall fun i j => ?_)
  simpa using Nat.mul_le_mul_left_iff hc

/-- HUFF does not change when every count is multiplied by the same positive number. -/
theorem huff_map_mul (hist : Vector Nat 7) : huff (hist.map (c * ·)) = huff hist := by
  have hseeds : refSeeds (hist.map (c * ·)) = (refSeeds hist).map (RefEntry.scale c) := by
    rw [refSeeds_eq_map, refSeeds_eq_map, seedOrder_map_mul hc, List.map_map]
    exact List.map_congr_left fun i _ => by simp [RefEntry.scale]
  rw [huff, hseeds, huffLoop_map_scale hc, huff]

theorem huff_of_map_mul {hist unit : Vector Nat 7} {tree : RefTree} (hmul : unit.map (c * ·) = hist)
    (hunit : huff unit = tree) : huff hist = tree := by
  rw [← hmul, huff_map_mul hc, hunit]

end

/-- Settles O32: the table for the count 1, and the count does not matter. -/
theorem degenerateHistograms : Obligations.DegenerateHistograms := by
  refine ⟨fun c hc => ⟨?_, ?_, ?_, ?_, ?_, ?_, ?_⟩, fun c => ?_⟩
  · exact huff_of_map_mul hc (unit := #v[1, 0, 0, 0, 0, 0, 0]) (by simp) (by decide +kernel)
  · exact huff_of_map_mul hc (unit := #v[0, 1, 0, 0, 0, 0, 0]) (by simp) (by decide +kernel)
  · exact huff_of_map_mul hc (unit := #v[0, 0, 1, 0, 0, 0, 0]) (by simp) (by decide +kernel)
  · exact huff_of_map_mul hc (unit := #v[0, 0, 0, 1, 0, 0, 0]) (by simp) (by decide +kernel)
  · exact huff_of_map_mul hc (unit := #v[0, 0, 0, 0, 1, 0, 0]) (by simp) (by decide +kernel)
  · exact huff_of_map_mul hc (unit := #v[0, 0, 0, 0, 0, 1, 0]) (by simp) (by decide +kernel)
  · exact huff_of_map_mul hc (unit := #v[0, 0, 0, 0, 0, 0, 1]) (by simp) (by decide +kernel)
  · rcases Nat.eq_zero_or_pos c with rfl | hc
    · decide +kernel
    · exact huff_of_map_mul hc (unit := Vector.replicate 7 1) (by simp) (by decide +kernel)

end Sys2Proof.Machine
end

section
/-! PROOF. What every step keeps of the record (spec/43_bitpacker_serializer.md R186, R190): OUT and the accumulator
told by the operation that OP names, and one more field or codeword for each operation that emits. -/

namespace Sys2Proof.Machine

/-! ### The fields depend on their buffers only -/

theorem rankField_congr {s t : State} (h : t.rk = s.rk) (n : Nat) : rankField t n = rankField s n := by
  rw [rankField, rankField, h]

theorem treeField_congr {s t : State} (h : t.tree = s.tree) (n : Nat) : treeField t n = treeField s n := by
  rw [treeField, treeField, h]

theorem codeOf_congr {s t : State} (h : t.cw = s.cw) : codeOf t = codeOf s := by
  rw [codeOf, codeOf, h]

/-! ### The progress, by how far it has come -/

section
variable {s : State} (hacc : s.bacc.toNat < 2 ^ s.bcnt.toNat)
include hacc

/-- Before ERK, and in FLT, only the accumulator's form is claimed. -/
theorem recordInv_of_early (hop : s.op ≠ .erk ∧ s.op ≠ .etn ∧ s.op ≠ .pcw ∧ s.op ≠ .fls) : RecordInv s :=
  ⟨hacc, fun h => absurd h hop.1, fun h => absurd h hop.2.1, fun h => absurd h hop.2.2.1, fun h => absurd h hop.2.2.2⟩

theorem recordInv_of_erk (hop : s.op = .erk) (h : ∃ earlier, s.out = earlier ++ rankField s s.pos) : RecordInv s where
  accumulator := hacc
  ranks _ := h
  tree h' := absurd (hop.symm.trans h') (by decide)
  packing h' := absurd (hop.symm.trans h') (by decide)
  packed h' := absurd (hop.symm.trans h') (by decide)

theorem recordInv_of_etn (hop : s.op = .etn)
    (h : ∃ earlier, s.out = earlier ++ rankField s 7 ++ treeField s s.pos) : RecordInv s where
  accumulator := hacc
  ranks h' := absurd (hop.symm.trans h') (by decide)
  tree _ := h
  packing h' := absurd (hop.symm.trans h') (by decide)
  packed h' := absurd (hop.symm.trans h') (by decide)

omit hacc in
/-- During PCW, with the accumulator empty before the first cell. -/
theorem recordInv_of_pcw (hop : s.op = .pcw) (hacc : s.bacc.toNat < 2 ^ s.bcnt.toNat) {earlier packed : List Byte}
    (hout : s.out = earlier ++ rankField s 7 ++ treeField s 6 ++ packed)
    (hbits : packed.flatMap bitsOfByte ++ (if s.pos = 0 then [] else accBits s.bacc s.bcnt) =
      frameBits (codeOf s) (s.rs.take s.pos)) : RecordInv s where
  accumulator := hacc
  ranks h' := absurd (hop.symm.trans h') (by decide)
  tree h' := absurd (hop.symm.trans h') (by decide)
  packing _ := ⟨earlier, packed, hout, hbits⟩
  packed h' := absurd (hop.symm.trans h') (by decide)

theorem recordInv_of_fls (hop : s.op = .fls) {earlier packed : List Byte}
    (hout : s.out = earlier ++ rankField s 7 ++ treeField s 6 ++ packed)
    (hbits : packed.flatMap bitsOfByte ++ accBits s.bacc s.bcnt = frameBits (codeOf s) s.rs) : RecordInv s where
  accumulator := hacc
  ranks h' := absurd (hop.symm.trans h') (by decide)
  tree h' := absurd (hop.symm.trans h') (by decide)
  packing h' := absurd (hop.symm.trans h') (by decide)
  packed _ := ⟨earlier, packed, hout, hbits⟩

end

/-! ### The operations that emit -/

section
variable {s t : State} (hs : ShapeInv s) (hr : RecordInv s)
include hs hr

theorem Performs.recordInv_erk (hop : s.op = .erk) (h : Performs s .erk t) : RecordInv t := by
  obtain ⟨earlier, hout⟩ := hr.ranks hop
  have hpos : s.pos < 7 := hs.pos_lt hop (by simp)
  cases h with | @rankWord bytes hbytes =>
  have hword := Except.ok.inj (hbytes.symm.trans (rankBytes_of_isPermutation hpos (hs.ranks ⟨s.pos, hpos⟩)))
  have hacc := hr.accumulator
  have hnext : (emit bytes s).out = earlier ++ rankField s (s.pos + 1) := by
    rw [emit_out, hword, hout, rankField_succ s hpos, List.append_assoc]
  generalize ht : advance .erk _ = t
  rcases advance_point_cases ht with ⟨hlast, hop', hpos'⟩ | ⟨-, hop', hpos'⟩ <;> subst ht
  · have hlast : s.pos = 6 := hlast
    refine recordInv_of_etn (by simpa using hacc) hop' ⟨earlier, ?_⟩
    rw [hpos', advance_out, hnext, hlast, rankField_congr (advance_rk _ _)]
    exact (List.append_nil _).symm
  · refine recordInv_of_erk (by simpa using hacc) (hop'.trans hop) ⟨earlier, ?_⟩
    rw [hpos', advance_out, hnext, rankField_congr (advance_rk _ _)]
    rfl

theorem Performs.recordInv_etn (hop : s.op = .etn) (h : Performs s .etn t) : RecordInv t := by
  obtain ⟨earlier, hout⟩ := hr.tree hop
  have hpos : s.pos < 6 := hs.pos_lt hop (by simp)
  cases h with | @treeByte bytes hbytes =>
  have hnode := Except.ok.inj (hbytes.symm.trans (nodeBytes_of_lt hpos))
  have hacc := hr.accumulator
  have hnext : (emit bytes s).out = earlier ++ rankField s 7 ++ treeField s (s.pos + 1) := by
    rw [emit_out, hnode, hout, treeField_succ s hpos, List.append_assoc _ (treeField s s.pos)]
  generalize ht : advance .etn _ = t
  rcases advance_point_cases ht with ⟨hlast, hop', hpos'⟩ | ⟨-, hop', hpos'⟩ <;> subst ht
  · have hlast : s.pos = 5 := hlast
    refine recordInv_of_pcw hop' (by simpa using hacc) (earlier := earlier) (packed := []) ?_ ?_
    · rw [advance_out, hnext, hlast, rankField_congr (advance_rk _ _), treeField_congr (advance_tree _ _)]
      exact (List.append_nil _).symm
    · rw [hpos', if_pos rfl]
      rfl
  · refine recordInv_of_etn (by simpa using hacc) (hop'.trans hop) ⟨earlier, ?_⟩
    rw [hpos', advance_out, hnext, rankField_congr (advance_rk _ _), treeField_congr (advance_tree _ _)]
    rfl

omit hs in
/-- What PCW holds before it puts a codeword. -/
theorem RecordInv.packedCells (hop : s.op = .pcw) : ∃ earlier packed,
    s.out = earlier ++ rankField s 7 ++ treeField s 6 ++ packed ∧
      PackedCells s s.pos packed (if s.pos = 0 then 0 else s.bacc) (if s.pos = 0 then 0 else s.bcnt) := by
  obtain ⟨earlier, packed, hout, hbits⟩ := hr.packing hop
  refine ⟨earlier, packed, hout, ?_, ?_⟩
  · split
    · decide
    · exact hr.accumulator
  · rw [← hbits]
    split <;> rfl

theorem Performs.recordInv_pcw (hh : HuffmanInv s) (hop : s.op = .pcw) (h : Performs s .pcw t) : RecordInv t := by
  obtain ⟨earlier, packed, hout, hpacked⟩ := hr.packedCells hop
  have hcell : s.pos < s.rs.length := hs.rs_length ▸ hs.pos_lt hop (by simp)
  have hnext := hpacked.succ hcell (hh.normal _)
  cases h with | @packed p hp =>
  obtain rfl : p = _ := Except.ok.inj (hp.symm.trans (packCell_of_cell (List.getElem?_eq_getElem hcell)))
  generalize packCodeword _ _ _ = p at hnext
  have hout' : s.out ++ p.bytes = earlier ++ rankField s 7 ++ treeField s 6 ++ (packed ++ p.bytes) := by
    rw [hout, List.append_assoc]
  generalize ht : advance .pcw _ = t
  rcases advance_point_cases ht with ⟨hlast, hop', hpos'⟩ | ⟨-, hop', hpos'⟩ <;> subst ht
  · have hlast : s.pos + 1 = s.cfg.npix := by
      change s.pos = s.cfg.npix - 1 at hlast
      have := hs.npix_pos
      omega
    refine recordInv_of_fls (by simpa using hnext.held) hop' (earlier := earlier) (packed := packed ++ p.bytes) ?_ ?_
    · rw [advance_out, rankField_congr (advance_rk _ _), treeField_congr (advance_tree _ _)]
      exact hout'
    · rw [advance_bacc, advance_bcnt, advance_rs, codeOf_congr (advance_cw _ _)]
      refine hnext.bits.trans ?_
      rw [List.take_of_length_le (by rw [hs.rs_length, hlast])]
      rfl
  · refine recordInv_of_pcw (hop'.trans hop) (by simpa using hnext.held) (earlier := earlier)
      (packed := packed ++ p.bytes) ?_ ?_
    · rw [advance_out, rankField_congr (advance_rk _ _), treeField_congr (advance_tree _ _)]
      exact hout'
    · rw [hpos', if_neg (Nat.succ_ne_zero _), advance_bacc, advance_bcnt, advance_rs, codeOf_congr (advance_cw _ _)]
      exact hnext.bits

end

theorem Performs.recordInv {s t : State} (h : Performs s s.op t) (hs : ShapeInv s) (hh : HuffmanInv s)
    (hr : RecordInv s) : RecordInv t := by
  generalize hop : s.op = i at h
  have hop' := h.op_cases hop
  have hacc : (i ≠ .pcw ∧ i ≠ .fls) → t.bacc.toNat < 2 ^ t.bcnt.toNat := fun hi => by
    have hacc := hr.accumulator
    cases h with
    | packed | flushed => simp at hi
    | _ => simpa [mergeHuffman] using hacc
  cases i with
  | lds | qdf | tcn | rnk | rmp | hsd =>
    refine recordInv_of_early (hacc (by decide)) ?_
    rcases hop' with hop' | hop' | hop' <;> rw [hop'] <;> decide
  | hmg =>
    cases h
    rcases advance_point_cases rfl with ⟨-, hop', hpos'⟩ | ⟨-, hop', -⟩
    · refine recordInv_of_erk (hacc (by decide)) hop' ⟨s.out, ?_⟩
      rw [hpos', advance_out]
      exact (List.append_nil _).symm
    · refine recordInv_of_early (hacc (by decide)) ?_
      rw [hop', mergeHuffman, hop]
      decide
  | erk => exact h.recordInv_erk hs hr hop
  | etn => exact h.recordInv_etn hs hr hop
  | pcw => exact h.recordInv_pcw hs hr hh hop
  | fls =>
    cases h
    exact recordInv_of_early (Nat.zero_lt_one) ⟨by simp, by simp, by simp, by simp⟩
  | flt => cases h

/-! ### The statements -/

/-- Settles O49: one word, byte or codeword more stands in OUT and the accumulator. -/
theorem stepKeepsTheRecord : Obligations.StepKeepsTheRecord := by
  intro s t hs hh hr h
  rcases waits_or_performs h with ⟨-, rfl⟩ | ⟨-, hp⟩
  · exact hr
  · exact hp.recordInv hs hh hr

/-- Settles O36: PCW's codeword goes behind the accumulator's bits, of which the eight oldest may go out. -/
theorem pcwKeepsTheBitString : Obligations.PcwKeepsTheBitString := by
  intro s k hk hpos hacc hlen hbits hsink
  have hp := packCell_of_cell hk
  rw [if_neg hpos.ne', if_neg hpos.ne'] at hp
  have hnormal : s.cw[k].Normal := ⟨hlen, hbits⟩
  obtain ⟨hkept, hheld⟩ := packCodeword_keeps_bits hacc hnormal
  have hroom : sinkAccepts (packCodeword s.bacc s.bcnt s.cw[k]).bytes.length s = true := by
    rcases le_or_gt 8 (s.bcnt.toNat + s.cw[k].len.toNat) with h | h
    · rw [(packCodeword_of_le rfl rfl hacc hnormal h).1]
      exact hsink h
    · rw [(packCodeword_of_lt rfl rfl hacc hnormal h).1]
      exact sinkAccepts_zero s
  refine ⟨_, _, exec_pcw_of_packCell hp hroom, advance_out _ _, packCodeword_bytes_length _ _ _, ?_, ?_⟩
  · rw [advance_bacc, advance_bcnt]
    exact hkept
  · rw [advance_bacc, advance_bcnt]
    exact hheld

/-- Settles O45: at reset OP is LDS, so only the clauses on the buffers' shape say something. -/
theorem resetMeetsTheInvariants : Obligations.ResetMeetsTheInvariants := by
  refine ⟨fun c hcfg => ⟨shapeInv_resetWith hcfg, markovInv_of_early (.inl rfl), ?_, ?_⟩,
    shapeInv_resetWith (by decide +kernel)⟩
  · refine huffmanInv_of_early (fun m => ?_) (by simp [State.resetWith]) (by simp [State.resetWith]; decide)
    simp [State.resetWith, Codeword.Normal]
  · exact recordInv_of_early Nat.zero_lt_one ⟨by simp [State.resetWith], by simp [State.resetWith],
      by simp [State.resetWith], by simp [State.resetWith]⟩

end Sys2Proof.Machine
end

section
/-! PROOF. Runs that wait, that fault, and that go on over several frames (spec/44_sequencer_io.md R203, R205,
spec/60_exceptions.md R222, R226). -/

namespace Sys2Proof.Machine

/-! ### A run that waits -/

theorem run_of_step_self {s : State} (h : step s = .next s) (k : Nat) : core.run k s = .next s := by
  induction k with
  | zero => rfl
  | succ k ih => rw [run_succ k h, ih]

/-- S0 of a block that has loaded a part of a frame (10_state.md R41). -/
theorem statusS0_of_loading {s : State} (hop : s.op = .lds) (hpos : 0 < s.pos) (hfault : s.fault = false)
    (hcause : s.cause = .none) : statusS0 s = 0x10#32 := by
  have hbusy : busy s = true := (busy_iff s).2 ⟨hfault, by simp [hpos.ne']⟩
  simp only [statusS0, hbusy, hop, hfault, hcause]
  decide

/-- Settles O15: LDS with IN empty leaves the state, so any number of steps does. -/
theorem ldsWaitsForABeat : Obligations.LdsWaitsForABeat := by
  intro s hop hinq hfault
  have hstep : step s = .next s := (step_of_op hop hfault).trans (exec_lds_of_empty hinq)
  exact ⟨run_of_step_self hstep, by simp [pinInReady, hop, hfault],
    fun hcause hpos => statusS0_of_loading hop hpos hfault hcause⟩

/-- Settles O38: FLT is not enabled; after the reset event OP is LDS and only IN tells. -/
theorem fltIsLeftOnlyByReset : Obligations.FltIsLeftOnlyByReset := by
  intro s hop
  have hwait : enabled s = false := (enabled_eq_false_iff s).2 (.inr (.inl hop))
  have hoffered : offeredBytes (assertReset s) = [] := offeredBytes_of_lds rfl
  refine ⟨rfl, hwait, by simp [pinInReady, hop], run_of_step_self (notEnabledStepChangesNothing s hwait), ?_⟩
  simp [enabled, hoffered]

/-! ### A run that ends in a fault -/

/-- The loop of one operation up to an index, for a run that does not reach its end. -/
theorem run_loop_until {α : Type} {c : Config} {i : Instr} (body : α → State) {P : Nat → α → Prop} {n : Nat}
    (hcfg : ∀ a, (body a).cfg = c) (hfault : ∀ a, (body a).fault = false) (hn : n ≤ i.lastIndex c)
    (hstep : ∀ m a, m < n → P m a →
      ∃ b, exec i ((body a).atPoint i m) = .next (advance i ((body b).atPoint i m)) ∧ P (m + 1) b)
    {a : α} (ha : P 0 a) :
    ∃ b, core.run n ((body a).atPoint i 0) = .next ((body b).atPoint i n) ∧ P n b := by
  induction n with
  | zero => exact ⟨a, rfl, ha⟩
  | succ n ih =>
    obtain ⟨b, hrun, hb⟩ := ih (Nat.le_of_succ_le hn) fun m a hm => hstep m a (hm.trans n.lt_succ_self)
    obtain ⟨d, hexec, hd⟩ := hstep n b n.lt_succ_self hb
    rw [advance_atPoint_of_lt (by rw [hcfg]; exact hn), ← step_atPoint (hfault b)] at hexec
    exact ⟨d, run_trans hrun (run_succ 0 hexec), hd⟩

/-- Settles O40: the loads before the wrong beat, and the fault at it. -/
theorem malformedFrameFaultsAtTheBeat : Obligations.MalformedFrameFaultsAtTheBeat := by
  intro s good w rest hs hidle hinq hshort hgood hwrong
  obtain ⟨-, -, hfault⟩ := (idle_iff s).1 hidle
  have hloop := run_loop_until (c := s.cfg) (i := .lds) (n := good.length)
    (fun a : List BeatWord × Grid => { s with inq := a.1, g := a.2 })
    (P := fun n a => a.1 = good.drop n ++ w :: rest ∧ a.2.fits s.cfg = true)
    (fun _ => rfl) (fun _ => hfault) (Nat.le_pred_of_lt hshort) ?step (a := (s.inq, s.g)) ⟨hinq, hs.fits⟩
  case step =>
    rintro n ⟨beats, g⟩ hn ⟨hbeats, hfits⟩
    dsimp only at hbeats hfits
    obtain ⟨g', hload⟩ := exists_gridLoad (decodeBeat good[n]).data hfits (hn.trans hshort)
    rw [List.drop_eq_getElem_cons hn, List.cons_append] at hbeats
    exact ⟨(_, g'), exec_lds_of_flagsRight (s := State.atPoint { s with inq := beats, g := g } .lds n) hbeats
      (hgood n hn) hload, rfl, gridLoad_fits hload hfits⟩
  obtain ⟨⟨beats, g⟩, hrun, hbeats, -⟩ := hloop
  dsimp only at hbeats
  rw [List.drop_length, List.nil_append] at hbeats
  have hexec := exec_lds_of_not_flagsRight
    (s := State.atPoint { s with inq := beats, g := g } .lds good.length) hbeats hwrong
  rw [atPoint_of_idle (s := { s with inq := s.inq, g := s.g }) hidle] at hrun
  rw [← step_atPoint (s := { s with inq := beats, g := g }) hfault] at hexec
  exact ⟨_, run_trans hrun (run_succ 0 hexec), rfl, rfl, rfl, rfl, rfl, rfl, rfl, rfl⟩

theorem quantizeFrom_succ_eq_error {c : Config} {k m n : Nat} {g : Grid} {e : GridStop} :
    quantizeFrom c (k + 1) m g = .error (e, n) ↔ (gridQuantize c m g = .error e ∧ n = m) ∨
      ∃ level g', gridQuantize c m g = .ok (level, g') ∧ quantizeFrom c k (m + 1) g' = .error (e, n) := by
  rw [quantizeFrom]
  rcases gridQuantize c m g with e' | ⟨level, g'⟩
  · simp [eq_comm]
  · cases hlater : quantizeFrom c k (m + 1) g' <;> simp [hlater, Except.map]

/-- DISPERSE stops at one of the cells it goes through. -/
theorem quantizeFrom_error_bounds {c : Config} {n : Nat} {e : GridStop} (k : Nat) :
    ∀ {m : Nat} {g : Grid}, quantizeFrom c k m g = .error (e, n) → m ≤ n ∧ n < m + k := by
  induction k with
  | zero => intro m g h; cases h
  | succ k ih =>
    intro m g h
    rcases quantizeFrom_succ_eq_error.1 h with ⟨-, rfl⟩ | ⟨level, g', -, hlater⟩
    · omega
    · have := ih hlater
      omega

/-- Settles O41: all loads, the levels before the cell that overflows, and the fault at it. -/
theorem overflowingFrameFaultsAtTheCell : Obligations.OverflowingFrameFaultsAtTheCell := by
  intro s frame rest n hs hidle hframe hinq hover
  obtain ⟨-, -, hfault⟩ := (idle_iff s).1 hidle
  obtain ⟨-, hn⟩ := quantizeFrom_error_bounds _ hover
  rw [Nat.zero_add] at hn
  have hload := run_lds hfault hs.npix_pos hs.fits hframe hinq
  have hloop := run_loop_until (c := s.cfg) (i := .qdf) (n := n)
    (fun a : Grid × List Sym => { s with inq := rest, g := a.1, q := a.2 })
    (P := fun m a => a.2.length = s.cfg.npix ∧
      quantizeFrom s.cfg (s.cfg.npix - m) m a.1 = .error (.overflow, n))
    (fun _ => rfl) (fun _ => hfault) (Nat.le_pred_of_lt hn) ?step (a := (loadedGrid s.cfg frame, s.q))
    ⟨hs.q_length, hover⟩
  case step =>
    rintro m ⟨g, q⟩ hm ⟨hlen, hlater⟩
    dsimp only at hlen hlater
    have hcell : m < q.length := by omega
    rw [show s.cfg.npix - m = s.cfg.npix - (m + 1) + 1 by omega, quantizeFrom_succ_eq_error] at hlater
    obtain ⟨level, g', hlevel, hlater⟩ := hlater.resolve_left fun h => hm.ne h.2.symm
    exact ⟨(g', _), exec_qdf_of_level (s := State.atPoint { s with inq := rest, g := g, q := q } .qdf m) hlevel hcell,
      (List.length_set ..).trans hlen, hlater⟩
  obtain ⟨⟨g, q⟩, hrun, -, hstop⟩ := hloop
  dsimp only at hstop
  rw [show s.cfg.npix - n = s.cfg.npix - (n + 1) + 1 by omega, quantizeFrom_succ_eq_error] at hstop
  obtain ⟨hcell, -⟩ := hstop.resolve_right fun ⟨_, _, _, hlater⟩ =>
    absurd (quantizeFrom_error_bounds _ hlater).1 (Nat.not_succ_le_self n)
  have hexec : exec .qdf _ = _ :=
    execQdf_of_overflow (s := State.atPoint { s with inq := rest, g := g, q := q } .qdf n) hcell
  rw [← step_atPoint (s := { s with inq := rest, g := g, q := q }) hfault] at hexec
  rw [atPoint_of_idle hidle] at hload
  exact ⟨_, run_trans (run_trans hload hrun) (run_succ 0 hexec), rfl, rfl, rfl, rfl, rfl, rfl, rfl, rfl⟩

/-! ### Several frames -/

/-- Settles O51, by induction on the frames: each leaves the block idle and of the right shape for the next one. -/
theorem runConcatenatesRecords : Obligations.RunConcatenatesRecords := by
  intro s frames
  induction frames generalizing s with
  | nil =>
    intro records rest _ hidle _ _ hinq hrecords
    obtain rfl : records = [] := List.map_eq_nil_iff.1 hrecords.symm
    refine ⟨s, ?_, hidle, (List.append_nil _).symm, hinq, (BitVec.add_zero _).symm⟩
    rw [List.length_nil, Nat.zero_mul]
    rfl
  | cons frame frames ih =>
    intro records rest hs hidle hsink hframes hinq hrecords
    obtain ⟨hframe, hframes⟩ := List.forall_mem_cons.1 hframes
    obtain ⟨record, records, rfl, hrecord, hrecords⟩ := List.map_eq_cons_iff.1 hrecords.symm
    rw [List.flatMap_cons, List.append_assoc] at hinq
    obtain ⟨t, hrun, ht, htidle, htout, htinq, htframe, htsink, htcfg⟩ :=
      frameEncodesToItsRecord s frame _ record hs hidle hsink hframe hinq hrecord.symm
    rw [← htcfg] at hframes htinq hrecords
    obtain ⟨u, hrun', huidle, huout, huinq, huframe⟩ :=
      ih t records rest ht htidle htsink hframes htinq hrecords.symm
    rw [htcfg] at hrun'
    refine ⟨u, ?_, huidle, ?_, huinq, ?_⟩
    · rw [List.length_cons, Nat.succ_mul, Nat.add_comm]
      exact run_trans hrun hrun'
    · rw [huout, htout, List.flatten_cons, List.append_assoc]
    · rw [huframe, htframe, List.length_cons, Nat.add_comm, BitVec.ofNat_add, BitVec.add_assoc]
      rfl

end Sys2Proof.Machine
end

section
/-! PROOF. What earlier frames left behind does not show (spec/10_state.md R47). Two states are alike if the operation
that OP names and the later ones of the frame read the same there before they write it; a step keeps them alike. -/

namespace Sys2Proof.Machine

/-! ### Alike states -/

/-- The registers and the parameters are the same, but for those that only the buffers' contents rest on; since `s₀` and
`u₀` the same bytes were emitted and as many frames counted. -/
structure SameControl (s₀ u₀ s u : State) : Prop where
  cfg : u.cfg = s.cfg
  op : u.op = s.op
  pos : u.pos = s.pos
  fault : u.fault = s.fault
  cause : u.cause = s.cause
  info : u.faultInfo = s.faultInfo
  inq : u.inq = s.inq
  out : ∃ bytes, s.out = s₀.out ++ bytes ∧ u.out = u₀.out ++ bytes
  frames : s.frameIdx - s₀.frameIdx = u.frameIdx - u₀.frameIdx

/-- What the rest of the frame reads before it is written, by the operation that OP names, is the same. T, RK, RS and
HIST are MARKOV of Q, and HLEN and NNODE are POS, so they are not told. -/
abbrev SameWork (s u : State) : Instr → Prop
  | .lds => u.g.take s.pos = s.g.take s.pos
  | .qdf => u.g = s.g ∧ u.q.take s.pos = s.q.take s.pos
  | .tcn | .rnk | .rmp | .hsd => u.q = s.q
  | .hmg => u.q = s.q ∧ validList u = validList s ∧ u.cw = s.cw ∧
      u.tree.toList.take s.pos = s.tree.toList.take s.pos
  | .erk | .etn => u.q = s.q ∧ u.cw = s.cw ∧ u.tree = s.tree
  | .pcw => u.q = s.q ∧ u.cw = s.cw ∧ (0 < s.pos → u.bacc = s.bacc ∧ u.bcnt = s.bcnt)
  | .fls => u.bacc = s.bacc ∧ u.bcnt = s.bcnt
  | .flt => True

structure Alike (s₀ u₀ s u : State) : Prop where
  control : SameControl s₀ u₀ s u
  work : SameWork s u s.op

/-- What a run from an idle state of the right shape keeps, with a sink that always accepts. -/
structure Sound (s : State) : Prop where
  shape : ShapeInv s
  markov : MarkovInv s
  sink : s.sinkRoom = none

section
variable {s₀ u₀ s u : State}

theorem SameControl.advance (h : SameControl s₀ u₀ s u) (i : Instr) :
    SameControl s₀ u₀ (advance i s) (advance i u) := by
  refine ⟨?_, ?_, ?_, ?_, ?_, ?_, ?_, ?_, ?_⟩
  · simpa using h.cfg
  · rw [advance_op, advance_op, h.op, h.pos, h.cfg]
  · rw [advance_pos, advance_pos, h.pos, h.cfg]
  · simpa using h.fault
  · simpa using h.cause
  · simpa using h.info
  · simpa using h.inq
  · simpa using h.out
  · simpa using h.frames

theorem SameControl.raiseFault (h : SameControl s₀ u₀ s u) (cause : Cause) :
    SameControl s₀ u₀ (raiseFault cause s.pos s) (raiseFault cause u.pos u) :=
  ⟨h.cfg, rfl, h.pos, rfl, rfl, congrArg (BitVec.ofNat 32) h.pos, h.inq, h.out, h.frames⟩

theorem SameControl.emit (h : SameControl s₀ u₀ s u) (bytes : List Byte) :
    SameControl s₀ u₀ (emit bytes s) (emit bytes u) := by
  obtain ⟨earlier, hs, hu⟩ := h.out
  exact { h with out := ⟨earlier ++ bytes, by rw [emit_out, hs, List.append_assoc],
    by rw [emit_out, hu, List.append_assoc]⟩ }

theorem alike_advance {i : Instr} (h : SameControl s₀ u₀ s u) (hop : s.op = i)
    (hlast : s.pos = i.lastIndex s.cfg →
      SameWork (s.atPoint i.successor 0) (u.atPoint i.successor 0) i.successor)
    (hmore : SameWork (s.atPoint i (s.pos + 1)) (u.atPoint i (s.pos + 1)) i) :
    Alike s₀ u₀ (advance i s) (advance i u) := by
  refine ⟨h.advance i, ?_⟩
  rcases advance_cases i s with ⟨hpos, he⟩ | ⟨hpos, he⟩
  · have he' : advance i u = u.atPoint i.successor 0 := if_pos (by rw [h.pos, h.cfg, hpos])
    rw [he, he']
    exact hlast hpos
  · have he' : advance i u = u.atPoint i (s.pos + 1) := by
      rw [← hop, ← h.op, ← h.pos]
      exact if_neg (by rw [h.op, hop, h.pos, h.cfg]; exact hpos)
    have he : advance i s = s.atPoint i (s.pos + 1) := by rw [he, ← hop]; rfl
    rw [he, he']
    exact hmore

/-! ### The buffers that are not told -/

/-- MARKOV of the same levels is the same. -/
theorem Sound.same_markov (hs : Sound s) (hu : Sound u) (h : SameControl s₀ u₀ s u) (hq : u.q = s.q)
    (hop : Instr.atOrAfter .hsd s.op = true) : u.rk = s.rk ∧ u.rs = s.rs ∧ u.hist = s.hist := by
  have hds := hs.markov.done hop
  have hdu := hu.markov.done (h.op ▸ hop)
  have ht : u.t = s.t := by rw [hdu.counted, hds.counted, hq]
  have hrk : u.rk = s.rk := by rw [hdu.ranked, hds.ranked, ht, h.cfg]
  have hrs : u.rs = s.rs := by rw [hdu.remapped, hds.remapped, hrk, hq]
  exact ⟨hrk, hrs, by rw [hdu.histogram, hds.histogram, hrs]⟩

end

/-- The seeds rest on HIST only: the seven positions are all of them (42_huffman_coder.md R161). -/
theorem seedList_congr (hist : Vector Nat 7) (hl hl' : Vector HEntry 7) : seedList hist hl = seedList hist hl' := by
  have hslot (p : Sym) : (seedList hist hl)[p] = (seedList hist hl')[p] := by
    obtain ⟨i, rfl⟩ := Finite.surjective_of_injective (seedPosition_injective hist) p
    rw [seedList_getElem, seedList_getElem]
  exact Vector.ext fun p hp => hslot ⟨p, hp⟩

/-- Grids that are the same so far are the same with one more sample. -/
theorem Grid.take_succ_of_gridLoad {c : Config} {n : Nat} {v : Byte} {g₁ g₂ g₁' g₂' : Grid} (h₁ : g₁.fits c = true)
    (h₂ : g₂.fits c = true) (hn : n < c.npix) (hload₁ : gridLoad c n v g₁ = .ok g₁')
    (hload₂ : gridLoad c n v g₂ = .ok g₂') (h : g₁.take n = g₂.take n) : g₁'.take (n + 1) = g₂'.take (n + 1) := by
  rcases Grid.fits_cases h₁ with ⟨cells, hnum, rfl, hlen⟩ | ⟨fracK, accBits, cells, hnum, rfl, hlen⟩ <;>
    rcases Grid.fits_cases h₂ with ⟨cells', hnum', rfl, hlen'⟩ | ⟨fracK', accBits', cells', hnum', rfl, hlen'⟩
  · cases (gridLoad_exact hnum (hlen ▸ hn)).symm.trans hload₁
    cases (gridLoad_exact hnum (hlen' ▸ hn)).symm.trans hload₂
    simp only [Grid.take, Grid.exact.injEq] at h ⊢
    rw [take_set_concat (hlen ▸ hn), take_set_concat (hlen' ▸ hn), h]
  · cases hnum.symm.trans hnum'
  · cases hnum.symm.trans hnum'
  · cases (gridLoad_fx hnum (hlen ▸ hn)).symm.trans hload₁
    cases (gridLoad_fx hnum (hlen' ▸ hn)).symm.trans hload₂
    simp only [Grid.take, Grid.fx.injEq] at h ⊢
    rw [take_set_concat (hlen ▸ hn), take_set_concat (hlen' ▸ hn), h]

/-! ### Each operation keeps two states alike -/

/-- `u` does what `s` does, and the two are alike again. -/
def Follows (s₀ u₀ u : State) (i : Instr) (t : State) : Prop := ∃ v, Performs u i v ∧ Alike s₀ u₀ t v

section
variable {s₀ u₀ s u t : State} (hs : Sound s) (hu : Sound u) (h : SameControl s₀ u₀ s u)
include hs hu h

theorem follows_lds (hop : s.op = .lds) (hwork : SameWork s u .lds) (hp : Performs s .lds t) :
    Follows s₀ u₀ u .lds t := by
  have hpos : s.pos < s.cfg.npix := hs.shape.pos_lt hop (by simp)
  have hfits : u.g.fits s.cfg = true := h.cfg ▸ hu.shape.fits
  cases hp with
  | @malformed w rest hinq hflags =>
    rw [← h.cfg, ← h.pos] at hflags
    refine ⟨_, .malformed (h.inq.trans hinq) hflags, ?_, trivial⟩
    exact SameControl.raiseFault (s := { s with inq := rest }) (u := { u with inq := rest }) { h with inq := rfl } _
  | @loaded w rest g hinq hflags hload =>
    obtain ⟨g', hload'⟩ := exists_gridLoad (decodeBeat w).data hfits hpos
    have hnext := Grid.take_succ_of_gridLoad hfits hs.shape.fits hpos hload' hload hwork
    refine ⟨_, .loaded (h.inq.trans hinq) (by rwa [h.cfg, h.pos]) (by rwa [h.cfg, h.pos]), alike_advance
      { h with inq := rfl } hop (fun hlast => ⟨?_, rfl⟩) hnext⟩
    have hlast : s.pos + 1 = s.cfg.npix := by
      change s.pos = s.cfg.npix - 1 at hlast
      omega
    rwa [hlast, Grid.take_npix (gridLoad_fits hload' hfits), Grid.take_npix (gridLoad_fits hload hs.shape.fits)]
      at hnext

theorem follows_qdf (hop : s.op = .qdf) (hwork : SameWork s u .qdf) (hp : Performs s .qdf t) :
    Follows s₀ u₀ u .qdf t := by
  obtain ⟨hg, hq⟩ := hwork
  have hpos : s.pos < s.cfg.npix := hs.shape.pos_lt hop (by simp)
  have hulen : u.q.length = s.cfg.npix := h.cfg ▸ hu.shape.q_length
  cases hp with
  | overflowed hover =>
    exact ⟨_, .overflowed (by rwa [h.cfg, h.pos, hg]), h.raiseFault _, trivial⟩
  | @quantized level g hlevel hcell =>
    have hnext : (u.q.set u.pos level).take (s.pos + 1) = (s.q.set s.pos level).take (s.pos + 1) := by
      rw [h.pos, take_set_concat hcell, take_set_concat (hulen ▸ hpos), hq]
    refine ⟨_, .quantized (by rwa [h.cfg, h.pos, hg]) (by rw [h.pos]; exact hulen ▸ hpos),
      alike_advance { h with } hop (fun hlast => ?_) ⟨rfl, hnext⟩⟩
    have hlast : s.pos + 1 = s.cfg.npix := by
      change s.pos = s.cfg.npix - 1 at hlast
      omega
    rwa [hlast, List.take_of_length_le (by simp [hulen]), List.take_of_length_le (by simp [hs.shape.q_length])] at hnext

omit hs hu in
theorem follows_tcn (hop : s.op = .tcn) (hwork : SameWork s u .tcn) (hp : Performs s .tcn t) :
    Follows s₀ u₀ u .tcn t := by
  have hq : u.q = s.q := hwork
  cases hp with
  | counted hx => exact ⟨_, .counted (by rwa [hq, h.pos]), alike_advance { h with } hop (fun _ => hq) hq⟩

omit hs hu in
theorem follows_rnk (hop : s.op = .rnk) (hwork : SameWork s u .rnk) (hp : Performs s .rnk t) :
    Follows s₀ u₀ u .rnk t := by
  have hq : u.q = s.q := hwork
  cases hp with
  | ranked hpos => exact ⟨_, .ranked (h.pos ▸ hpos), alike_advance { h with } hop (fun _ => hq) hq⟩

theorem follows_rmp (hop : s.op = .rmp) (hwork : SameWork s u .rmp) (hp : Performs s .rmp t) :
    Follows s₀ u₀ u .rmp t := by
  have hq : u.q = s.q := hwork
  have hslot : u.pos < u.rs.length := by
    rw [hu.shape.rs_length, h.pos, h.cfg]
    exact hs.shape.pos_lt hop (by simp)
  cases hp with
  | remapped hx =>
    exact ⟨_, .remapped (by rwa [hq, h.pos]) hslot rfl rfl, alike_advance { h with } hop (fun _ => hq) hq⟩

theorem follows_hsd (hop : s.op = .hsd) (hwork : SameWork s u .hsd) (hp : Performs s .hsd t) :
    Follows s₀ u₀ u .hsd t := by
  have hq : u.q = s.q := hwork
  obtain ⟨-, -, hhist⟩ := hs.same_markov hu h hq (by rw [hop]; rfl)
  have hlist : validList (seedHuffman u) = validList (seedHuffman s) := by
    rw [validList, validList, seedHuffman_hl, seedHuffman_hl, hhist, seedList_congr s.hist u.hl s.hl]
    rfl
  cases hp
  exact ⟨_, .seeded, { h with op := rfl, pos := rfl }, hq, hlist, rfl, rfl⟩

theorem follows_hmg (hop : s.op = .hmg) (hwork : SameWork s u .hmg) (hp : Performs s .hmg t) :
    Follows s₀ u₀ u .hmg t := by
  obtain ⟨hq, hvalid, hcw, htree⟩ := hwork
  have hpos : s.pos < 6 := hs.shape.pos_lt hop (by simp)
  obtain ⟨-, hsnode⟩ := hs.shape.merges hop
  obtain ⟨-, hunode⟩ := hu.shape.merges (h.op.trans hop)
  have hnn : u.nnode = s.nnode := BitVec.eq_of_toNat_eq (by rw [hunode, hsnode, h.pos])
  cases hp with
  | @merged rest left right hlist hlow hnode =>
    have hulist := hvalid.trans hlist
    have hunode : u.nnode.toNat - 7 < 6 := hnn ▸ hnode
    have hvalid' : validList (mergeHuffman u left right hunode) = validList (mergeHuffman s left right hnode) := by
      rw [validList_mergeHuffman hulist, validList_mergeHuffman hlist, hnn]
    have hcw' : (mergeHuffman u left right hunode).cw = (mergeHuffman s left right hnode).cw := by
      rw [mergeHuffman, mergeHuffman, hcw]
    have htree' : (mergeHuffman u left right hunode).tree.toList.take (s.pos + 1) =
        (mergeHuffman s left right hnode).tree.toList.take (s.pos + 1) := by
      have hslot : s.nnode.toNat - 7 = s.pos := by omega
      simp only [mergeHuffman, Vector.toList_set, hnn, hslot]
      rw [take_set_concat (by simp [hpos]), take_set_concat (by simp [hpos]), htree]
    refine ⟨_, .merged hulist (hnn ▸ hlow) hunode, alike_advance { h with } hop (fun hlast => ⟨hq, hcw', ?_⟩)
      ⟨hq, hvalid', hcw', htree'⟩⟩
    have hlast : s.pos = 5 := hlast
    rw [hlast, List.take_of_length_le (by simp), List.take_of_length_le (by simp)] at htree'
    exact Vector.toList_inj.1 htree'

theorem follows_erk (hop : s.op = .erk) (hwork : SameWork s u .erk) (hp : Performs s .erk t) :
    Follows s₀ u₀ u .erk t := by
  obtain ⟨hq, hcw, htree⟩ := hwork
  obtain ⟨hrk, -, -⟩ := hs.same_markov hu h hq (by rw [hop]; rfl)
  cases hp with
  | @rankWord bytes hbytes =>
    have hubytes : rankBytes u = .ok bytes := by
      rw [← hbytes]
      simp only [rankBytes, h.pos, hrk]
    exact ⟨_, .rankWord hubytes (sinkAccepts_of_none _ hu.sink), alike_advance (h.emit bytes) hop
      (fun _ => ⟨hq, hcw, htree⟩) ⟨hq, hcw, htree⟩⟩

omit hs in
theorem follows_etn (hop : s.op = .etn) (hwork : SameWork s u .etn) (hp : Performs s .etn t) :
    Follows s₀ u₀ u .etn t := by
  obtain ⟨hq, hcw, htree⟩ := hwork
  cases hp with
  | @treeByte bytes hbytes =>
    have hubytes : nodeBytes u = .ok bytes := by
      rw [← hbytes]
      simp only [nodeBytes, h.pos, htree]
    exact ⟨_, .treeByte hubytes (sinkAccepts_of_none _ hu.sink), alike_advance (h.emit bytes) hop
      (fun _ => ⟨hq, hcw, fun hpos => absurd hpos (Nat.lt_irrefl 0)⟩) ⟨hq, hcw, htree⟩⟩

theorem follows_pcw (hop : s.op = .pcw) (hwork : SameWork s u .pcw) (hp : Performs s .pcw t) :
    Follows s₀ u₀ u .pcw t := by
  obtain ⟨hq, hcw, hacc⟩ := hwork
  obtain ⟨-, hrs, -⟩ := hs.same_markov hu h hq (by rw [hop]; rfl)
  cases hp with
  | @packed p hp =>
    have hup : packCell u = .ok p := by
      rw [← hp]
      rcases Nat.eq_zero_or_pos s.pos with hzero | hpos
      · simp only [packCell, h.pos, hrs, hcw, hzero, if_true]
      · obtain ⟨hbacc, hbcnt⟩ := hacc hpos
        simp only [packCell, h.pos, hrs, hcw, hbacc, hbcnt]
    exact ⟨_, .packed hup (sinkAccepts_of_none _ hu.sink), alike_advance
      (s := { emit p.bytes s with bacc := p.bacc, bcnt := p.bcnt }) { h.emit p.bytes with } hop
      (fun _ => ⟨rfl, rfl⟩) ⟨hq, hcw, fun _ => ⟨rfl, rfl⟩⟩⟩

theorem follows_fls (hwork : SameWork s u .fls) (hp : Performs s .fls t) :
    Follows s₀ u₀ u .fls t := by
  obtain ⟨hbacc, hbcnt⟩ := hwork
  cases hp
  refine ⟨_, .flushed (sinkAccepts_of_none _ hu.sink), ?_, Grid.take_zero_eq hu.shape.fits (h.cfg ▸ hs.shape.fits)⟩
  rw [hbacc, hbcnt]
  refine { h.emit (flushBytes s.bacc s.bcnt) with op := rfl, pos := rfl, frames := ?_ }
  have hframes := h.frames
  change s.frameIdx + 1 - s₀.frameIdx = u.frameIdx + 1 - u₀.frameIdx
  bv_omega

end

/-! ### The statement -/

section
variable {s t : State}

theorem Performs.sinkRoom_none {i : Instr} (h : Performs s i t) (hsink : s.sinkRoom = none) : t.sinkRoom = none := by
  cases h <;> simp [mergeHuffman, hsink]

theorem Sound.step (hs : Sound s) (h : step s = .next t) : Sound t := by
  obtain ⟨⟨t', h', ht⟩, -⟩ := stepKeepsTheShape s hs.shape
  obtain rfl := Host.Outcome.next.inj (h.symm.trans h')
  refine ⟨ht, stepKeepsMarkov s t hs.shape hs.markov h, ?_⟩
  rcases waits_or_performs h with ⟨-, rfl⟩ | ⟨-, hp⟩
  · exact hs.sink
  · exact hp.sinkRoom_none hs.sink

variable {s₀ u₀ u v : State}

/-- One step keeps two states alike. -/
theorem Alike.step (h : Alike s₀ u₀ s u) (hs : Sound s) (hu : Sound u) (hst : step s = .next t)
    (huv : step u = .next v) : Alike s₀ u₀ t v := by
  obtain ⟨hc, hw⟩ := h
  rcases waits_or_performs hst with ⟨hwait, rfl⟩ | ⟨hfault, hp⟩
  · have huwait : enabled u = false := by
      rw [enabled_eq_false_iff, sinkAccepts_of_none _ hs.sink] at hwait
      rw [enabled_eq_false_iff, hc.fault, hc.op, hc.inq, sinkAccepts_of_none _ hu.sink]
      exact hwait
    obtain rfl := Host.Outcome.next.inj (huv.symm.trans (notEnabledStepChangesNothing u huwait))
    exact ⟨hc, hw⟩
  · suffices hfollows : Follows s₀ u₀ u s.op t by
      obtain ⟨v', hp', halike⟩ := hfollows
      have huv' := step_of_performs (hc.fault.trans hfault) (hc.op ▸ hp')
      obtain rfl := Host.Outcome.next.inj (huv.symm.trans huv')
      exact halike
    cases hop : s.op <;> rw [hop] at hp hw
    case lds => exact follows_lds hs hu hc hop hw hp
    case qdf => exact follows_qdf hs hu hc hop hw hp
    case tcn => exact follows_tcn hc hop hw hp
    case rnk => exact follows_rnk hc hop hw hp
    case rmp => exact follows_rmp hs hu hc hop hw hp
    case hsd => exact follows_hsd hs hu hc hop hw hp
    case hmg => exact follows_hmg hs hu hc hop hw hp
    case erk => exact follows_erk hs hu hc hop hw hp
    case etn => exact follows_etn hu hc hop hw hp
    case pcw => exact follows_pcw hs hu hc hop hw hp
    case fls => exact follows_fls hs hu hc hw hp
    case flt => cases hp

theorem Alike.run (k : Nat) : ∀ {s u : State}, Alike s₀ u₀ s u → Sound s → Sound u → core.run k s = .next t →
    core.run k u = .next v → Alike s₀ u₀ t v := by
  induction k with
  | zero =>
    intro s u h _ _ hst huv
    cases hst
    cases huv
    exact h
  | succ k ih =>
    intro s u h hs hu hst huv
    obtain ⟨⟨s', hs', -⟩, -⟩ := stepKeepsTheShape s hs.shape
    obtain ⟨⟨u', hu', -⟩, -⟩ := stepKeepsTheShape u hu.shape
    rw [run_succ k hs'] at hst
    rw [run_succ k hu'] at huv
    exact ih (h.step hs hu hs' hu') (hs.step hs') (hu.step hu') hst huv

/-- An idle state of the right shape has done nothing of a frame. -/
theorem sound_of_idle (hs : ShapeInv s) (hidle : idle s = true) (hsink : s.sinkRoom = none) : Sound s :=
  ⟨hs, markovInv_of_early (.inl ((idle_iff s).1 hidle).1), hsink⟩

end

/-- Settles O52: two idle states are alike, and alike states stay so. -/
theorem framesAreIndependent : Obligations.FramesAreIndependent := by
  intro s u t v k hs hu hsidle huidle hcfg hinq hssink husink hst huv
  obtain ⟨hsop, hspos, hsfault⟩ := (idle_iff s).1 hsidle
  obtain ⟨huop, hupos, hufault⟩ := (idle_iff u).1 huidle
  have hfits : u.g.fits s.cfg = true := hcfg ▸ hu.fits
  have hstart : Alike s u s u := by
    refine ⟨⟨hcfg.symm, huop.trans hsop.symm, hupos.trans hspos.symm, hufault.trans hsfault.symm, ?_, ?_, hinq.symm,
      ⟨[], by simp, by simp⟩, by simp⟩, ?_⟩
    · rw [hs.causes.2 hsfault, hu.causes.2 hufault]
    · rw [hs.info, hu.info, hsfault, hufault]
      rfl
    · rw [hsop, SameWork, hspos]
      exact Grid.take_zero_eq hfits hs.fits
  obtain ⟨h, -⟩ := Alike.run k hstart (sound_of_idle hs hsidle hssink) (sound_of_idle hu huidle husink) hst huv
  exact ⟨h.op.symm, h.pos.symm, h.fault.symm, h.cause.symm, h.info.symm, h.inq.symm, h.frames, h.out⟩

end Sys2Proof.Machine
end

section
/-! PROOF. QDF diffuses the error (spec/40_disperser.md R125 to R129): the targets by row and column, and a diffusion of
which no addition overflows as one equation over the cells. -/

namespace Sys2Proof.Machine

/-! ### The targets by row and column (R126, R129) -/

theorem lt_of_mem_diffusionTargets {c : Config} {n : Nat} {t : Nat × Nat} (hw : 1 ≤ c.w)
    (ht : t ∈ diffusionTargets c n) : n < t.1 := by
  rcases mem_diffusionTargets.1 ht with ⟨-, rfl⟩ | ⟨-, rfl⟩ | ⟨⟨-, hc⟩, rfl⟩ | ⟨-, rfl⟩
  · exact Nat.lt_succ_self n
  · exact Nat.lt_add_of_pos_right hw
  · have hcol : colOf c n < c.w := colOf_lt n hw
    dsimp only
    omega
  · dsimp only
    omega

/-- A raster index is told by its row and column. -/
theorem row_col_of_raster {c : Config} {k : Nat} (row col : Nat) (hcol : col < c.w) (hk : k = c.w * row + col) :
    k / c.w = row ∧ k % c.w = col := by
  subst hk
  exact ⟨by rw [Nat.mul_add_div (by omega), Nat.div_eq_of_lt hcol, Nat.add_zero],
    by rw [Nat.mul_add_mod, Nat.mod_eq_of_lt hcol]⟩

/-- The weight in the list of targets is that of the picture. -/
theorem weightTo_of_mem_diffusionTargets {c : Config} {n : Nat} {t : Nat × Nat} (hw : 1 ≤ c.w)
    (ht : t ∈ diffusionTargets c n) : weightTo c n t.1 = t.2 := by
  have hraster : c.w * (n / c.w) + n % c.w = n := raster_rowOf_colOf c n
  have hnext : c.w * (n / c.w + 1) = c.w * (n / c.w) + c.w := Nat.mul_add_one _ _
  have hcol : n % c.w < c.w := colOf_lt n hw
  rcases mem_diffusionTargets.1 ht with ⟨hc, rfl⟩ | ⟨-, rfl⟩ | ⟨⟨-, hc⟩, rfl⟩ | ⟨⟨-, hc⟩, rfl⟩ <;>
    simp only [weightTo, colOf] at *
  · obtain ⟨hrow, hcol'⟩ := row_col_of_raster (k := n + 1) (n / c.w) (n % c.w + 1) hc (by omega)
    rw [hrow, hcol']
    split_ifs <;> omega
  · obtain ⟨hrow, hcol'⟩ := row_col_of_raster (k := n + c.w) (n / c.w + 1) (n % c.w) hcol (by omega)
    rw [hrow, hcol']
    split_ifs <;> omega
  · obtain ⟨hrow, hcol'⟩ := row_col_of_raster (c := c) (k := n + c.w - 1) (n / c.w + 1) (n % c.w - 1) (by omega)
      (by omega)
    rw [hrow, hcol']
    split_ifs <;> omega
  · obtain ⟨hrow, hcol'⟩ := row_col_of_raster (k := n + c.w + 1) (n / c.w + 1) (n % c.w + 1) hc (by omega)
    rw [hrow, hcol']
    split_ifs <;> omega

theorem weight_ne_zero_of_mem_diffusionTargets {c : Config} {n : Nat} {t : Nat × Nat}
    (ht : t ∈ diffusionTargets c n) : t.2 ≠ 0 := by
  rcases mem_diffusionTargets.1 ht with ⟨-, rfl⟩ | ⟨-, rfl⟩ | ⟨-, rfl⟩ | ⟨-, rfl⟩ <;> simp

/-- Settles O20: each neighbour's row and column give its weight, and back. -/
theorem diffusionTargetsAreTheUnvisitedNeighbours : Obligations.DiffusionTargetsAreTheUnvisitedNeighbours := by
  refine fun c n k weight hw hn => ⟨⟨fun h => ?_, ?_⟩, lt_of_mem_diffusionTargets hw⟩
  · exact ⟨diffusionTargets_lt_npix hw hn h, (weightTo_of_mem_diffusionTargets hw h).symm,
      weight_ne_zero_of_mem_diffusionTargets h⟩
  · rintro ⟨hk, rfl, hne⟩
    exact mem_diffusionTargets_of_weightTo hk hne

/-! ### A diffusion of which no addition overflows (R125) -/

section
variable {Sample : Type} {num : Numerics Sample}

/-- The targets are different cells, so each sum is that of the cell before the diffusion. -/
theorem spread_eq_mapIdx {e : Sample} (targets : List (Nat × Nat)) :
    ∀ (cells : List Sample) (f : Nat → Sample → Sample), targets.Pairwise (fun t u => t.1 ≠ u.1) →
      (∀ t ∈ targets, ∃ y, cells[t.1]? = some y ∧ num.add y (num.share e t.2) = some (f t.1 y)) →
      (∀ k y, cells[k]? = some y → (∀ t ∈ targets, t.1 ≠ k) → f k y = y) →
        spread num e targets cells = .ok (cells.mapIdx f) := by
  induction targets with
  | nil =>
    intro cells f _ _ hothers
    refine congrArg Except.ok (List.ext_getElem (by simp) fun k hk _ => ?_)
    simp [hothers k cells[k] (List.getElem?_eq_getElem hk)]
  | cons t rest ih =>
    intro cells f hne hsums hothers
    obtain ⟨hfirst, hrest⟩ := List.pairwise_cons.1 hne
    obtain ⟨⟨y, hy, hsum⟩, hsums⟩ := List.forall_mem_cons.1 hsums
    obtain ⟨hin, hget⟩ := List.getElem?_eq_some_iff.1 hy
    have hlater := ih (cells.set t.1 (f t.1 y)) (fun k y => if k = t.1 then y else f k y) hrest
      (fun u hu => by simpa [(hfirst u hu).symm, List.getElem?_set_ne (hfirst u hu)] using hsums u hu)
      (fun k z hz hk => by
        by_cases h : k = t.1
        · simp [h]
        · rw [List.getElem?_set_ne (Ne.symm h)] at hz
          simpa [h] using hothers k z hz (List.forall_mem_cons.2 ⟨Ne.symm h, hk⟩))
    simp only [spread, hy, hsum, hlater]
    refine congrArg Except.ok (List.ext_getElem (by simp) fun k _ _ => ?_)
    by_cases h : k = t.1
    · subst h
      simp [hget]
    · simp [h, Ne.symm h]

/-- QDF's work on a cell, with the weights of the picture. -/
theorem quantizeCell_eq_mapIdx {c : Config} {n : Nat} {cells : List Sample} {x e : Sample}
    {f : Nat → Sample → Sample} (hw : 1 ≤ c.w) (hlen : cells.length = c.npix) (hx : cells[n]? = some x)
    (herr : num.err x (num.level x) = some e)
    (hsums : ∀ k y, cells[k]? = some y → weightTo c n k ≠ 0 →
      num.add y (num.share e (weightTo c n k)) = some (f k y))
    (hothers : ∀ k y, weightTo c n k = 0 → f k y = y) :
    quantizeCell num c n cells = .ok (num.level x, cells.mapIdx f) := by
  have hn : n < c.npix := hlen ▸ (List.getElem?_eq_some_iff.1 hx).1
  have hspread : spread num e (diffusionTargets c n) cells = .ok (cells.mapIdx f) := by
    refine spread_eq_mapIdx _ _ _ (diffusionTargets_pairwise_ne n hw) (fun t ht => ?_) fun k y hy hk => ?_
    · have hin : t.1 < cells.length := hlen ▸ diffusionTargets_lt_npix hw hn ht
      have hweight := weightTo_of_mem_diffusionTargets hw ht
      have hsum := hsums t.1 _ (List.getElem?_eq_getElem hin) (hweight ▸ weight_ne_zero_of_mem_diffusionTargets ht)
      exact ⟨_, List.getElem?_eq_getElem hin, hweight ▸ hsum⟩
    · refine hothers k y (not_not.1 fun hne => ?_)
      have hin : k < c.npix := hlen ▸ (List.getElem?_eq_some_iff.1 hy).1
      exact hk _ (mem_diffusionTargets_of_weightTo hin hne) rfl
  simp only [quantizeCell, hx, herr, hspread]

end

/-! ### The statements -/

theorem gridQuantize_fx_eq_ok {c : Config} {n fracK accBits : Nat} {cells cells' : List Int} {x : Int}
    {level : Sym} (hnum : c.numerics = .fx fracK accBits) (hlev : levelFx fracK x = level)
    (h : quantizeCell (numFx fracK accBits c.ref) c n cells = .ok (levelFx fracK x, cells')) :
    gridQuantize c n (.fx cells) = .ok (level, .fx cells') := by
  simp only [gridQuantize, hnum, h, hlev]

theorem gridQuantize_exact_eq_ok {c : Config} {n : Nat} {cells cells' : List Rat} {x : Rat} {level : Sym}
    (hnum : c.numerics = .exact) (hlev : levelExact x = level)
    (h : quantizeCell (numExact c.ref) c n cells = .ok (levelExact x, cells')) :
    gridQuantize c n (.exact cells) = .ok (level, .exact cells') := by
  simp only [gridQuantize, hnum, h, hlev]

/-- QDF of a grid with a level, and what the statements say of it. -/
theorem exec_qdf_spec {s : State} {level : Sym} {g : Grid} (hlevel : gridQuantize s.cfg s.pos s.g = .ok (level, g))
    (hcell : s.pos < s.q.length) : ∃ t, exec .qdf s = .next t ∧ t.g = g ∧ t.q = s.q.set s.pos level ∧
      (t.op, t.pos) = (if s.pos = s.cfg.npix - 1 then (.tcn, 0) else (s.op, s.pos + 1)) ∧
      t = { s with g := t.g, q := t.q, op := t.op, pos := t.pos } :=
  ⟨_, exec_qdf_of_level hlevel hcell, advance_g _ _, advance_q _ _, advance_point _ _,
    (advance_frame _ _).trans (by rw [advance_g, advance_q])⟩

/-- Settles O16: no check of NUM_FX fails, and a share of weight 0 is 0. -/
theorem qdfDiffusesErrorFixedPoint : Obligations.QdfDiffusesErrorFixedPoint := by
  intro s fracK accBits cells x e level hw hnum hg hlen hqlen hx hlevel herr hfits hsums
  have hcell : s.pos < s.q.length := hqlen ▸ hlen ▸ (List.getElem?_eq_some_iff.1 hx).1
  have hlev : levelFx fracK x = level := Fin.ext (by exact_mod_cast (levelFx_val fracK x).trans hlevel.symm)
  have hE : (numFx fracK accBits s.cfg.ref).err x (levelFx fracK x) = some e := by
    rw [hlev]
    exact fxCheck_eq_some.2 ⟨fxInRange_iff.2 (herr ▸ hfits), herr⟩
  have hquant := quantizeCell_eq_mapIdx (num := numFx fracK accBits s.cfg.ref)
    (f := fun k y => y + (e * (weightTo s.cfg s.pos k : Int)) / 16) hw hlen hx hE
    (fun k y hy hne => fxCheck_eq_some.2 ⟨fxInRange_iff.2 (hsums k y hy hne), rfl⟩)
    (fun k y hzero => by simp [hzero])
  exact exec_qdf_spec (hg ▸ gridQuantize_fx_eq_ok hnum hlev hquant) hcell

/-- LEVEL under NUM_EXACT, by its clamped and truncated value. -/
theorem levelExact_eq_of_truncRat {x : Rat} {level : Sym} (h : (level.val : Int) = truncRat (min (max x 0) 6)) :
    levelExact x = level := by
  have hval : (levelExact x).val = (truncRat (min (max x 0) 6)).toNat % 7 := rfl
  have := level.isLt
  exact Fin.ext (by omega)

/-- Settles O17: NUM_EXACT checks nothing. -/
theorem qdfDiffusesErrorExact : Obligations.QdfDiffusesErrorExact := by
  intro s cells x level hw hnum hg hlen hqlen hx hlevel
  have hcell : s.pos < s.q.length := hqlen ▸ hlen ▸ (List.getElem?_eq_some_iff.1 hx).1
  have hlev : levelExact x = level := levelExact_eq_of_truncRat hlevel
  have hE : (numExact s.cfg.ref).err x (levelExact x) = some (x - s.cfg.ref[level]) := by
    rw [hlev]
    rfl
  have hquant := quantizeCell_eq_mapIdx (num := numExact s.cfg.ref)
    (f := fun k y => y + (x - s.cfg.ref[level]) * (weightTo s.cfg s.pos k : Rat) / 16) hw hlen hx hE
    (fun _ _ _ _ => rfl) (fun k y hzero => by simp [hzero])
  exact exec_qdf_spec (hg ▸ gridQuantize_exact_eq_ok hnum hlev hquant) hcell

/-- Settles O21: the weights sum to 16, and each of four roundings loses less than one. -/
theorem sharesOfOneError : Obligations.SharesOfOneError := by
  refine ⟨fun ref e => ?_, fun e => ?_⟩
  · simp only [numExact]
    push_cast
    ring
  · simp only [shareFx]
    omega

end Sys2Proof.Machine
end

section
/-! PROOF. The bit-level encodings (spec/30_encoding.md), each read back from what it is written as, and the operation
that a step performs (spec/44_sequencer_io.md R200). -/

namespace Sys2Proof.Machine

/-! ### Operation codes (R110, R111) -/

theorem decode_encode (i : Instr) : decode (encode i) = .ok i := by
  cases i <;> rfl

/-- Settles O1. -/
theorem operationCodesDecode : Obligations.OperationCodesDecode :=
  ⟨decode_encode .lds, decode_encode .qdf, decode_encode .tcn, decode_encode .rnk, decode_encode .rmp,
    decode_encode .hsd, decode_encode .hmg, decode_encode .erk, decode_encode .etn, decode_encode .pcw,
    decode_encode .fls, decode_encode .flt, rfl, rfl, rfl, rfl⟩

/-- Settles O2: a code that decodes is one of the twelve of the table, by its sixteen values. -/
theorem operationDecodeEncode : Obligations.OperationDecodeEncode := by
  have hcodes : ∀ c : OpCode, ∀ i ∈ (decode c).toOption, encode i = c := by decide
  exact ⟨decode_encode, fun c i h => hcodes c i (by rw [h]; rfl)⟩

/-! ### The beat (R90, R91) -/

/-- Settles O3: each bit of a word is a bit of one of the three fields. -/
theorem beatDecodeEncode : Obligations.BeatDecodeEncode := by
  refine ⟨decodeBeat_encodeBeat, fun w => BitVec.eq_of_getLsbD_eq fun i hi => ?_⟩
  rw [encodeBeat_getLsbD]
  split_ifs with hdata heol heof
  · simp [decodeBeat, hdata]
  · rw [heol, decodeBeat]
  · rw [heof, decodeBeat]
  · omega

/-! ### The fields of the record (R101, R102) -/

theorem decodeRankWord_encode {code : Nat} (h : code < 5040) :
    decodeRankWord (BitVec.ofNat 8 (code / 256)) (BitVec.ofNat 8 (code % 256)) = .ok code := by
  have hcode : code / 256 % 256 * 256 + code % 256 % 256 = code := by omega
  simp only [decodeRankWord, BitVec.toNat_ofNat, Nat.reducePow, hcode, h, if_true]

theorem decodeNode_encodeNode {k : Nat} {left right : NodeId} (hleft : left.toNat < k) (hright : right.toNat < k) :
    decodeNode k (encodeNode left right) = .ok (left, right) := by
  have hhigh : (encodeNode left right).extractLsb' 4 4 = left :=
    BitVec.eq_of_toNat_eq (by simp [encodeNode_toNat, Nat.shiftRight_eq_div_pow]; omega)
  have hlow : (encodeNode left right).extractLsb' 0 4 = right :=
    BitVec.eq_of_toNat_eq (by simp [encodeNode_toNat]; omega)
  rw [decodeNode]
  simp only [hhigh, hlow, hleft, hright, and_self, if_true]

/-- Settles O5. -/
theorem recordFieldsReadBack : Obligations.RecordFieldsReadBack := by
  refine ⟨fun code hcode => ⟨_, _, rfl, ?_, decodeRankWord_encode (Nat.lt_succ_of_le hcode)⟩,
    fun k left right => decodeNode_encodeNode⟩
  rw [BitVec.toNat_ofNat]
  omega

/-! ### The operation that a step performs (R200) -/

theorem step_of_fault {s : State} (h : s.fault = true) : step s = .next s := by
  rcases step_cases s with ⟨-, hstep⟩ | ⟨hclear, -⟩
  · exact hstep
  · exact absurd (h.symm.trans hclear) (by decide)

/-- An operation placed for the next step stands in OP, and FAULT is clear (log 17). -/
theorem placeOperation_op_fault (i : Instr) (s : State) :
    (placeOperation i s).op = i ∧ (placeOperation i s).fault = false := by
  cases i with
  | qdf | tcn | rnk | rmp | hsd | flt => exact ⟨rfl, rfl⟩
  | lds | hmg | erk | etn | pcw | fls => rw [placeOperation]; dsimp only; split_ifs <;> exact ⟨rfl, rfl⟩

theorem withFetchWord_encode (i : Instr) (s : State) :
    s.withFetchWord 8 (encode i).toNat = placeOperation i s := by
  have hword : decodeTableWord 8 (encode i).toNat = some i :=
    Laws.tableWord_of_mod (by rw [decode_encode]; rfl) 8 0
  rw [State.withFetchWord, hword]

/-- Settles O7. -/
theorem stepPerformsTheNamedOperation : Obligations.StepPerformsTheNamedOperation := by
  refine ⟨fun s => step_of_op rfl, fun s => step_of_fault, fun i s => ?_⟩
  obtain ⟨hop, hfault⟩ := placeOperation_op_fault i s
  rw [withFetchWord_encode]
  exact ⟨hop, step_of_op hop hfault⟩

end Sys2Proof.Machine
end

section
/-! PROOF. The model's reader gets from a record the frame it was made from (spec/30_encoding.md R104; log 14). One
section for each field that it reads: the rank words, the tree bytes, the packed bits and the remap that it undoes. -/

namespace Sys2Proof.Machine

/-- A vector is rebuilt from its list. -/
theorem ofFn_getD_toList {α : Type} {n : Nat} (v : Vector α n) (d : α) :
    (Vector.ofFn fun i : Fin n => v.toList.getD i d) = v :=
  Vector.ext fun i hi => by simp

/-! ### The rank words (R101) -/

theorem readRanks_cons {n : Nat} {row : Vector Sym 7} {rows : List (Vector Sym 7)} {bytes rest : List Byte}
    (hrow : IsPermutation row) (h : readRanks n bytes = .ok (rows, rest)) :
    readRanks (n + 1) (encodeRankWord (permIdxClosed row) ++ bytes) = .ok (row :: rows, rest) := by
  simp only [encodeRankWord, List.cons_append, List.nil_append, readRanks,
    decodeRankWord_encode (permIdxClosed_lt hrow), permRow_permIdxClosed hrow, h]

theorem readRanks_append (rows : List (Vector Sym 7)) (bytes : List Byte) (h : ∀ row ∈ rows, IsPermutation row) :
    readRanks rows.length ((rows.flatMap fun row => encodeRankWord (permIdxClosed row)) ++ bytes) =
      .ok (rows, bytes) := by
  induction rows with
  | nil => rfl
  | cons row rows ih =>
    obtain ⟨hrow, hrows⟩ := List.forall_mem_cons.1 h
    rw [List.flatMap_cons, List.append_assoc]
    exact readRanks_cons hrow (ih hrows)

/-! ### The tree bytes (R102) -/

theorem readNodes_cons {n k : Nat} {node : TreeNode} {nodes : List TreeNode} {bytes rest : List Byte}
    (hleft : node.left.toNat < k) (hright : node.right.toNat < k)
    (h : readNodes n (k + 1) bytes = .ok (nodes, rest)) :
    readNodes (n + 1) k (encodeNode node.left node.right :: bytes) = .ok (node :: nodes, rest) := by
  simp only [readNodes, decodeNode_encodeNode hleft hright, h]

theorem readNodes_append (nodes : List TreeNode) (bytes : List Byte) (k : Nat)
    (h : ∀ (j : Nat) (hj : j < nodes.length), nodes[j].left.toNat < j + k ∧ nodes[j].right.toNat < j + k) :
    readNodes nodes.length k ((nodes.map fun n => encodeNode n.left n.right) ++ bytes) = .ok (nodes, bytes) := by
  induction nodes generalizing k with
  | nil => rfl
  | cons node nodes ih =>
    obtain ⟨hleft, hright⟩ := h 0 (Nat.succ_pos _)
    rw [Nat.zero_add] at hleft hright
    refine readNodes_cons hleft hright (ih (k + 1) fun j hj => ?_)
    have hnext := h (j + 1) (Nat.succ_lt_succ hj)
    rwa [Nat.add_assoc, Nat.add_comm 1] at hnext

theorem encodeNode_eq_ofNat (n : TreeNode) :
    encodeNode n.left n.right = BitVec.ofNat 8 (n.pair.1 * 16 + n.pair.2) := by
  rw [TreeNode.pair, ← encodeNode_toNat, BitVec.ofNat_toNat, BitVec.setWidth_eq]

/-- Six pairs of four-bit ids are a tree of the machine. -/
theorem exists_tree_map_pair {nodes : List (Nat × Nat)} (hlength : nodes.length = 6)
    (h : ∀ n ∈ nodes, n.1 < 16 ∧ n.2 < 16) : ∃ tree : Vector TreeNode 6, tree.toList.map TreeNode.pair = nodes := by
  refine ⟨⟨(nodes.map fun n => { left := BitVec.ofNat 4 n.1, right := BitVec.ofNat 4 n.2 }).toArray, by simpa⟩, ?_⟩
  refine (List.map_map ..).trans ((List.map_congr_left fun n hn => ?_).trans (List.map_id nodes))
  obtain ⟨hleft, hright⟩ := h n hn
  simp [TreeNode.pair, Nat.mod_eq_of_lt hleft, Nat.mod_eq_of_lt hright]

/-! ### The walk down the tree (R187) -/

/-- From the node `id` the bits lead to the leaf `m`; node 7 is the first of `nodes`. -/
inductive LeadsTo (nodes : List (Nat × Nat)) (m : Sym) : Nat → List Bool → Prop
  | leaf : LeadsTo nodes m m []
  | step {k : Nat} {n : Nat × Nat} {bits : List Bool} (b : Bool) (hn : nodes[k]? = some n)
      (h : LeadsTo nodes m (if b then n.2 else n.1) bits) : LeadsTo nodes m (k + 7) (b :: bits)

theorem LeadsTo.append {nodes : List (Nat × Nat)} {m : Sym} {id : Nat} {bits : List Bool}
    (h : LeadsTo nodes m id bits) (more : List (Nat × Nat)) : LeadsTo (nodes ++ more) m id bits := by
  induction h with
  | leaf => exact .leaf
  | step b hn _ ih => exact .step b ((List.getElem?_append_left (List.getElem?_eq_some_iff.1 hn).1).trans hn) ih

theorem LeadsTo.of_lt {nodes : List (Nat × Nat)} {m : Sym} {id : Nat} {bits : List Bool}
    (h : LeadsTo nodes m id bits) (hid : id < 7) : id = m ∧ bits = [] := by
  cases h with
  | leaf => exact ⟨rfl, rfl⟩
  | step => omega

section
variable {tree : Vector TreeNode 6} {want k : Nat} {n : Nat × Nat} {bits rest after : List Bool} {syms : List Sym}

/-- One bit of the walk: the child that it chooses is a leaf, or the walk goes on from there. -/
theorem walkBits_cons (b : Bool) (hn : (tree.toList.map TreeNode.pair)[k]? = some n) :
    walkBits tree (want + 1) (b :: bits) (k + 7) =
      if h : (if b then n.2 else n.1) < 7 then
        (walkBits tree want bits 12).map fun r => (⟨if b then n.2 else n.1, h⟩ :: r.1, r.2)
      else walkBits tree (want + 1) bits (if b then n.2 else n.1) := by
  obtain ⟨node, hnode, rfl⟩ : ∃ node, tree.toList[k]? = some node ∧ node.pair = n := by
    simpa only [List.getElem?_map, Option.map_eq_some_iff] using hn
  have hget : tree.toList.getD (k + 7 - 7) { left := 0, right := 0 } = node := by
    rw [Nat.add_sub_cancel, List.getD_eq_getElem?_getD, hnode, Option.getD_some]
  rw [walkBits, hget]
  refine dite_congr rfl (fun h => ?_) fun _ => rfl
  cases walkBits tree want bits 12 <;> rfl

/-- The reader walks as the bits lead, and goes on from the root behind the leaf. -/
theorem LeadsTo.walkBits_append {m : Sym} {id : Nat}
    (h : LeadsTo (tree.toList.map TreeNode.pair) m id bits) (hid : 7 ≤ id)
    (hrest : walkBits tree want rest 12 = .ok (syms, after)) :
    walkBits tree (want + 1) (bits ++ rest) id = .ok (m :: syms, after) := by
  induction h with
  | leaf => omega
  | @step k n bits b hn h ih =>
    rcases Nat.lt_or_ge (if b then n.2 else n.1) 7 with hleaf | hinner
    · obtain ⟨hchild, rfl⟩ := h.of_lt hleaf
      rw [List.cons_append, walkBits_cons b hn, dif_pos hleaf, List.nil_append, hrest]
      exact congrArg Except.ok (Prod.ext (congrArg (· :: syms) (Fin.ext hchild)) rfl)
    · rw [List.cons_append, walkBits_cons b hn, dif_neg (Nat.not_lt.2 hinner)]
      exact ih hinner

/-- The codewords of a frame, one after the other. -/
theorem walkBits_frameBits {code : Vector (List Bool) 7}
    (h : ∀ m : Sym, LeadsTo (tree.toList.map TreeNode.pair) m 12 code[m]) (rs : List Sym) :
    walkBits tree rs.length (frameBits code rs ++ rest) 12 = .ok (rs, rest) := by
  induction rs with
  | nil => rw [frameBits, List.flatMap_nil, List.length_nil, List.nil_append, walkBits]
  | cons k rs ih =>
    rw [frameBits, List.flatMap_cons, List.append_assoc]
    exact (h k).walkBits_append (by decide) ih

end
end Sys2Proof.Machine
end

section
/-! PROOF. A record reads back (spec/30_encoding.md R104; log 14): HUFF's tree leads from its root to each leaf by the
leaf's codeword, the packed bytes hold the frame's bits, and the remap is undone symbol by symbol. -/

namespace Sys2Proof.Machine

/-! ### HUFF's tree leads to its leaves (R163, R187) -/

/-- What the loop of R172 keeps for the reader: from every entry's node the code strings so far lead to the entry's
members. -/
structure Readable (total : Nat) (list : List RefEntry) (id : Nat) (acc : RefTree) : Prop where
  partitions : Partitions list
  forest : Forest total list id acc.nodes
  leads : ∀ e ∈ list, ∀ m ∈ e.members, LeadsTo acc.nodes m e.id acc.code[m]

theorem readable_refSeeds (hist : Vector Nat 7) :
    Readable (∑ k : Sym, hist[k]) (refSeeds hist) 7 { code := Vector.replicate 7 [], nodes := [] } where
  partitions := partitions_refSeeds hist
  forest := forest_refSeeds hist
  leads e he m hm := by
    rw [refSeeds_eq_map, List.mem_map] at he
    obtain ⟨i, -, rfl⟩ := he
    obtain rfl := List.mem_singleton.1 hm
    simpa using LeadsTo.leaf (nodes := []) (m := m)

/-- One turn of the loop: the new node stands last, and its two bits lead to the entries merged. -/
theorem Readable.merge {total id : Nat} {rest : List RefEntry} {right left : RefEntry} {acc : RefTree}
    (h : Readable total (rest ++ [right, left]) id acc) :
    Readable total (refInsert (refMerge left right id) rest) (id + 1) (refGraft left right acc) where
  partitions := h.partitions.merge id
  forest := h.forest.merge
  leads e he m hm := by
    have hcode := refGraft_code_getElem (acc := acc) m h.partitions.not_mem_right
    have hnew : (refGraft left right acc).nodes[acc.nodes.length]? = some (left.id, right.id) :=
      List.getElem?_concat_length
    have hold (x : RefEntry) (hx : x ∈ rest ++ [right, left]) (hm : m ∈ x.members) :
        LeadsTo (refGraft left right acc).nodes m x.id acc.code[m] := (h.leads x hx m hm).append _
    rcases List.mem_cons.1 ((refInsert_perm _ _).mem_iff.1 he) with rfl | he
    · rw [show (refMerge left right id).id = acc.nodes.length + 7 from h.forest.next.symm, hcode]
      by_cases hl : m ∈ left.members
      · rw [if_pos hl]
        exact .step false hnew (hold left (by simp) hl)
      · have hr : m ∈ right.members := (List.mem_append.1 hm).resolve_left hl
        rw [if_neg hl, if_pos hr]
        exact .step true hnew (hold right (by simp) hr)
    · rw [hcode, if_neg fun hl => h.partitions.not_mem_rest (.inl hl) he hm,
        if_neg fun hr => h.partitions.not_mem_rest (.inr hr) he hm]
      exact hold e (List.mem_append_left _ he) hm

theorem readable_huffLoop {total : Nat} (fuel : Nat) : ∀ (list : List RefEntry) (id : Nat) (acc : RefTree),
    list.length = fuel + 1 → Readable total list id acc →
      ∃ root, Readable total [root] (id + fuel) (huffLoop fuel list id acc) := by
  induction fuel with
  | zero =>
    intro list id acc hlength h
    obtain ⟨root, rfl⟩ := List.length_eq_one_iff.1 hlength
    exact ⟨root, h⟩
  | succ fuel ih =>
    intro list id acc hlength h
    obtain ⟨rest, right, left, rfl, hrest⟩ := exists_eq_append_pair hlength
    rw [huffLoop_succ, ← Nat.add_assoc, Nat.add_right_comm]
    exact ih _ _ _ ((refInsert_perm _ _).length_eq.trans (congrArg (· + 1) hrest)) h.merge

/-- HUFF's nodes as a tree of the machine: it passes the reader's checks, and every codeword leads to its leaf. -/
theorem huff_readable (hist : Vector Nat 7) : ∃ tree : Vector TreeNode 6,
    tree.toList.map TreeNode.pair = (huff hist).nodes ∧
    (∀ (j : Nat) (hj : j < tree.toList.length),
      tree.toList[j].left.toNat < j + 7 ∧ tree.toList[j].right.toNat < j + 7) ∧
    (tree.toList.flatMap fun n => [n.left, n.right]).Nodup ∧
    ∀ m : Sym, LeadsTo (tree.toList.map TreeNode.pair) m 12 (huff hist).code[m] := by
  obtain ⟨root, h⟩ := readable_huffLoop 6 _ 7 _ (refSeeds_length hist) (readable_refSeeds hist)
  change Readable _ [root] (12 + 1) (huff hist) at h
  have hlength : (huff hist).nodes.length = 6 := Nat.add_right_cancel h.forest.next
  obtain ⟨tree, htree⟩ := exists_tree_map_pair hlength fun n hn => by
    obtain ⟨j, hj, rfl⟩ := List.getElem_of_mem hn
    have hearlier := h.forest.earlier j hj
    omega
  refine ⟨tree, htree, fun j hj => ?_, ?_, fun m => ?_⟩
  · have hearlier := h.forest.earlier j (by simpa [hlength] using hj)
    simp only [← htree, List.getElem_map] at hearlier
    exact hearlier
  · have hids := h.forest.childIds_perm.nodup_iff.2 List.nodup_range
    rw [← htree, childIds_map_pair] at hids
    exact hids.of_map
  · have hmem : m ∈ root.members := by simpa using h.partitions m
    rw [htree, ← h.forest.root_eq]
    exact h.leads root (List.mem_singleton_self root) m hmem

/-! ### The packed bits (R185) -/

theorem exists_msbBits_eq (bits : List Bool) : ∃ x < 2 ^ bits.length, msbBits bits.length x = bits := by
  induction bits with
  | nil => exact ⟨0, by decide, rfl⟩
  | cons b bits ih =>
    obtain ⟨x, hx, hbits⟩ := ih
    have hb : b.toNat < 2 := Bool.toNat_lt b
    refine ⟨b.toNat * 2 ^ bits.length + x, ?_, ?_⟩
    · rw [List.length_cons, pow_succ]
      nlinarith
    · have hfirst : msbBits 1 b.toNat = [b] := by cases b <;> rfl
      rw [List.length_cons, Nat.add_comm, msbBits_mul_add 1 _ hx, hfirst, hbits, List.singleton_append]

/-- A bit string of whole bytes is the bits of some bytes. -/
theorem exists_flatMap_bitsOfByte_eq (n : Nat) : ∀ bits : List Bool, bits.length = 8 * n →
    ∃ bytes : List Byte, bytes.flatMap bitsOfByte = bits := by
  induction n with
  | zero => exact fun bits h => ⟨[], (List.length_eq_zero_iff.1 h).symm⟩
  | succ n ih =>
    intro bits h
    obtain ⟨x, hx, hfirst⟩ := exists_msbBits_eq (bits.take 8)
    obtain ⟨bytes, hrest⟩ := ih (bits.drop 8) (by rw [List.length_drop]; omega)
    have hlength : (bits.take 8).length = 8 := by rw [List.length_take]; omega
    rw [hlength] at hx hfirst
    refine ⟨BitVec.ofNat 8 x :: bytes, ?_⟩
    rw [List.flatMap_cons, hrest, bitsOfByte_eq_msbBits, BitVec.toNat_ofNat, Nat.mod_eq_of_lt hx, hfirst,
      List.take_append_drop]

theorem padBits_bytes (bits : List Bool) :
    (bytesMsbFirst (padBits bits)).flatMap bitsOfByte = padBits bits := by
  obtain ⟨bytes, hbytes⟩ := exists_flatMap_bitsOfByte_eq ((padBits bits).length / 8) (padBits bits) (by
    rw [padBits, List.length_append, List.length_replicate]
    omega)
  rw [← hbytes, bytesMsbFirst_flatMap_bitsOfByte]

/-! ### The remap (R149) -/

theorem unremap_remap {rk : Vector (Vector Sym 7) 7} (h : ∀ i : Sym, IsPermutation rk[i]) (q : List Sym) (prev : Sym) :
    unremap rk prev (((prev :: q).zip q).map fun p => rk[p.1][p.2]) = q := by
  induction q generalizing prev with
  | nil => rfl
  | cons x q ih =>
    have hfound : (List.finRange 7).find? (fun s => decide (rk[prev][s] = rk[prev][x])) = some x := by
      cases hfind : (List.finRange 7).find? fun s => decide (rk[prev][s] = rk[prev][x]) with
      | none => exact absurd (decide_eq_true rfl) (List.find?_eq_none.1 hfind x (List.mem_finRange x))
      | some s =>
        have hsame : rk[prev][s] = rk[prev][x] := by simpa using List.find?_some hfind
        exact congrArg some ((isPermutation_bijective (h prev)).1 hsame)
    simp only [List.zip_cons_cons, List.map_cons, unremap, hfound, Option.getD_some]
    rw [ih]

/-! ### The statement -/

/-- The reader's answer, from what it reads of each field. -/
theorem readRecord_of_fields {npix p : Nat} {bytes afterRanks packed following : List Byte}
    {rk : Vector (Vector Sym 7) 7} {tree : Vector TreeNode 6} {rs : List Sym}
    (hranks : readRanks 7 bytes = .ok (rk.toList, afterRanks))
    (hnodes : readNodes 6 7 afterRanks = .ok (tree.toList, packed))
    (hnodup : (tree.toList.flatMap fun n => [n.left, n.right]).Nodup)
    (hwalk : walkBits tree npix (packed.flatMap bitsOfByte) 12 =
      .ok (rs, List.replicate p false ++ following.flatMap bitsOfByte)) (hp : p < 8) :
    readRecord npix bytes = .ok (unremap rk 0 rs, packed.drop (packed.length - following.length)) := by
  have hlength : (List.replicate p false ++ following.flatMap bitsOfByte).length = p + 8 * following.length := by
    rw [List.length_append, List.length_replicate, flatMap_bitsOfByte_length]
  have hmod : (p + 8 * following.length) % 8 = p := by omega
  have hdiv : (p + 8 * following.length) / 8 = following.length := by omega
  have hpadding : (List.take p (List.replicate p false ++ following.flatMap bitsOfByte)).any id = false := by
    rw [List.take_left' List.length_replicate]
    simp
  simp only [readRecord, hranks, hnodes, hnodup, not_true_eq_false, if_false, ofFn_getD_toList, hwalk, hlength, hmod,
    hdiv, hpadding, Bool.false_eq_true]

/-- What SERIALIZE writes of a remapped frame is read back, whatever histogram its code was made for. -/
theorem readRecord_serialize {rk : Vector (Vector Sym 7) 7} (hrk : ∀ i : Sym, IsPermutation rk[i])
    (hist : Vector Nat 7) (q : List Sym) (following : List Byte) :
    readRecord q.length (serialize rk (huff hist) (remap rk q) ++ following) = .ok (q, following) := by
  obtain ⟨tree, hnodes, hearlier, hnodup, hleads⟩ := huff_readable hist
  have hrows : ∀ row ∈ rk.toList, IsPermutation row := fun row hrow => by
    obtain ⟨i, hi, rfl⟩ := List.getElem_of_mem hrow
    exact hrk ⟨i, by simpa using hi⟩
  have htree : (huff hist).nodes.map (fun n => BitVec.ofNat 8 (n.1 * 16 + n.2)) =
      tree.toList.map fun n => encodeNode n.left n.right := by
    rw [← hnodes, List.map_map]
    exact List.map_congr_left fun n _ => (encodeNode_eq_ofNat n).symm
  have hreadRanks (bytes : List Byte) := readRanks_append rk.toList bytes hrows
  have hreadNodes (bytes : List Byte) := readNodes_append tree.toList bytes 7 hearlier
  simp only [Vector.length_toList] at hreadRanks hreadNodes
  have hwalk (bits : List Bool) := walkBits_frameBits (rest := bits) hleads (remap rk q)
  have hread := readRecord_of_fields (following := following) (hreadRanks _) (hreadNodes _) hnodup
    (packed := bytesMsbFirst (padBits (frameBits (huff hist).code (remap rk q))) ++ following)
    (by rw [List.flatMap_append, padBits_bytes, padBits, List.append_assoc]; exact hwalk _)
    (Nat.mod_lt _ (by decide))
  rw [remap_length] at hread
  rw [serialize, htree, List.append_assoc, List.append_assoc, hread, remap, transitions, unremap_remap hrk,
    List.length_append, Nat.add_sub_cancel, List.drop_left]

/-- Settles O6. -/
theorem recordReadsBack : Obligations.RecordReadsBack := fun tie q following _ =>
  readRecord_serialize (rankMatrix_isPermutation tie (transitionMatrix q)) _ q following

end Sys2Proof.Machine
end
